-- ==== Sys2Proof/Word.lean ====
section
/-! DEFINITION. The widths of Thor2020's words and the ranges of its register numbers (spec/00_scope.md R6, R8). -/

namespace Sys2Proof

/-- A general register, a code address register, an address: 64 bits (R6 `XLEN`, `ALEN`). -/
abbrev Word := BitVec 64

/-- The unit of memory (spec/20_memory.md R60). -/
abbrev Byte := BitVec 8

/-- The 41 bits of one slot (R6 `SLOT_BITS`). -/
abbrev SlotWord := BitVec 41

/-- The 128 bits of a bundle (R6 `BUNDLE_BITS`). -/
abbrev Bundle := BitVec 128

/-- A general register number (R6 `NGPR`). -/
abbrev Gpr := Fin 64

/-- A code address register number (R6 `NCAR`). -/
abbrev CodeReg := Fin 8

/-- A predicate register number (R6 `NPRED`). -/
abbrev PredReg := Fin 16

/-- A slot of a bundle: 0, 1 or 2 (spec/10_state.md R41). -/
abbrev Slot := Fin 3

end Sys2Proof
end

