-- ==== Sys2Proof/Config.lean ====
section
/-! DEFINITION. The parameters of spec/00_scope.md R7. The ones spec/ decides for every run are named constants here; the
ones a launch gives (or that have a second, described policy) are the fields of `Config`, which `State` carries unchanged. -/

namespace Sys2Proof

/-- How a 14-bit field is widened to 64 bits (R7 `IMM14_EXT`, `DISP_EXT`). -/
inductive Extension where
  | sign
  | zero
deriving DecidableEq, Repr

/-- Order of the bytes of a value in memory (R7 `BYTE_ORDER`). -/
inductive ByteOrder where
  | little
  | big
deriving DecidableEq, Repr

/-- What a dependency inside a group does (R7 `STOP_POLICY`; spec/40_execution_model.md R157). -/
inductive StopPolicy where
  | require
  | ignore
deriving DecidableEq, Repr

/-- What a data access not aligned to its width does (R7 `MISALIGN_POLICY`; spec/20_memory.md R67). -/
inductive MisalignPolicy where
  | fault
  | split
deriving DecidableEq, Repr

/-- The loads that `LD_FUNC` numbers (spec/45_load_store.md R262). -/
inductive LoadKind where
  | ld8s
  | ld8u
  | ld16s
  | ld16u
  | ld32s
  | ld32u
  | ld64
deriving DecidableEq, Repr

/-- The stores that `ST_FUNC` numbers (spec/45_load_store.md R272). -/
inductive StoreKind where
  | st8
  | st16
  | st32
  | st64
deriving DecidableEq, Repr

/-- One range of addresses, `base` to `base + size - 1`, of `MEM_MAP` or of the program text (spec/20_memory.md R62, R77). -/
structure Region where
  base : Nat
  size : Nat
deriving DecidableEq, Repr

/-- The launch parameters (R7): given from outside, and constant while the machine runs (spec/10_state.md R44). -/
structure Config where
  /-- `STOP_POLICY`, decision D17. -/
  stopPolicy : StopPolicy
  /-- `OVF_ENABLE`, open, decision D20. -/
  ovfEnable : Bool
  /-- `TRAP_VECTOR`: `none` while it is left open, else a 16-byte-aligned address, decision D21. -/
  trapVector : Option Word
  /-- `MISALIGN_POLICY`, decision D23. -/
  misalignPolicy : MisalignPolicy
  /-- `END_PC`: `none` while no end is defined, decision D32. -/
  endPc : Option Word
  /-- `MEM_MAP`, decision D33. -/
  memMap : List Region
  /-- The program text, "fixed at launch" (decision D26): the ranges that hold the address of every bundle the run may fetch, and that
  it may not store to (spec/20_memory.md R77; log 23). `none` leaves the text to be what the run fetches. -/
  programText : Option (List Region)
deriving DecidableEq, Repr

/-- The parameters of the reset state. DESIGN CHOICE (log 3, 5): spec/'s defaults where R7 gives one, else no overflow
exception, no `END_PC`, memory at every address, and the 4096 bytes from `RESET_PC` up for program text (log 23). -/
def Config.launch : Config where
  stopPolicy := .require
  ovfEnable := false
  trapVector := none
  misalignPolicy := .fault
  endPc := none
  memMap := [⟨0, 2 ^ 64⟩]
  programText := some [⟨0x1000, 0x1000⟩]

/-- `RESET_PC`, an open parameter (spec/70_reset_and_hazards.md R351). DESIGN CHOICE (log 2): the value of the start state
of spec/95_test_vectors.md section 3. -/
def Config.resetPc : Word := 0x1000

/-- `OPCODE_RADIX`: the numbers of the format table are decimal (decision D1; log 6). -/
def Config.opcodeRadix : Nat := 10

/-- `BYTE_ORDER`: little-endian for data and bundles (decision D2; log 7). -/
def Config.byteOrder : ByteOrder := .little

/-- `IMM14_EXT`: sign extension (decision D3; log 8). -/
def Config.imm14Ext : Extension := .sign

/-- `DISP_EXT`: sign extension (decision D4; log 8). -/
def Config.dispExt : Extension := .sign

/-- `JML_HI_SHIFT`: `Address63..24` is bits 39:0 of the second slot (decision D11; log 13). -/
def Config.jmlHiShift : Nat := 0

/-- `LD_FUNC`: the `Func4` value of each load (R262, decision D5; log 9). -/
def Config.ldFunc : LoadKind → BitVec 4
  | .ld8s => 0
  | .ld8u => 1
  | .ld16s => 2
  | .ld16u => 3
  | .ld32s => 4
  | .ld32u => 5
  | .ld64 => 6

/-- `ST_FUNC`: the `Func4` value of each store (R272, decision D6; log 9). -/
def Config.stFunc : StoreKind → BitVec 4
  | .st8 => 0
  | .st16 => 1
  | .st32 => 2
  | .st64 => 3

/-- The addresses among the parameters are bundle addresses (R7: `TRAP_VECTOR` and `END_PC` are multiples of 16). -/
abbrev Config.Aligned (c : Config) : Prop :=
  (∀ v ∈ c.trapVector, v.toNat % 16 = 0) ∧ (∀ e ∈ c.endPc, e.toNat % 16 = 0)

end Sys2Proof
end

