-- ==== Sys2Proof/Pred.lean ====
section
/-! DEFINITION. The predicate byte every instruction carries (spec/30_encoding.md R94; spec/10_state.md R38). -/

namespace Sys2Proof

/-- The twelve predicate conditions (R38). POR and PUN are second names of `pgeu` and `pltu`. -/
inductive Cond where
  | pf
  | pt
  | peq
  | pne
  | ple
  | pgt
  | pge
  | plt
  | pleu
  | pgtu
  | pgeu
  | pltu
deriving DecidableEq, Repr

/-- A predicate byte: the predicate register `Pr4` and the condition `Pc4` (R94). -/
structure Pred where
  reg : PredReg
  cond : Cond
deriving DecidableEq, Repr

end Sys2Proof
end

