-- ==== Sys2Proof/Syntax.lean ====
section
/-! DEFINITION. The instructions: one constructor for each row of spec/opcode_table.json, in the table's order. Every one but
NOP carries its predicate byte; register numbers, immediates and offsets are the fields of spec/30_encoding.md R97 to R105. -/

namespace Sys2Proof

/-- Thor2020's instructions. `imm` is `imm14`, `disp` the 14-bit displacement, `addr` the offset without its four zero low
bits (`addr[23:4]` of JMP, `addr[63:4]` of JML). -/
inductive Instr where
  | addi (p : Pred) (rt ra : Gpr) (imm : BitVec 14)
  | andi (p : Pred) (rt ra : Gpr) (imm : BitVec 14)
  | ori (p : Pred) (rt ra : Gpr) (imm : BitVec 14)
  | eori (p : Pred) (rt ra : Gpr) (imm : BitVec 14)
  | cmpi (p : Pred) (pt : PredReg) (ra : Gpr) (imm : BitVec 14)
  | biti (p : Pred) (pt : PredReg) (ra : Gpr) (imm : BitVec 14)
  | add (p : Pred) (rt ra rb : Gpr)
  | sub (p : Pred) (rt ra rb : Gpr)
  | and (p : Pred) (rt ra rb : Gpr)
  | or (p : Pred) (rt ra rb : Gpr)
  | eor (p : Pred) (rt ra rb : Gpr)
  | andcm (p : Pred) (rt ra rb : Gpr)
  | nand (p : Pred) (rt ra rb : Gpr)
  | nor (p : Pred) (rt ra rb : Gpr)
  | enor (p : Pred) (rt ra rb : Gpr)
  | cmp (p : Pred) (pt : PredReg) (ra rb : Gpr)
  | movi (p : Pred) (rt : Gpr) (imm : Word)
  | jmp (p : Pred) (ct ca : CodeReg) (addr : BitVec 20)
  | jml (p : Pred) (ct ca : CodeReg) (addr : BitVec 60)
  | ld8s (p : Pred) (rt ra : Gpr) (disp : BitVec 14)
  | ld8u (p : Pred) (rt ra : Gpr) (disp : BitVec 14)
  | ld16s (p : Pred) (rt ra : Gpr) (disp : BitVec 14)
  | ld16u (p : Pred) (rt ra : Gpr) (disp : BitVec 14)
  | ld32s (p : Pred) (rt ra : Gpr) (disp : BitVec 14)
  | ld32u (p : Pred) (rt ra : Gpr) (disp : BitVec 14)
  | ld64 (p : Pred) (rt ra : Gpr) (disp : BitVec 14)
  | st8 (p : Pred) (rb ra : Gpr) (disp : BitVec 14)
  | st16 (p : Pred) (rb ra : Gpr) (disp : BitVec 14)
  | st32 (p : Pred) (rb ra : Gpr) (disp : BitVec 14)
  | st64 (p : Pred) (rb ra : Gpr) (disp : BitVec 14)
  | nop
deriving DecidableEq, Repr

/-- The instruction's predicate byte; NOP's is the canonical 90h (spec/30_encoding.md R118). -/
def Instr.pred : Instr → Pred
  | .addi p _ _ _ | .andi p _ _ _ | .ori p _ _ _ | .eori p _ _ _ | .cmpi p _ _ _ | .biti p _ _ _ => p
  | .add p _ _ _ | .sub p _ _ _ | .and p _ _ _ | .or p _ _ _ | .eor p _ _ _ | .andcm p _ _ _ => p
  | .nand p _ _ _ | .nor p _ _ _ | .enor p _ _ _ | .cmp p _ _ _ | .movi p _ _ => p
  | .jmp p _ _ _ | .jml p _ _ _ => p
  | .ld8s p _ _ _ | .ld8u p _ _ _ | .ld16s p _ _ _ | .ld16u p _ _ _ => p
  | .ld32s p _ _ _ | .ld32u p _ _ _ | .ld64 p _ _ _ => p
  | .st8 p _ _ _ | .st16 p _ _ _ | .st32 p _ _ _ | .st64 p _ _ _ => p
  | .nop => ⟨9, .pf⟩

/-- How many slots the instruction occupies (spec/30_encoding.md R93). -/
def Instr.slots : Instr → Nat
  | .movi _ _ _ | .jml _ _ _ _ => 2
  | .addi _ _ _ _ | .andi _ _ _ _ | .ori _ _ _ _ | .eori _ _ _ _ | .cmpi _ _ _ _ | .biti _ _ _ _ => 1
  | .add _ _ _ _ | .sub _ _ _ _ | .and _ _ _ _ | .or _ _ _ _ | .eor _ _ _ _ | .andcm _ _ _ _ => 1
  | .nand _ _ _ _ | .nor _ _ _ _ | .enor _ _ _ _ | .cmp _ _ _ _ | .jmp _ _ _ _ => 1
  | .ld8s _ _ _ _ | .ld8u _ _ _ _ | .ld16s _ _ _ _ | .ld16u _ _ _ _ => 1
  | .ld32s _ _ _ _ | .ld32u _ _ _ _ | .ld64 _ _ _ _ => 1
  | .st8 _ _ _ _ | .st16 _ _ _ _ | .st32 _ _ _ _ | .st64 _ _ _ _ | .nop => 1

end Sys2Proof
end

