-- ==== Sys2Proof/WellFormed.lean ====
section
/-! DEFINITION. Which instructions have an encoding, and where it may stand. -/

namespace Sys2Proof

/-- Condition PT goes with predicate register 0 only; bytes 11h to F1h are reserved (spec/30_encoding.md R117). -/
def Pred.wf (p : Pred) : Bool :=
  p.cond != .pt || p.reg == 0

/-- An instruction has an encoding exactly when its predicate byte has one: every other field takes all its values. -/
def Instr.wf (i : Instr) : Bool :=
  i.pred.wf

/-- The slots an instruction may start in: MOVI slots 0 and 1, JML slot 0, any other every slot (spec/30_encoding.md R121). -/
def Instr.placeable : Instr → Slot → Bool
  | .movi _ _ _, k => k != 2
  | .jml _ _ _ _, k => k == 0
  | .addi _ _ _ _, _ | .andi _ _ _ _, _ | .ori _ _ _ _, _ | .eori _ _ _ _, _ | .cmpi _ _ _ _, _ | .biti _ _ _ _, _ => true
  | .add _ _ _ _, _ | .sub _ _ _ _, _ | .and _ _ _ _, _ | .or _ _ _ _, _ | .eor _ _ _ _, _ | .andcm _ _ _ _, _ => true
  | .nand _ _ _ _, _ | .nor _ _ _ _, _ | .enor _ _ _ _, _ | .cmp _ _ _ _, _ | .jmp _ _ _ _, _ => true
  | .ld8s _ _ _ _, _ | .ld8u _ _ _ _, _ | .ld16s _ _ _ _, _ | .ld16u _ _ _ _, _ => true
  | .ld32s _ _ _ _, _ | .ld32u _ _ _ _, _ | .ld64 _ _ _ _, _ => true
  | .st8 _ _ _ _, _ | .st16 _ _ _ _, _ | .st32 _ _ _ _, _ | .st64 _ _ _ _, _ | .nop, _ => true

end Sys2Proof
end

