-- ==== Sys2Proof/Decode.lean ====
section
/-! DEFINITION. From the bytes of a bundle to an instruction (spec/30_encoding.md R90 to R121; byte order spec/20_memory.md
R64, R65), and the encoder. -/

namespace Sys2Proof

/-- Why a word is no instruction: each reason is one of the cases of `IllegalInstruction` (spec/60_exceptions.md R302). -/
inductive Illegal where
  /-- Bundle bit 126 or 127 is set (R116). -/
  | reservedControl
  /-- MOVI in slot 2, or JML in slot 1 or 2 (R121). -/
  | placement
  /-- Predicate condition 12 to 15 (R117 a). -/
  | reservedCondition
  /-- Predicate bytes 11h to F1h (R117 b). -/
  | shortForm
  /-- An opcode outside the table of R112 (R114). -/
  | reservedOpcode
  /-- An R2 function outside the table of R113 (R114). -/
  | reservedFunction
  /-- A `Func4` outside `LD_FUNC` or `ST_FUNC` (R114). -/
  | reservedFunc4
  /-- A field marked "~", or JML's spare bit, is not zero (R115). -/
  | unusedField
deriving DecidableEq, Repr

/-- A word with a reserved number, with the operands of the format that its opcode gives it (R112, R114): an opcode without a
format; a function of the R2 group (R98); a `Func4` of LDx or STx (R101, R102). -/
inductive Reserved where
  | opcode
  | function (rt ra rb : Gpr)
  | load (rt ra : Gpr)
  | store (rb ra : Gpr)
deriving DecidableEq, Repr

/-- Which number is reserved. -/
def Reserved.reason : Reserved → Illegal
  | .opcode => .reservedOpcode
  | .function _ _ _ => .reservedFunction
  | .load _ _ | .store _ _ => .reservedFunc4

/-- What a slot holds (R114, R115, R120). -/
inductive Decoded where
  /-- An instruction. -/
  | instr (i : Instr)
  /-- The word of this instruction but for an unused field that is not zero: illegal only if its predicate test passes (R115),
  and naming this instruction's operands either way (log 14). -/
  | spare (i : Instr)
  /-- A reserved opcode, function or `Func4` under a sound predicate byte, one slot long: illegal only if its predicate test
  passes (R114), and naming its format's operands either way (log 14). -/
  | unlisted (p : Pred) (u : Reserved)
  /-- Illegal whatever its predicate test says. -/
  | illegal (r : Illegal)
deriving DecidableEq, Repr

/-! ## Bytes and values -/

/-- The bytes of a value in ascending address order, given least significant first (`BYTE_ORDER`; spec/20_memory.md R64). -/
def orderBytes (bs : List Byte) : List Byte :=
  match Config.byteOrder with
  | .little => bs
  | .big => bs.reverse

/-- The value of bytes given least significant first. -/
def leValue : List Byte → Nat
  | [] => 0
  | b :: bs => b.toNat + 256 * leValue bs

/-- The low `n` bytes of `v`, least significant first. -/
def leBytes : Nat → Nat → List Byte
  | 0, _ => []
  | n + 1, v => BitVec.ofNat 8 v :: leBytes n (v / 256)

/-- The unsigned value of the bytes at ascending addresses (spec/00_scope.md R11 `MemRead`). -/
def bytesValue (bs : List Byte) : Nat :=
  leValue (orderBytes bs)

/-- The low `n` bytes of `v` at ascending addresses (R11 `MemWrite`). -/
def valueBytes (n v : Nat) : List Byte :=
  orderBytes (leBytes n v)

/-- The bundle held by its 16 bytes (spec/20_memory.md R65). -/
def bundleOfBytes (bs : List Byte) : Bundle :=
  BitVec.ofNat 128 (bytesValue bs)

/-- The 16 bytes of a bundle. -/
def bundleBytes (b : Bundle) : List Byte :=
  valueBytes 16 b.toNat

/-! ## Fields -/

/-- Slot `k` of a bundle: bits `41k+40 : 41k` (R92). -/
def slotWord (b : Bundle) (k : Nat) : SlotWord :=
  b.extractLsb' (41 * k) 41

/-- A bundle from its control field and its three slots (R90). -/
def packBundle (control : BitVec 5) (slot2 slot1 slot0 : SlotWord) : Bundle :=
  control ++ slot2 ++ slot1 ++ slot0

/-- Bundle bits 127:126 (R91, R116). -/
def reservedControl (b : Bundle) : BitVec 2 :=
  b.extractLsb' 126 2

/-- The stop bit after slot `k`: bundle bit `123 + k` (R91). -/
def stopAfter (b : Bundle) (k : Nat) : Bool :=
  b.getLsbD (123 + k)

/-- Bits 14:8 (R95). -/
def opcodeField (w : SlotWord) : BitVec 7 := w.extractLsb' 8 7

/-- Bits 40:34 (R98). -/
def func7Field (w : SlotWord) : BitVec 7 := w.extractLsb' 34 7

/-- Bit 33 of formats R2 and CR (R98, R100). -/
def unused33 (w : SlotWord) : BitVec 1 := w.extractLsb' 33 1

/-- Bits 20:19 of formats CI and CR (R99, R100). -/
def unused20 (w : SlotWord) : BitVec 2 := w.extractLsb' 19 2

/-- Bits 40:27 (R97, R99, R101). -/
def imm14Field (w : SlotWord) : BitVec 14 := w.extractLsb' 27 14

/-- Bits 32:27 (R98). -/
def rbField (w : SlotWord) : Gpr := (w.extractLsb' 27 6).toFin

/-- Bits 26:21 (R97). -/
def raField (w : SlotWord) : Gpr := (w.extractLsb' 21 6).toFin

/-- Bits 20:15 (R97). -/
def rtField (w : SlotWord) : Gpr := (w.extractLsb' 15 6).toFin

/-- Bits 18:15 (R99). -/
def ptField (w : SlotWord) : PredReg := (w.extractLsb' 15 4).toFin

/-- Bits 14:12 (R101, R102). -/
def major3Field (w : SlotWord) : BitVec 3 := w.extractLsb' 12 3

/-- Bits 11:8 (R101, R102). -/
def func4Field (w : SlotWord) : BitVec 4 := w.extractLsb' 8 4

/-- `disp[13:6]` in bits 40:33 and `disp[5:0]` in bits 20:15 (R102, R108). -/
def storeDispField (w : SlotWord) : BitVec 14 := w.extractLsb' 33 8 ++ w.extractLsb' 15 6

/-- `imm64 = W2[40:0], I[40:21], I[10:8]` (R109). -/
def movImmField (w w2 : SlotWord) : Word := w2 ++ w.extractLsb' 21 20 ++ w.extractLsb' 8 3

/-- Bits 14:11, MOVI's major opcode (R103). -/
def major4Field (w : SlotWord) : BitVec 4 := w.extractLsb' 11 4

/-- Bits 20:18 (R104). -/
def caField (w : SlotWord) : CodeReg := (w.extractLsb' 18 3).toFin

/-- Bits 17:15 (R104). -/
def ctField (w : SlotWord) : CodeReg := (w.extractLsb' 15 3).toFin

/-- `addr[23:4]` in bits 40:21 (R104). -/
def addrField (w : SlotWord) : BitVec 20 := w.extractLsb' 21 20

/-- `addr[63:24]` in JML's second word (R105; `JML_HI_SHIFT`). -/
def addrHighField (w2 : SlotWord) : BitVec 40 := w2.extractLsb' Config.jmlHiShift 40

/-- JML's second word: `addr[63:24]`, and a zero in the bit left over (R105, R115). -/
def addrHighWord (hi : BitVec 40) : SlotWord := hi.setWidth 41 <<< Config.jmlHiShift

/-- Bits 7:4 (R94). -/
def prField (w : SlotWord) : PredReg := (w.extractLsb' 4 4).toFin

/-- Bits 3:0 (R94). -/
def condField (w : SlotWord) : BitVec 4 := w.extractLsb' 0 4

/-! ## Opcode map -/

/-- A number of the format table written with the digits `tens` and `ones`, in the table's radix (R96). -/
def tableNumber (tens ones : Nat) : Nat :=
  Config.opcodeRadix * tens + ones

/-- A 7-bit opcode or function of the table (R112, R113). -/
def number7 (tens ones : Nat) : BitVec 7 :=
  BitVec.ofNat 7 (tableNumber tens ones)

/-- MOVI's major opcode 8 in bits 14:11 (R103). -/
def movMajor : BitVec 4 := BitVec.ofNat 4 (tableNumber 0 8)

/-- LDx's major opcode 5 in bits 14:12 (R101). -/
def loadMajor : BitVec 3 := BitVec.ofNat 3 (tableNumber 0 5)

/-- STx's major opcode 6 in bits 14:12 (R102). -/
def storeMajor : BitVec 3 := BitVec.ofNat 3 (tableNumber 0 6)

/-- JML's opcode 79 (R112). -/
def opJml : BitVec 7 := number7 7 9

/-- The 4-bit code of a condition (spec/10_state.md R38). -/
def Cond.bits : Cond → BitVec 4
  | .pf => 0
  | .pt => 1
  | .peq => 2
  | .pne => 3
  | .ple => 4
  | .pgt => 5
  | .pge => 6
  | .plt => 7
  | .pleu => 8
  | .pgtu => 9
  | .pgeu => 10
  | .pltu => 11

/-- The condition with this code; 12 to 15 are reserved (R117 a). -/
def Cond.ofBits (c : BitVec 4) : Option Cond :=
  [Cond.pf, .pt, .peq, .pne, .ple, .pgt, .pge, .plt, .pleu, .pgtu, .pgeu, .pltu][c.toNat]?

/-- The predicate byte of a word, or why it is reserved (R94, R117, R120). -/
def decodePred (w : SlotWord) : Except Illegal Pred :=
  match Cond.ofBits (condField w) with
  | none => .error .reservedCondition
  | some c => if c = .pt ∧ prField w ≠ 0 then .error .shortForm else .ok ⟨prField w, c⟩

/-- How many slots a word's opcode takes (R93, R120). -/
def slotsOf (w : SlotWord) : Nat :=
  if major4Field w = movMajor ∨ opcodeField w = opJml then 2 else 1

/-- Whether a word with this opcode may start in slot `k` (R121). -/
def slotLegal (w : SlotWord) (k : Slot) : Bool :=
  if major4Field w = movMajor then k != 2
  else if opcodeField w = opJml then k == 0
  else true

/-- Whether the fields that the format of a selected instruction leaves unused are zero: bit 33 in R2 and CR, bits 20:19 in CI
and CR, the bit left over in JML's second word (R115). -/
def unusedZero (w w2 : SlotWord) : Instr → Bool
  | .add _ _ _ _ | .sub _ _ _ _ | .and _ _ _ _ | .or _ _ _ _ | .eor _ _ _ _ => unused33 w == 0
  | .andcm _ _ _ _ | .nand _ _ _ _ | .nor _ _ _ _ | .enor _ _ _ _ => unused33 w == 0
  | .cmp _ _ _ _ => unused33 w == 0 && unused20 w == 0
  | .cmpi _ _ _ _ | .biti _ _ _ _ => unused20 w == 0
  | .jml _ _ _ _ => w2 == addrHighWord (addrHighField w2)
  | .addi _ _ _ _ | .andi _ _ _ _ | .ori _ _ _ _ | .eori _ _ _ _ | .movi _ _ _ | .jmp _ _ _ _ | .nop => true
  | .ld8s _ _ _ _ | .ld8u _ _ _ _ | .ld16s _ _ _ _ | .ld16u _ _ _ _ => true
  | .ld32s _ _ _ _ | .ld32u _ _ _ _ | .ld64 _ _ _ _ => true
  | .st8 _ _ _ _ | .st16 _ _ _ _ | .st32 _ _ _ _ | .st64 _ _ _ _ => true

/-- The instruction of opcode 2 that `func7` selects (R113). -/
def selectR2 (w : SlotWord) (p : Pred) : Except Reserved Instr :=
  let f := func7Field w
  let rt := rtField w
  let ra := raField w
  let rb := rbField w
  if f = number7 0 4 then .ok (.add p rt ra rb)
  else if f = number7 0 5 then .ok (.sub p rt ra rb)
  else if f = number7 0 6 then .ok (.cmp p (ptField w) ra rb)
  else if f = number7 0 8 then .ok (.and p rt ra rb)
  else if f = number7 0 9 then .ok (.or p rt ra rb)
  else if f = number7 1 0 then .ok (.eor p rt ra rb)
  else if f = number7 1 1 then .ok (.andcm p rt ra rb)
  else if f = number7 1 2 then .ok (.nand p rt ra rb)
  else if f = number7 1 3 then .ok (.nor p rt ra rb)
  else if f = number7 1 4 then .ok (.enor p rt ra rb)
  else .error (.function rt ra rb)

/-- The load that `Func4` selects (spec/45_load_store.md R262). -/
def selectLoad (w : SlotWord) (p : Pred) : Except Reserved Instr :=
  let f := func4Field w
  let rt := rtField w
  let ra := raField w
  let d := imm14Field w
  if f = Config.ldFunc .ld8s then .ok (.ld8s p rt ra d)
  else if f = Config.ldFunc .ld8u then .ok (.ld8u p rt ra d)
  else if f = Config.ldFunc .ld16s then .ok (.ld16s p rt ra d)
  else if f = Config.ldFunc .ld16u then .ok (.ld16u p rt ra d)
  else if f = Config.ldFunc .ld32s then .ok (.ld32s p rt ra d)
  else if f = Config.ldFunc .ld32u then .ok (.ld32u p rt ra d)
  else if f = Config.ldFunc .ld64 then .ok (.ld64 p rt ra d)
  else .error (.load rt ra)

/-- The store that `Func4` selects (spec/45_load_store.md R272). -/
def selectStore (w : SlotWord) (p : Pred) : Except Reserved Instr :=
  let f := func4Field w
  let rb := rbField w
  let ra := raField w
  let d := storeDispField w
  if f = Config.stFunc .st8 then .ok (.st8 p rb ra d)
  else if f = Config.stFunc .st16 then .ok (.st16 p rb ra d)
  else if f = Config.stFunc .st32 then .ok (.st32 p rb ra d)
  else if f = Config.stFunc .st64 then .ok (.st64 p rb ra d)
  else .error (.store rb ra)

/-- The instruction that the opcode selects (R112); `w2` is the second word of a two-slot instruction. -/
def select (w w2 : SlotWord) (p : Pred) : Except Reserved Instr :=
  let op := opcodeField w
  if op = number7 0 2 then selectR2 w p
  else if op = number7 0 4 then .ok (.addi p (rtField w) (raField w) (imm14Field w))
  else if op = number7 0 6 then .ok (.cmpi p (ptField w) (raField w) (imm14Field w))
  else if op = number7 0 7 then .ok (.biti p (ptField w) (raField w) (imm14Field w))
  else if op = number7 0 8 then .ok (.andi p (rtField w) (raField w) (imm14Field w))
  else if op = number7 0 9 then .ok (.ori p (rtField w) (raField w) (imm14Field w))
  else if op = number7 1 0 then .ok (.eori p (rtField w) (raField w) (imm14Field w))
  else if major4Field w = movMajor then .ok (.movi p (rtField w) (movImmField w w2))
  else if op = number7 7 8 then .ok (.jmp p (ctField w) (caField w) (addrField w))
  else if op = opJml then .ok (.jml p (ctField w) (caField w) (addrHighField w2 ++ addrField w))
  else if major3Field w = loadMajor then selectLoad w p
  else if major3Field w = storeMajor then selectStore w p
  else .error .opcode

/-! ## Decoding -/

/-- A one-slot word with condition 0 is a NOP, whatever its other bits would be (R118; log 16). -/
def nopOr (w : SlotWord) (p : Pred) (d : Decoded) : Decoded :=
  if p.cond = .pf ∧ slotsOf w = 1 then .instr .nop else d

/-- The decoding procedure (R120) for the word `w` of slot `k`, `w2` being the next slot's. The selection comes before the check
of the unused fields, which the predicate test can pass over (R115). -/
def decodeWords (w w2 : SlotWord) (k : Slot) : Decoded :=
  if slotLegal w k then
    match decodePred w with
    | .error r => .illegal r
    | .ok p =>
      match select w w2 p with
      | .ok i => if unusedZero w w2 i then .instr i else nopOr w p (.spare i)
      | .error u => nopOr w p (.unlisted p u)
  else .illegal .placement

/-- What starts at slot `k` of a bundle (R120). -/
def decodeSlot (b : Bundle) (k : Slot) : Decoded :=
  decodeWords (slotWord b k) (slotWord b (k + 1 : Nat)) k

/-- What starts at slot `k` of the bundle held by 16 bytes. -/
def decodeBytes (bs : List Byte) (k : Slot) : Decoded :=
  decodeSlot (bundleOfBytes bs) k

/-- The bundle with an instruction in slot 0 whose bits are `w`, numbered from bit 0 of the first word; every bit above
`nbits` is zero, and so are the slots not used and the control field (log 33). -/
def tableBundle (nbits w : Nat) : Bundle :=
  BitVec.ofNat 128 (w % 2 ^ nbits % 2 ^ 123)

/-- The instruction the decoder reads from bits numbered as spec/opcode_table.json numbers them. -/
def decodeTableWord (nbits w : Nat) : Option Instr :=
  match decodeBytes (bundleBytes (tableBundle nbits w)) 0 with
  | .instr i => some i
  | .spare _ => none
  | .unlisted _ _ => none
  | .illegal _ => none

/-! ## Encoding -/

/-- A general register's 6-bit field. -/
def gprBits (r : Gpr) : BitVec 6 := BitVec.ofFin r

/-- A code address register's 3-bit field. -/
def codeRegBits (c : CodeReg) : BitVec 3 := BitVec.ofFin c

/-- A predicate register's 4-bit field. -/
def predRegBits (q : PredReg) : BitVec 4 := BitVec.ofFin q

/-- The predicate byte: `Pr4`, `Pc4` (R94). -/
def Pred.bits (p : Pred) : BitVec 8 := predRegBits p.reg ++ p.cond.bits

/-- Format RI (R97). -/
def formatRI (op : BitVec 7) (p : Pred) (rt ra : Gpr) (imm : BitVec 14) : SlotWord :=
  imm ++ gprBits ra ++ gprBits rt ++ op ++ p.bits

/-- Format R2 (R98). -/
def formatR2 (func : BitVec 7) (p : Pred) (rt ra rb : Gpr) : SlotWord :=
  func ++ 0#1 ++ gprBits rb ++ gprBits ra ++ gprBits rt ++ number7 0 2 ++ p.bits

/-- Format CI (R99). -/
def formatCI (op : BitVec 7) (p : Pred) (pt : PredReg) (ra : Gpr) (imm : BitVec 14) : SlotWord :=
  imm ++ gprBits ra ++ 0#2 ++ predRegBits pt ++ op ++ p.bits

/-- Format CR (R100). -/
def formatCR (func : BitVec 7) (p : Pred) (pt : PredReg) (ra rb : Gpr) : SlotWord :=
  func ++ 0#1 ++ gprBits rb ++ gprBits ra ++ 0#2 ++ predRegBits pt ++ number7 0 2 ++ p.bits

/-- Format LD (R101). -/
def formatLD (func4 : BitVec 4) (p : Pred) (rt ra : Gpr) (disp : BitVec 14) : SlotWord :=
  disp ++ gprBits ra ++ gprBits rt ++ loadMajor ++ func4 ++ p.bits

/-- Format ST (R102). -/
def formatST (func4 : BitVec 4) (p : Pred) (rb ra : Gpr) (disp : BitVec 14) : SlotWord :=
  disp.extractLsb' 6 8 ++ gprBits rb ++ gprBits ra ++ disp.extractLsb' 0 6 ++ storeMajor ++ func4 ++ p.bits

/-- The first word of format MV (R103). -/
def formatMV (p : Pred) (rt : Gpr) (imm : Word) : SlotWord :=
  imm.extractLsb' 3 20 ++ gprBits rt ++ movMajor ++ imm.extractLsb' 0 3 ++ p.bits

/-- Format JM, and the first word of format JL (R104, R105). -/
def formatJM (op : BitVec 7) (p : Pred) (ct ca : CodeReg) (addr : BitVec 20) : SlotWord :=
  addr ++ codeRegBits ca ++ codeRegBits ct ++ op ++ p.bits

/-- The words of an instruction, in slot order. -/
def encode : Instr → List SlotWord
  | .addi p rt ra imm => [formatRI (number7 0 4) p rt ra imm]
  | .andi p rt ra imm => [formatRI (number7 0 8) p rt ra imm]
  | .ori p rt ra imm => [formatRI (number7 0 9) p rt ra imm]
  | .eori p rt ra imm => [formatRI (number7 1 0) p rt ra imm]
  | .cmpi p pt ra imm => [formatCI (number7 0 6) p pt ra imm]
  | .biti p pt ra imm => [formatCI (number7 0 7) p pt ra imm]
  | .add p rt ra rb => [formatR2 (number7 0 4) p rt ra rb]
  | .sub p rt ra rb => [formatR2 (number7 0 5) p rt ra rb]
  | .and p rt ra rb => [formatR2 (number7 0 8) p rt ra rb]
  | .or p rt ra rb => [formatR2 (number7 0 9) p rt ra rb]
  | .eor p rt ra rb => [formatR2 (number7 1 0) p rt ra rb]
  | .andcm p rt ra rb => [formatR2 (number7 1 1) p rt ra rb]
  | .nand p rt ra rb => [formatR2 (number7 1 2) p rt ra rb]
  | .nor p rt ra rb => [formatR2 (number7 1 3) p rt ra rb]
  | .enor p rt ra rb => [formatR2 (number7 1 4) p rt ra rb]
  | .cmp p pt ra rb => [formatCR (number7 0 6) p pt ra rb]
  | .movi p rt imm => [formatMV p rt imm, imm.extractLsb' 23 41]
  | .jmp p ct ca addr => [formatJM (number7 7 8) p ct ca addr]
  | .jml p ct ca addr => [formatJM opJml p ct ca (addr.extractLsb' 0 20), addrHighWord (addr.extractLsb' 20 40)]
  | .ld8s p rt ra disp => [formatLD (Config.ldFunc .ld8s) p rt ra disp]
  | .ld8u p rt ra disp => [formatLD (Config.ldFunc .ld8u) p rt ra disp]
  | .ld16s p rt ra disp => [formatLD (Config.ldFunc .ld16s) p rt ra disp]
  | .ld16u p rt ra disp => [formatLD (Config.ldFunc .ld16u) p rt ra disp]
  | .ld32s p rt ra disp => [formatLD (Config.ldFunc .ld32s) p rt ra disp]
  | .ld32u p rt ra disp => [formatLD (Config.ldFunc .ld32u) p rt ra disp]
  | .ld64 p rt ra disp => [formatLD (Config.ldFunc .ld64) p rt ra disp]
  | .st8 p rb ra disp => [formatST (Config.stFunc .st8) p rb ra disp]
  | .st16 p rb ra disp => [formatST (Config.stFunc .st16) p rb ra disp]
  | .st32 p rb ra disp => [formatST (Config.stFunc .st32) p rb ra disp]
  | .st64 p rb ra disp => [formatST (Config.stFunc .st64) p rb ra disp]
  | .nop => [0x00000000090#41]

/-- The words stand in the slots of `b` from slot `k` on. -/
def holdsWords (b : Bundle) (k : Slot) : List SlotWord → Prop
  | [] => True
  | [w] => slotWord b k = w
  | w :: w2 :: _ => slotWord b k = w ∧ slotWord b (k + 1 : Nat) = w2

end Sys2Proof
end

