-- ==== Sys2Proof/Machine/State.lean ====
section
/-! DEFINITION. The state of the machine (spec/10_state.md), the reasons a step can stop, and the state after reset. -/

namespace Sys2Proof.Machine

/-- The three flags of a predicate register; the fourth bit is unused and reads 0 (spec/10_state.md R36; log 32). -/
structure Flags where
  eq : Bool
  lt : Bool
  ltu : Bool
deriving DecidableEq, Repr

/-- The predicate register as the 4-bit value of R36: bit 3 zero, ltu, lt, eq. -/
def Flags.bits (f : Flags) : BitVec 4 :=
  0#1 ++ BitVec.ofBool f.ltu ++ BitVec.ofBool f.lt ++ BitVec.ofBool f.eq

/-- What an instruction can depend on through a group (spec/40_execution_model.md R157). -/
inductive Resource where
  | gpr (r : Gpr)
  | car (c : CodeReg)
  | pred (q : PredReg)
  | memory
deriving DecidableEq, Repr

/-- A bundle that a store has written, and the address of the first store that did (spec/20_memory.md R77; log 23). -/
structure Stored where
  bundle : Word
  addr : Word
deriving DecidableEq, Repr

/-- The machine's state. `x[0]`, `C[0]` and `C[7]` are read through accessors that never look at a cell (R21, R27, R33). -/
structure State where
  /-- `x[0..63]` (R20). Cell 0 is never read or written. -/
  gprs : Vector Word 64
  /-- `C[0..7]` (R26). Cells 0 and 7 are never read or written: C0 is zero and C7 is `pc`. -/
  cars : Vector Word 8
  /-- `P[0..15]` (R35). -/
  preds : Vector Flags 16
  /-- The address of the current bundle: `pc`, `ip`, C7 (R40). -/
  pc : Word
  /-- The slot that executes next (R41). -/
  slot : Slot
  /-- Memory: the bytes that differ from what an unlisted address reads as, by rising address (spec/20_memory.md R60). -/
  mem : List Host.Cell
  /-- The destinations named by the earlier instructions of the running group (spec/40_execution_model.md R156, R157). -/
  group : List Resource
  /-- The addresses of the bundles fetched so far (spec/20_memory.md R77; log 23). -/
  fetchedBundles : List Word
  /-- The bundles that a store has written, oldest first (spec/20_memory.md R77; log 23). -/
  storedBundles : List Stored
  /-- The launch parameters (spec/00_scope.md R7), constant in a run; no part of the architectural state (log 3). -/
  config : Config
deriving DecidableEq, Repr

/-- The architected exceptions: one (spec/60_exceptions.md R300, R301). -/
inductive Exception where
  | integerOverflow
deriving DecidableEq, Repr

/-- Why an access is an `AccessFault` (spec/60_exceptions.md R305). -/
inductive AccessReason where
  /-- A fetched byte is outside `MEM_MAP`. -/
  | fetchOutsideMap
  /-- A loaded byte is outside `MEM_MAP`. -/
  | loadOutsideMap
  /-- A stored byte is outside `MEM_MAP`. -/
  | storeOutsideMap
  /-- "store to code": a store to a bundle that was fetched or is program text; or, where a launch leaves the text open, the fetch of a
  bundle that was stored to, which shows that the store was one, with that store's address. -/
  | storeToCode
deriving DecidableEq, Repr

/-- The model-level faults (spec/60_exceptions.md R302 to R308), each with the information the spec gives it. -/
inductive Fault where
  /-- Raised by the step: a word or a bundle that is no instruction (R302). Safe: the model stops where hardware does
  something nobody knows. -/
  | illegalInstruction (r : Illegal)
  /-- Raised by loads and stores under `MISALIGN_POLICY` fault, with the effective address (R303). Safe. -/
  | misalignedAccess (ea : Word)
  /-- Raised by JMP and JML, with the target (R304). Safe. -/
  | misalignedTarget (target : Word)
  /-- Raised by a fetch, a load or a store, with the access's first address (R305). Safe. -/
  | accessFault (addr : Word) (r : AccessReason)
  /-- Raised by the step under `STOP_POLICY` require (R307). Safe. -/
  | groupHazard
  /-- Raised on taking an exception while `TRAP_VECTOR` is open, with the value written to C6 (R310). Safe. -/
  | unvectoredTrap (e : Exception) (c6 : Word)
deriving DecidableEq, Repr

/-- The reasons for which a step gives no outcome of the machine. -/
inductive Refusal where
  /-- Given by `exec` for an instruction without a meaning; no arm gives it now. Safe. -/
  | notModelled (mnemonic : String)
  /-- Given by the step at `END_PC`, slot 0: the run has ended (spec/40_execution_model.md R142 line 1, R159). Safe. -/
  | runEnded
  /-- Given by the step that would fetch a bundle outside the program text its launch fixed: no such run is one of this launch, and to
  go on would make an earlier store a store to code (spec/20_memory.md R77, decision D26; log 23). Safe. -/
  | fetchOutsideText
deriving DecidableEq, Repr

/-- The machine right after reset (spec/10_state.md R46). R46 gives `slot`, `x[0]` and `C[0]`; every other register holds a
DESIGN CHOICE (log 1, 2), and so do the launch parameters (log 3, 5). -/
def State.reset : State where
  gprs := Vector.replicate 64 0
  cars := Vector.replicate 8 0
  preds := Vector.replicate 16 ⟨false, false, false⟩
  pc := Config.resetPc
  slot := 0
  mem := []
  group := []
  fetchedBundles := []
  storedBundles := []
  config := Config.launch

end Sys2Proof.Machine
end

