-- ==== Sys2Proof/Machine/Flags.lean ====
section
/-! DEFINITION. Every flag computation: the compare flags, the predicate test, signed overflow. -/

namespace Sys2Proof.Machine

/-- The flags of a compare of `a` with `b` (spec/43_compare.md R230; log 10). -/
def cmpFlags (a b : Word) : Flags where
  eq := a == b
  lt := a.slt b
  ltu := a.ult b

/-- The flags of a bit test: the masked value compared with zero (spec/43_compare.md R233; log 10). -/
def bitFlags (a mask : Word) : Flags :=
  cmpFlags (a &&& mask) 0

/-- `PredTest` (spec/10_state.md R38). -/
def predTest (c : Cond) (f : Flags) : Bool :=
  match c with
  | .pf => false
  | .pt => true
  | .peq => f.eq
  | .pne => !f.eq
  | .ple => f.lt || f.eq
  | .pgt => !(f.lt || f.eq)
  | .pge => !f.lt
  | .plt => f.lt
  | .pleu => f.ltu || f.eq
  | .pgtu => !(f.ltu || f.eq)
  | .pgeu => !f.ltu
  | .pltu => f.ltu

/-- `AddOverflow` (spec/42_arithmetic_logical.md R205): operands of one sign, sum of the other. -/
def addOverflow (a b : Word) : Bool :=
  a.msb == b.msb && (a + b).msb != a.msb

/-- `SubOverflow` (spec/42_arithmetic_logical.md R205): operands of unlike signs, difference of the minuend's unlike sign. -/
def subOverflow (a b : Word) : Bool :=
  a.msb != b.msb && (a - b).msb != a.msb

end Sys2Proof.Machine
end

