-- ==== Sys2Proof/Machine/Ops.lean ====
section
/-! DEFINITION. The named operations over registers and memory (spec/00_scope.md R10, R11), the advance and the jump, and the
taking of an exception. -/

namespace Sys2Proof.Machine

/-- What a meaning answers. -/
abbrev Result := Host.Outcome State Fault Refusal

/-! ## Registers -/

/-- `x[r]`; `x[0]` is always zero (spec/10_state.md R21). -/
def readX (s : State) (r : Gpr) : Word :=
  if r = 0 then 0 else s.gprs[r]

/-- `x[r] <- v`; a write to `x[0]` is discarded (R21). -/
def writeX (s : State) (r : Gpr) (v : Word) : State :=
  if r = 0 then s else { s with gprs := s.gprs.set r v }

/-- `C[c]`; C0 is always zero and C7 is the program counter (R27, R33; log 11). -/
def readC (s : State) (c : CodeReg) : Word :=
  if c = 0 then 0 else if c = 7 then s.pc else s.cars[c]

/-- `C[c] <- v`; a write to C0 or C7 is discarded (R27, R33; log 11). -/
def writeC (s : State) (c : CodeReg) (v : Word) : State :=
  if c = 0 ∨ c = 7 then s else { s with cars := s.cars.set c v }

/-- The flags of `P[q]` (R35). -/
def readP (s : State) (q : PredReg) : Flags :=
  s.preds[q]

/-- `P[q] <- f`, all three flags at once (R37). -/
def writeP (s : State) (q : PredReg) (f : Flags) : State :=
  { s with preds := s.preds.set q f }

/-! ## Position -/

/-- The advance of an instruction of `len` slots that did not jump (spec/40_execution_model.md R150). -/
def advance (s : State) (len : Nat) : State :=
  if h : s.slot.val + len < 3 then { s with slot := ⟨s.slot.val + len, h⟩ }
  else { s with pc := s.pc + 16, slot := 0 }

/-- A taken jump: slot 0 of the target bundle is next, and the group ends (spec/40_execution_model.md R152, R156 b). -/
def jumpTo (s : State) (target : Word) : State :=
  { s with pc := target, slot := 0, group := [] }

/-- An instruction under its predicate: its operation if the test passes, else only the advance (spec/40_execution_model.md
R146, R147, R149). -/
def guarded (p : Pred) (len : Nat) (s : State) (op : State → Result) : Result :=
  if predTest p.cond (readP s p.reg) then op s else .next (advance s len)

/-! ## Memory -/

/-- What an unlisted address reads as. DESIGN CHOICE (log 4): zero. -/
def unlistedByte : Byte := 0

/-- The byte at an address. -/
def readCell : List Host.Cell → Nat → Byte
  | [], _ => unlistedByte
  | (k, v) :: m, a => if k = a then v else readCell m a

/-- The memory without an entry for an address. -/
def eraseCell : List Host.Cell → Nat → List Host.Cell
  | [], _ => []
  | (k, v) :: m, a => if k = a then eraseCell m a else (k, v) :: eraseCell m a

/-- The memory with an entry put before the first larger address. -/
def insertCell : List Host.Cell → Nat → Byte → List Host.Cell
  | [], a, b => [(a, b)]
  | (k, v) :: m, a, b => if a < k then (a, b) :: (k, v) :: m else (k, v) :: insertCell m a b

/-- The memory after a byte is written: the value an unlisted address reads as is not listed. -/
def writeCell (m : List Host.Cell) (a : Nat) (b : Byte) : List Host.Cell :=
  if b = unlistedByte then eraseCell m a else insertCell (eraseCell m a) a b

/-- The canonical form of memory: addresses of the address space, strictly rising, none listed with the unlisted value. -/
abbrev Memory.wf (m : List Host.Cell) : Prop :=
  m.Pairwise (fun x y => x.1 < y.1) ∧ ∀ x ∈ m, x.1 < 2 ^ 64 ∧ x.2 ≠ unlistedByte

/-- The `n` bytes from address `a` up, addresses modulo 2^64 (spec/00_scope.md R11). -/
def readCells (m : List Host.Cell) (a : Word) : Nat → List Byte
  | 0 => []
  | n + 1 => readCell m a.toNat :: readCells m (a + 1) n

/-- Memory after bytes are written from address `a` up, in ascending order (R11; spec/20_memory.md R67). -/
def writeCells (m : List Host.Cell) (a : Word) : List Byte → List Host.Cell
  | [] => m
  | b :: bs => writeCells (writeCell m a.toNat b) (a + 1) bs

/-- Whether one of the ranges holds an address. -/
def inRegions (rs : List Region) (a : Word) : Bool :=
  rs.any fun r => decide (r.base ≤ a.toNat ∧ a.toNat < r.base + r.size)

/-- Whether `MEM_MAP` holds a byte address (spec/20_memory.md R62). -/
def mapped (c : Config) (a : Word) : Bool :=
  inRegions c.memMap a

/-- Whether `MEM_MAP` holds all `n` bytes from `a` up (R62). -/
def allMapped (c : Config) (a : Word) : Nat → Bool
  | 0 => true
  | n + 1 => mapped c a && allMapped c (a + 1) n

/-- Whether a data access of `n` bytes is stopped for its alignment (spec/20_memory.md R67; log 20). -/
def misaligned (c : Config) (a : Word) (n : Nat) : Bool :=
  c.misalignPolicy == .fault && a.toNat % n != 0

/-- The address of the bundle that holds a byte: the multiple of 16 at or below it (spec/30_encoding.md R90). -/
def bundleOf (a : Word) : Word :=
  a - a % 16

/-- The bundles that the `n` bytes from `a` up lie in, for `n` up to 16. -/
def bundlesOf (a : Word) (n : Nat) : List Word :=
  [bundleOf a, bundleOf (a + BitVec.ofNat 64 (n - 1))]

/-- A list without repeats that also holds the given bundles. -/
def addBundles (known bs : List Word) : List Word :=
  bs.foldl (fun l b => l.insert b) known

/-- Whether a bundle is recorded as stored to. -/
def isStored (known : List Stored) (b : Word) : Bool :=
  known.any fun e => e.bundle == b

/-- The records after a store at `a` that writes bytes of the given bundles: a bundle keeps its first store. -/
def recordStore (known : List Stored) (a : Word) (bs : List Word) : List Stored :=
  bs.foldl (fun l b => if isStored l b then l else l ++ [⟨b, a⟩]) known

/-- The oldest record of a store into one of the bundles. -/
def firstStore (known : List Stored) (bs : List Word) : Option Stored :=
  known.find? fun e => bs.contains e.bundle

/-- Whether the launch declares the bundle at an address program text (decision D26; log 23). -/
def inText (c : Config) (b : Word) : Bool :=
  inRegions (c.programText.getD []) b

/-- Whether these bundles may be fetched: all of them are program text, or the launch leaves the text open (D26; log 23). -/
def textAdmits (c : Config) (bs : List Word) : Bool :=
  c.programText.isNone || bs.all (inText c)

/-- Whether a bundle has been fetched, or will be, being program text (spec/20_memory.md R77; log 23). -/
def isCode (s : State) (b : Word) : Bool :=
  s.fetchedBundles.contains b || inText s.config b

/-- `MemRead` of a load: alignment, then the memory map, then the value (spec/00_scope.md R11; spec/60_exceptions.md R315). -/
def memRead (s : State) (a : Word) (n : Nat) : Except Fault Nat :=
  if misaligned s.config a n then .error (.misalignedAccess a)
  else if allMapped s.config a n then .ok (bytesValue (readCells s.mem a n))
  else .error (.accessFault a .loadOutsideMap)

/-- `MemWrite` of a store: alignment, the memory map, the ban on stores to code, then all the bytes (spec/00_scope.md R11;
spec/20_memory.md R77; log 23). -/
def memWrite (s : State) (a : Word) (n : Nat) (v : Word) : Except Fault State :=
  if misaligned s.config a n then .error (.misalignedAccess a)
  else if allMapped s.config a n then
    if (bundlesOf a n).any (isCode s) then .error (.accessFault a .storeToCode)
    else .ok { s with
      mem := writeCells s.mem a (valueBytes n v.toNat)
      storedBundles := recordStore s.storedBundles a (bundlesOf a n) }
  else .error (.accessFault a .storeOutsideMap)

/-! ## Exceptions -/

/-- Slot 0 of the bundle at an address is next. -/
def goTo (s : State) (a : Word) : State :=
  { s with pc := a, slot := 0 }

/-- Taking an architected exception (spec/60_exceptions.md R310; log 19): `C[6] <- pc`, then the vector if there is one, else
the model stops. The return is `JMP C0, C6, 0` (R312): the jump of Machine/ControlFlow.lean, nothing else being saved. -/
def takeException (e : Exception) (s : State) : Result :=
  match s.config.trapVector with
  | some v => .next (goTo (writeC s 6 s.pc) v)
  | none => .fault (.unvectoredTrap e s.pc)

end Sys2Proof.Machine
end

