-- ==== Sys2Proof/Machine/Operands.lean ====
section
/-! DEFINITION. Every operand form: immediates, displacements and effective addresses, jump offsets, loaded values
(spec/30_encoding.md R106 to R111; spec/45_load_store.md R261, R262). -/

namespace Sys2Proof.Machine

/-- A field widened to 64 bits. -/
def widen (e : Extension) {n : Nat} (v : BitVec n) : Word :=
  match e with
  | .sign => v.signExtend 64
  | .zero => v.setWidth 64

/-- The immediate operand (R106; log 8). -/
def immValue (imm : BitVec 14) : Word :=
  widen Config.imm14Ext imm

/-- The displacement of a load or a store (R107, R108; log 8). -/
def dispValue (disp : BitVec 14) : Word :=
  widen Config.dispExt disp

/-- The effective address `x[Ra] + disp`, modulo 2^64 (spec/45_load_store.md R261). -/
def effAddr (s : State) (ra : Gpr) (disp : BitVec 14) : Word :=
  readX s ra + dispValue disp

/-- JMP's offset: `addr[23:4]` with four zero bits below, zero-extended (R110). -/
def jmpOffset (addr : BitVec 20) : Word :=
  (addr ++ 0#4).setWidth 64

/-- JML's offset: `addr[63:4]` with four zero bits below (R111). -/
def jmlOffset (addr : BitVec 60) : Word :=
  addr ++ 0#4

/-- A value of `n` bytes read from memory, widened to a register (spec/45_load_store.md R262). -/
def loadedValue (e : Extension) (n v : Nat) : Word :=
  widen e (BitVec.ofNat (8 * n) v)

end Sys2Proof.Machine
end

