-- ==== Sys2Proof/Machine/ArithLogical.lean ====
section
/-! DEFINITION. The arithmetic and logical instructions (spec/42_arithmetic_logical.md). -/

namespace Sys2Proof.Machine

/-- A one-slot instruction that writes one general register and cannot stop: `x[Rt] <- value` (R190, R191). -/
def setX (p : Pred) (rt : Gpr) (s : State) (value : State → Word) : Result :=
  guarded p 1 s fun t => .next (advance (writeX t rt (value t)) 1)

/-- An immediate form: `x[Rt] <- x[Ra] op imm` (R190). -/
def immForm (op : Word → Word → Word) (p : Pred) (rt ra : Gpr) (imm : BitVec 14) (s : State) : Result :=
  setX p rt s fun t => op (readX t ra) (immValue imm)

/-- A register form: `x[Rt] <- x[Ra] op x[Rb]` (R191). -/
def regForm (op : Word → Word → Word) (p : Pred) (rt ra rb : Gpr) (s : State) : Result :=
  setX p rt s fun t => op (readX t ra) (readX t rb)

/-- A register form that raises `IntegerOverflow` when `OVF_ENABLE` and its operands overflow; the target is then not written
(R192, R194; spec/60_exceptions.md R301). -/
def overflowForm (overflow : Word → Word → Bool) (op : Word → Word → Word) (p : Pred) (rt ra rb : Gpr) (s : State) : Result :=
  guarded p 1 s fun t =>
    if overflow (readX t ra) (readX t rb) && t.config.ovfEnable then takeException .integerOverflow t
    else .next (advance (writeX t rt (op (readX t ra) (readX t rb))) 1)

/-- ADD # (R193): never raises (log 18). -/
def execAddi (p : Pred) (rt ra : Gpr) (imm : BitVec 14) (s : State) : Result :=
  immForm (fun a b => a + b) p rt ra imm s

/-- AND # (R196). -/
def execAndi (p : Pred) (rt ra : Gpr) (imm : BitVec 14) (s : State) : Result :=
  immForm (fun a b => a &&& b) p rt ra imm s

/-- OR # (R198). -/
def execOri (p : Pred) (rt ra : Gpr) (imm : BitVec 14) (s : State) : Result :=
  immForm (fun a b => a ||| b) p rt ra imm s

/-- EOR # (R200). -/
def execEori (p : Pred) (rt ra : Gpr) (imm : BitVec 14) (s : State) : Result :=
  immForm (fun a b => a ^^^ b) p rt ra imm s

/-- ADD (R192). -/
def execAdd (p : Pred) (rt ra rb : Gpr) (s : State) : Result :=
  overflowForm addOverflow (fun a b => a + b) p rt ra rb s

/-- SUB (R194): raises like ADD (decision D22; log 18). -/
def execSub (p : Pred) (rt ra rb : Gpr) (s : State) : Result :=
  overflowForm subOverflow (fun a b => a - b) p rt ra rb s

/-- AND (R195). -/
def execAnd (p : Pred) (rt ra rb : Gpr) (s : State) : Result :=
  regForm (fun a b => a &&& b) p rt ra rb s

/-- OR (R197). -/
def execOr (p : Pred) (rt ra rb : Gpr) (s : State) : Result :=
  regForm (fun a b => a ||| b) p rt ra rb s

/-- EOR (R199). -/
def execEor (p : Pred) (rt ra rb : Gpr) (s : State) : Result :=
  regForm (fun a b => a ^^^ b) p rt ra rb s

/-- ANDCM (R201): `Rb` is complemented (log 29). -/
def execAndcm (p : Pred) (rt ra rb : Gpr) (s : State) : Result :=
  regForm (fun a b => a &&& ~~~b) p rt ra rb s

/-- NAND (R202). -/
def execNand (p : Pred) (rt ra rb : Gpr) (s : State) : Result :=
  regForm (fun a b => ~~~(a &&& b)) p rt ra rb s

/-- NOR (R203). -/
def execNor (p : Pred) (rt ra rb : Gpr) (s : State) : Result :=
  regForm (fun a b => ~~~(a ||| b)) p rt ra rb s

/-- ENOR (R204). -/
def execEnor (p : Pred) (rt ra rb : Gpr) (s : State) : Result :=
  regForm (fun a b => ~~~(a ^^^ b)) p rt ra rb s

end Sys2Proof.Machine
end

