-- ==== Sys2Proof/Machine/Compare.lean ====
section
/-! DEFINITION. The compares (spec/43_compare.md): the only instructions that write a predicate register. -/

namespace Sys2Proof.Machine

/-- A compare: `P[Pt] <- flags`, all of the register (R231 to R233). -/
def setP (p : Pred) (pt : PredReg) (s : State) (flags : State → Flags) : Result :=
  guarded p 1 s fun t => .next (advance (writeP t pt (flags t)) 1)

/-- CMP # (R232). -/
def execCmpi (p : Pred) (pt : PredReg) (ra : Gpr) (imm : BitVec 14) (s : State) : Result :=
  setP p pt s fun t => cmpFlags (readX t ra) (immValue imm)

/-- BIT # (R233). -/
def execBiti (p : Pred) (pt : PredReg) (ra : Gpr) (imm : BitVec 14) (s : State) : Result :=
  setP p pt s fun t => bitFlags (readX t ra) (immValue imm)

/-- CMP (R231). -/
def execCmp (p : Pred) (pt : PredReg) (ra rb : Gpr) (s : State) : Result :=
  setP p pt s fun t => cmpFlags (readX t ra) (readX t rb)

end Sys2Proof.Machine
end

