-- ==== Sys2Proof/Machine/ControlFlow.lean ====
section
/-! DEFINITION. JMP, JML (spec/41_control_flow.md) and NOP (spec/40_execution_model.md R154). -/

namespace Sys2Proof.Machine

/-- The operation of both jumps (R170, R171): the target from the old `C[Ca]` (R172; log 30), the alignment check (R173), the
return address `pc + 16` into `C[Ct]`, then the jump. -/
def jumpAndLink (ct ca : CodeReg) (offset : Word) (s : State) : Result :=
  let target := readC s ca + offset
  if target.toNat % 16 = 0 then .next (jumpTo (writeC s ct (s.pc + 16)) target)
  else .fault (.misalignedTarget target)

/-- JMP (R171). -/
def execJmp (p : Pred) (ct ca : CodeReg) (addr : BitVec 20) (s : State) : Result :=
  guarded p 1 s (jumpAndLink ct ca (jmpOffset addr))

/-- JML (R170). -/
def execJml (p : Pred) (ct ca : CodeReg) (addr : BitVec 60) (s : State) : Result :=
  guarded p 2 s (jumpAndLink ct ca (jmlOffset addr))

/-- NOP: only the advance (spec/40_execution_model.md R154). -/
def execNop (s : State) : Result :=
  .next (advance s 1)

end Sys2Proof.Machine
end

