-- ==== Sys2Proof/Machine/LoadStore.lean ====
section
/-! DEFINITION. The loads and the stores (spec/45_load_store.md). -/

namespace Sys2Proof.Machine

/-- A load of `n` bytes: the read and its faults happen even when the value is discarded (R262). -/
def loadForm (e : Extension) (n : Nat) (p : Pred) (rt ra : Gpr) (disp : BitVec 14) (s : State) : Result :=
  guarded p 1 s fun t =>
    match memRead t (effAddr t ra disp) n with
    | .ok v => .next (advance (writeX t rt (loadedValue e n v)) 1)
    | .error f => .fault f

/-- A store of the low `n` bytes of `x[Rb]` (R272). -/
def storeForm (n : Nat) (p : Pred) (rb ra : Gpr) (disp : BitVec 14) (s : State) : Result :=
  guarded p 1 s fun t =>
    match memWrite t (effAddr t ra disp) n (readX t rb) with
    | .ok t' => .next (advance t' 1)
    | .error f => .fault f

/-- LD8S (R263). -/
def execLd8s (p : Pred) (rt ra : Gpr) (disp : BitVec 14) (s : State) : Result :=
  loadForm .sign 1 p rt ra disp s

/-- LD8U (R264). -/
def execLd8u (p : Pred) (rt ra : Gpr) (disp : BitVec 14) (s : State) : Result :=
  loadForm .zero 1 p rt ra disp s

/-- LD16S (R265). -/
def execLd16s (p : Pred) (rt ra : Gpr) (disp : BitVec 14) (s : State) : Result :=
  loadForm .sign 2 p rt ra disp s

/-- LD16U (R266). -/
def execLd16u (p : Pred) (rt ra : Gpr) (disp : BitVec 14) (s : State) : Result :=
  loadForm .zero 2 p rt ra disp s

/-- LD32S (R267). -/
def execLd32s (p : Pred) (rt ra : Gpr) (disp : BitVec 14) (s : State) : Result :=
  loadForm .sign 4 p rt ra disp s

/-- LD32U (R268). -/
def execLd32u (p : Pred) (rt ra : Gpr) (disp : BitVec 14) (s : State) : Result :=
  loadForm .zero 4 p rt ra disp s

/-- LD64 (R269): 8 bytes fill the register, so nothing is extended. -/
def execLd64 (p : Pred) (rt ra : Gpr) (disp : BitVec 14) (s : State) : Result :=
  loadForm .zero 8 p rt ra disp s

/-- ST8 (R273). -/
def execSt8 (p : Pred) (rb ra : Gpr) (disp : BitVec 14) (s : State) : Result :=
  storeForm 1 p rb ra disp s

/-- ST16 (R274). -/
def execSt16 (p : Pred) (rb ra : Gpr) (disp : BitVec 14) (s : State) : Result :=
  storeForm 2 p rb ra disp s

/-- ST32 (R275). -/
def execSt32 (p : Pred) (rb ra : Gpr) (disp : BitVec 14) (s : State) : Result :=
  storeForm 4 p rb ra disp s

/-- ST64 (R276). -/
def execSt64 (p : Pred) (rb ra : Gpr) (disp : BitVec 14) (s : State) : Result :=
  storeForm 8 p rb ra disp s

end Sys2Proof.Machine
end

