-- ==== Sys2Proof/Machine/MoveImmediate.lean ====
section
/-! DEFINITION. MOVI (spec/44_movi.md). -/

namespace Sys2Proof.Machine

/-- MOVI (R250): `x[Rt] <- imm64`, two slots. -/
def execMovi (p : Pred) (rt : Gpr) (imm : Word) (s : State) : Result :=
  guarded p 2 s fun t => .next (advance (writeX t rt imm) 2)

end Sys2Proof.Machine
end

