-- ==== Sys2Proof/Machine/Dispatch.lean ====
section
/-! DEFINITION. One arm per instruction: each is one call of its meaning. -/

namespace Sys2Proof.Machine

def exec (i : Instr) (s : State) : Host.Outcome State Fault Refusal :=
  match i with
  | .addi p rt ra imm => Sys2Proof.Machine.execAddi p rt ra imm s
  | .andi p rt ra imm => Sys2Proof.Machine.execAndi p rt ra imm s
  | .ori p rt ra imm => Sys2Proof.Machine.execOri p rt ra imm s
  | .eori p rt ra imm => Sys2Proof.Machine.execEori p rt ra imm s
  | .cmpi p pt ra imm => Sys2Proof.Machine.execCmpi p pt ra imm s
  | .biti p pt ra imm => Sys2Proof.Machine.execBiti p pt ra imm s
  | .add p rt ra rb => Sys2Proof.Machine.execAdd p rt ra rb s
  | .sub p rt ra rb => Sys2Proof.Machine.execSub p rt ra rb s
  | .and p rt ra rb => Sys2Proof.Machine.execAnd p rt ra rb s
  | .or p rt ra rb => Sys2Proof.Machine.execOr p rt ra rb s
  | .eor p rt ra rb => Sys2Proof.Machine.execEor p rt ra rb s
  | .andcm p rt ra rb => Sys2Proof.Machine.execAndcm p rt ra rb s
  | .nand p rt ra rb => Sys2Proof.Machine.execNand p rt ra rb s
  | .nor p rt ra rb => Sys2Proof.Machine.execNor p rt ra rb s
  | .enor p rt ra rb => Sys2Proof.Machine.execEnor p rt ra rb s
  | .cmp p pt ra rb => Sys2Proof.Machine.execCmp p pt ra rb s
  | .movi p rt imm => Sys2Proof.Machine.execMovi p rt imm s
  | .jmp p ct ca addr => Sys2Proof.Machine.execJmp p ct ca addr s
  | .jml p ct ca addr => Sys2Proof.Machine.execJml p ct ca addr s
  | .ld8s p rt ra disp => Sys2Proof.Machine.execLd8s p rt ra disp s
  | .ld8u p rt ra disp => Sys2Proof.Machine.execLd8u p rt ra disp s
  | .ld16s p rt ra disp => Sys2Proof.Machine.execLd16s p rt ra disp s
  | .ld16u p rt ra disp => Sys2Proof.Machine.execLd16u p rt ra disp s
  | .ld32s p rt ra disp => Sys2Proof.Machine.execLd32s p rt ra disp s
  | .ld32u p rt ra disp => Sys2Proof.Machine.execLd32u p rt ra disp s
  | .ld64 p rt ra disp => Sys2Proof.Machine.execLd64 p rt ra disp s
  | .st8 p rb ra disp => Sys2Proof.Machine.execSt8 p rb ra disp s
  | .st16 p rb ra disp => Sys2Proof.Machine.execSt16 p rb ra disp s
  | .st32 p rb ra disp => Sys2Proof.Machine.execSt32 p rb ra disp s
  | .st64 p rb ra disp => Sys2Proof.Machine.execSt64 p rb ra disp s
  | .nop => Sys2Proof.Machine.execNop s

end Sys2Proof.Machine
end

