-- ==== Sys2Proof/Machine/Group.lean ====
section
/-! DEFINITION. Groups and the group hazard rule (spec/40_execution_model.md R155 to R158; log 16, 17). -/

namespace Sys2Proof.Machine

/-- A general register other than `r0` (R157). -/
def gprRes (r : Gpr) : List Resource :=
  if r = 0 then [] else [.gpr r]

/-- A code address register other than C0 and C7 (R157). -/
def carRes (c : CodeReg) : List Resource :=
  if c = 0 ∨ c = 7 then [] else [.car c]

/-- The predicate register, when the condition is 2 to 11 (R157). -/
def predRes (p : Pred) : List Resource :=
  if p.cond = .pf ∨ p.cond = .pt then [] else [.pred p.reg]

/-- The sources an instruction's operand fields name; a load or a store also depends on memory (R157). -/
def operandSources : Instr → List Resource
  | .addi _ _ ra _ | .andi _ _ ra _ | .ori _ _ ra _ | .eori _ _ ra _ | .cmpi _ _ ra _ | .biti _ _ ra _ => gprRes ra
  | .add _ _ ra rb | .sub _ _ ra rb | .and _ _ ra rb | .or _ _ ra rb | .eor _ _ ra rb => gprRes ra ++ gprRes rb
  | .andcm _ _ ra rb | .nand _ _ ra rb | .nor _ _ ra rb | .enor _ _ ra rb | .cmp _ _ ra rb => gprRes ra ++ gprRes rb
  | .movi _ _ _ | .nop => []
  | .jmp _ _ ca _ | .jml _ _ ca _ => carRes ca
  | .ld8s _ _ ra _ | .ld8u _ _ ra _ | .ld16s _ _ ra _ | .ld16u _ _ ra _ => gprRes ra ++ [.memory]
  | .ld32s _ _ ra _ | .ld32u _ _ ra _ | .ld64 _ _ ra _ => gprRes ra ++ [.memory]
  | .st8 _ rb ra _ | .st16 _ rb ra _ | .st32 _ rb ra _ | .st64 _ rb ra _ => gprRes ra ++ gprRes rb ++ [.memory]

/-- The destinations an instruction names; a store's is memory (R157). -/
def operandDests : Instr → List Resource
  | .addi _ rt _ _ | .andi _ rt _ _ | .ori _ rt _ _ | .eori _ rt _ _ => gprRes rt
  | .cmpi _ pt _ _ | .biti _ pt _ _ | .cmp _ pt _ _ => [.pred pt]
  | .add _ rt _ _ | .sub _ rt _ _ | .and _ rt _ _ | .or _ rt _ _ | .eor _ rt _ _ => gprRes rt
  | .andcm _ rt _ _ | .nand _ rt _ _ | .nor _ rt _ _ | .enor _ rt _ _ | .movi _ rt _ => gprRes rt
  | .jmp _ ct _ _ | .jml _ ct _ _ => carRes ct
  | .ld8s _ rt _ _ | .ld8u _ rt _ _ | .ld16s _ rt _ _ | .ld16u _ rt _ _ => gprRes rt
  | .ld32s _ rt _ _ | .ld32u _ rt _ _ | .ld64 _ rt _ _ => gprRes rt
  | .st8 _ _ _ _ | .st16 _ _ _ _ | .st32 _ _ _ _ | .st64 _ _ _ _ => [.memory]
  | .nop => []

/-- A one-slot instruction with condition 0: it is a NOP, which has no operands (spec/30_encoding.md R118; R154; log 16). -/
def isNop (i : Instr) : Bool :=
  i.pred.cond == .pf && i.slots == 1

/-- What an instruction depends on, whether or not its predicate test passes (R157). -/
def sources (i : Instr) : List Resource :=
  if isNop i then [] else predRes i.pred ++ operandSources i

/-- What an instruction names as a destination, whether or not its predicate test passes (R157). -/
def dests (i : Instr) : List Resource :=
  if isNop i then [] else operandDests i

/-- What a reserved word depends on: its predicate register and the sources of its format (R157; spec/30_encoding.md R98, R101,
R102, R112; log 14). -/
def reservedSources (p : Pred) : Reserved → List Resource
  | .opcode => predRes p
  | .function _ ra rb => predRes p ++ gprRes ra ++ gprRes rb
  | .load _ ra => predRes p ++ gprRes ra ++ [.memory]
  | .store rb ra => predRes p ++ gprRes ra ++ gprRes rb ++ [.memory]

/-- What a reserved word names as a destination: its format's, and memory for STx (R157; log 14). -/
def reservedDests : Reserved → List Resource
  | .opcode => []
  | .function rt _ _ | .load rt _ => gprRes rt
  | .store _ _ => [.memory]

/-- The group hazard rule (R157): under `STOP_POLICY` require, a source or a destination that an earlier instruction of the
group names as a destination. -/
def hazard (s : State) (srcs dsts : List Resource) : Bool :=
  s.config.stopPolicy == .require && (srcs ++ dsts).any fun r => s.group.contains r

/-- The group after an instruction of `len` slots in bundle `b`: ended by the stop bit of its last slot (R156 a; log 17), else
longer by its destinations. -/
def groupAfter (s : State) (b : Bundle) (len : Nat) (dsts : List Resource) : List Resource :=
  if stopAfter b (s.slot.val + len - 1) then [] else dsts.foldl (fun g r => g.insert r) s.group

end Sys2Proof.Machine
end

