-- ==== Sys2Proof/Machine/Fetch.lean ====
section
/-! DEFINITION. Everything a step does before an instruction's own meaning: lines 1 to 5 of spec/40_execution_model.md R142,
in the order of spec/60_exceptions.md R315. -/

namespace Sys2Proof.Machine

/-- What the front of a step finds. -/
inductive Issue where
  /-- Run the instruction on this state. -/
  | run (i : Instr) (s : State)
  /-- A word that would be illegal and whose predicate test fails: nothing but the advance (R147). -/
  | skip (s : State)
  | fault (f : Fault)
  | refuse (r : Refusal)
deriving DecidableEq, Repr

/-- The run has ended (R142 line 1, R159; log 26). -/
def atEnd (s : State) : Bool :=
  s.config.endPc == some s.pc && s.slot == 0

/-- The 16 bytes at an address, as a bundle (R143; spec/20_memory.md R65). -/
def bundleAt (m : List Host.Cell) (a : Word) : Bundle :=
  bundleOfBytes (readCells m a 16)

/-- The bundle fetch: every byte in the memory map, and in the program text. Where a launch leaves the text open, a store into the
bundle before is shown by this fetch to be a store to code, the fault it then is with that store's address (R143;
spec/20_memory.md R62, R77; log 23). -/
def fetchBundle (s : State) : Except Issue Bundle :=
  if allMapped s.config s.pc 16 then
    if textAdmits s.config (bundlesOf s.pc 16) then
      match firstStore s.storedBundles (bundlesOf s.pc 16) with
      | some e => .error (.fault (.accessFault e.addr .storeToCode))
      | none => .ok (bundleAt s.mem s.pc)
    else .error (.refuse .fetchOutsideText)
  else .error (.fault (.accessFault s.pc .fetchOutsideMap))

/-- The state in which an instruction of `len` slots with these destinations runs: its bundle is marked as fetched, and the
group is the one after it (R156; spec/20_memory.md R77). -/
def issued (s : State) (b : Bundle) (len : Nat) (dsts : List Resource) : State :=
  { s with
    fetchedBundles := addBundles s.fetchedBundles (bundlesOf s.pc 16)
    group := groupAfter s b len dsts }

/-- A word that is illegal for the reason `r` if its predicate test passes: the hazard check on what it names, then the fault,
or if the test fails nothing but the advance (spec/30_encoding.md R114, R115; R147). -/
def issueIllegal (s : State) (b : Bundle) (p : Pred) (len : Nat) (srcs dsts : List Resource) (r : Illegal) : Issue :=
  if hazard s srcs dsts then .fault .groupHazard
  else if predTest p.cond (readP s p.reg) then .fault (.illegalInstruction r)
  else .skip (advance (issued s b len dsts) len)

/-- Decode and the hazard check of the slot that is next in a fetched bundle (R144, R145, R157). A word with an unused field
that is not zero names the operands of its instruction, a reserved word those of its format (log 14). -/
def issueFrom (s : State) (b : Bundle) : Issue :=
  if reservedControl b ≠ 0 then .fault (.illegalInstruction .reservedControl)
  else
    match decodeSlot b s.slot with
    | .illegal r => .fault (.illegalInstruction r)
    | .spare i => issueIllegal s b i.pred i.slots (sources i) (dests i) .unusedField
    | .unlisted p u => issueIllegal s b p 1 (reservedSources p u) (reservedDests u) u.reason
    | .instr i =>
      if hazard s (sources i) (dests i) then .fault .groupHazard
      else .run i (issued s b i.slots (dests i))

/-- The front of a step. -/
def issue (s : State) : Issue :=
  if atEnd s then .refuse .runEnded
  else
    match fetchBundle s with
    | .error stop => stop
    | .ok b => issueFrom s b

/-- The parameters, changed only where the bundle at `pc` could not be fetched: no end there, its bytes mapped, and in the
program text where there is one. -/
def fetchableConfig (s : State) : Config :=
  { s.config with
    endPc := if s.config.endPc = some s.pc then none else s.config.endPc
    memMap := if allMapped s.config s.pc 16 then s.config.memMap else ⟨0, 2 ^ 64⟩ :: s.config.memMap
    programText :=
      if textAdmits s.config (bundlesOf s.pc 16) then s.config.programText
      else s.config.programText.map fun t => (bundlesOf s.pc 16).map (fun b => ⟨b.toNat, 16⟩) ++ t }

/-- The state with a table row's instruction in slot 0 of the bundle at `pc`, ready to run as the next step: slot 0, no group
running, and the bundle not marked as stored to (log 33). -/
def placeWord (s : State) (nbits w : Nat) : State :=
  { s with
    slot := 0
    mem := writeCells s.mem s.pc (bundleBytes (tableBundle nbits w))
    group := []
    storedBundles := s.storedBundles.filter fun e => !(bundlesOf s.pc 16).contains e.bundle
    config := fetchableConfig s }

end Sys2Proof.Machine
end

