-- ==== Sys2Proof/Machine/Step.lean ====
section
/-! DEFINITION. One step (spec/40_execution_model.md R142): the front of the step, then the instruction's meaning. -/

namespace Sys2Proof.Machine

/-- One step: exactly one instruction (R141, R142). -/
def step (s : State) : Host.Outcome State Fault Refusal :=
  match issue s with
  | .run i s' => exec i s'
  | .skip s' => .next s'
  | .fault f => .fault f
  | .refuse r => .refused r

/-- The state whose next step runs the instruction with these bits (log 33). -/
def State.withFetchWord (s : State) (nbits w : Nat) : State :=
  placeWord s nbits w

end Sys2Proof.Machine
end

