-- ==== Sys2Proof/Safety.lean ====
section
/-! DEFINITION. The terms claims are stated in: what an instruction leaves unchanged, the results it can complete with, and
the invariants of a run. Everything is said through the reads of registers and of single bytes. -/

namespace Sys2Proof.Machine

/-! ## Frames -/

/-- Every general register is unchanged. -/
def SameX (s t : State) : Prop := ∀ r, readX t r = readX s r

/-- Every code address register but the program counter is unchanged. -/
def SameC (s t : State) : Prop := ∀ c, c ≠ 7 → readC t c = readC s c

/-- Every predicate register is unchanged. -/
def SameP (s t : State) : Prop := ∀ q, readP t q = readP s q

/-- Every byte of memory is unchanged. -/
def SameMem (s t : State) : Prop := ∀ a, readCell t.mem a = readCell s.mem a

/-- The launch parameters and the bundles known as fetched are unchanged. -/
def SameLaunch (s t : State) : Prop := t.config = s.config ∧ t.fetchedBundles = s.fetchedBundles

/-- The running group and the bundles known as stored to are unchanged as well. -/
def SameRecords (s t : State) : Prop :=
  SameLaunch s t ∧ t.group = s.group ∧ t.storedBundles = s.storedBundles

/-- Only `x[rt]` is written, with `v`; nothing is if `rt` is 0 (spec/10_state.md R21). -/
def WroteX (s t : State) (rt : Gpr) (v : Word) : Prop :=
  ∀ r, readX t r = if r = rt ∧ r ≠ 0 then v else readX s r

/-- Only `C[ct]` is written, with `v`; nothing is if `ct` is 0 or 7 (R27, R33). -/
def WroteC (s t : State) (ct : CodeReg) (v : Word) : Prop :=
  ∀ c, c ≠ 7 → readC t c = if c = ct ∧ c ≠ 0 then v else readC s c

/-- Only `P[pt]` is written, with the flags `f` (R37). -/
def WroteP (s t : State) (pt : PredReg) (f : Flags) : Prop :=
  ∀ q, readP t q = if q = pt then f else readP s q

/-- The `n` bytes from `a` up hold the low bytes of `v`, least significant first, and every other byte is unchanged. -/
def WroteMem (s t : State) (a : Word) (n : Nat) (v : Word) : Prop :=
  (∀ k < n, readCell t.mem (a + BitVec.ofNat 64 k).toNat = v.extractLsb' (8 * k) 8) ∧
  ∀ b, (∀ k < n, b ≠ (a + BitVec.ofNat 64 k).toNat) → readCell t.mem b = readCell s.mem b

/-- The position after an instruction of `len` slots that did not jump (spec/40_execution_model.md R150). -/
def MovedOn (s t : State) (len : Nat) : Prop :=
  if s.slot.val + len < 3 then t.pc = s.pc ∧ t.slot.val = s.slot.val + len
  else t.pc = s.pc + 16 ∧ t.slot.val = 0

/-- A bundle is recorded as stored to. -/
def StoredTo (s : State) (b : Word) : Prop := ∃ e ∈ s.storedBundles, e.bundle = b

/-- A byte of the bundle at `pc` lies in the bundle at `b`. -/
def Fetches (s : State) (b : Word) : Prop := ∃ k < 16, b = bundleOf (s.pc + BitVec.ofNat 64 k)

/-! ## Results -/

/-- Completes, and only the position has moved, by `len` slots. -/
def GivesNothing (o : Result) (s : State) (len : Nat) : Prop :=
  ∃ t, o = .next t ∧ SameX s t ∧ SameC s t ∧ SameP s t ∧ SameMem s t ∧ SameRecords s t ∧ MovedOn s t len

/-- Completes with `x[rt] <- v`. -/
def GivesX (o : Result) (s : State) (len : Nat) (rt : Gpr) (v : Word) : Prop :=
  ∃ t, o = .next t ∧ WroteX s t rt v ∧ SameC s t ∧ SameP s t ∧ SameMem s t ∧ SameRecords s t ∧ MovedOn s t len

/-- Completes with `P[pt] <- f`. -/
def GivesP (o : Result) (s : State) (pt : PredReg) (f : Flags) : Prop :=
  ∃ t, o = .next t ∧ WroteP s t pt f ∧ SameX s t ∧ SameC s t ∧ SameMem s t ∧ SameRecords s t ∧ MovedOn s t 1

/-- Completes with the low `n` bytes of `v` stored from address `a` up, and those of their bundles that were not known as stored to
now known so, by a store at `a`. -/
def GivesMem (o : Result) (s : State) (a : Word) (n : Nat) (v : Word) : Prop :=
  ∃ t, o = .next t ∧ WroteMem s t a n v ∧ SameX s t ∧ SameC s t ∧ SameP s t ∧ SameLaunch s t ∧ t.group = s.group ∧
    (∀ e, e ∈ t.storedBundles ↔ e ∈ s.storedBundles ∨
      e.addr = a ∧ ¬ StoredTo s e.bundle ∧ ∃ k < n, e.bundle = bundleOf (a + BitVec.ofNat 64 k)) ∧ MovedOn s t 1

/-- Completes with a jump to slot 0 of the bundle at `target`, `C[ct] <- pc + 16`, and a new group. -/
def GivesJump (o : Result) (s : State) (ct : CodeReg) (target : Word) : Prop :=
  ∃ t, o = .next t ∧ t.pc = target ∧ t.slot.val = 0 ∧ WroteC s t ct (s.pc + 16) ∧ SameX s t ∧ SameP s t ∧ SameMem s t ∧
    SameLaunch s t ∧ t.group = [] ∧ t.storedBundles = s.storedBundles

/-- The exception is taken: to the vector with `C[6] <- pc` and nothing else written, or a stop while no vector is given
(spec/60_exceptions.md R310). -/
def TakesException (o : Result) (s : State) (e : Exception) : Prop :=
  match s.config.trapVector with
  | none => o = .fault (.unvectoredTrap e s.pc)
  | some v => ∃ t, o = .next t ∧ t.pc = v ∧ t.slot.val = 0 ∧ WroteC s t 6 s.pc ∧ SameX s t ∧ SameP s t ∧ SameMem s t ∧
      SameRecords s t

/-- A step that runs nothing: only the position moves on, by `len` slots; the bundle is known as fetched, and the group goes on
with the given destinations unless the stop bit of the last of these slots ends it (R147, R149, R156). -/
def OnlySkips (o : Result) (s : State) (b : Bundle) (len : Nat) (named : Resource → Prop) : Prop :=
  ∃ t, o = .next t ∧ SameX s t ∧ SameC s t ∧ SameP s t ∧ t.mem = s.mem ∧ MovedOn s t len ∧ t.config = s.config ∧
    t.storedBundles = s.storedBundles ∧
    (∀ a, a ∈ t.fetchedBundles ↔ a ∈ s.fetchedBundles ∨ Fetches s a) ∧
    ∀ r, r ∈ t.group ↔ b.getLsbD (123 + (s.slot.val + len - 1)) = false ∧ (r ∈ s.group ∨ named r)

/-! ## What an instruction names (spec/40_execution_model.md R157) -/

/-- A general register other than `r0`. -/
def NamesX (rn : Gpr) (r : Resource) : Prop := rn ≠ 0 ∧ r = .gpr rn

/-- A code address register other than C0 and C7. -/
def NamesC (cn : CodeReg) (r : Resource) : Prop := cn ≠ 0 ∧ cn ≠ 7 ∧ r = .car cn

/-- The predicate register, with a condition in 2 to 11. -/
def NamesP (p : Pred) (r : Resource) : Prop := 2 ≤ p.cond.bits.toNat ∧ r = .pred p.reg

/-- What an instruction names as a source; nothing for a NOP, any one-slot instruction with condition 0 (log 16). A load or a
store names memory. -/
def NamesSource (i : Instr) (r : Resource) : Prop :=
  ¬ (i.pred.cond = .pf ∧ i.slots = 1) ∧
  (NamesP i.pred r ∨
    match i with
    | .addi _ _ ra _ | .andi _ _ ra _ | .ori _ _ ra _ | .eori _ _ ra _ | .cmpi _ _ ra _ | .biti _ _ ra _ => NamesX ra r
    | .add _ _ ra rb | .sub _ _ ra rb | .and _ _ ra rb | .or _ _ ra rb | .eor _ _ ra rb | .andcm _ _ ra rb | .nand _ _ ra rb
    | .nor _ _ ra rb | .enor _ _ ra rb | .cmp _ _ ra rb => NamesX ra r ∨ NamesX rb r
    | .movi _ _ _ | .nop => False
    | .jmp _ _ ca _ | .jml _ _ ca _ => NamesC ca r
    | .ld8s _ _ ra _ | .ld8u _ _ ra _ | .ld16s _ _ ra _ | .ld16u _ _ ra _ | .ld32s _ _ ra _ | .ld32u _ _ ra _
    | .ld64 _ _ ra _ => NamesX ra r ∨ r = .memory
    | .st8 _ rb ra _ | .st16 _ rb ra _ | .st32 _ rb ra _ | .st64 _ rb ra _ => NamesX ra r ∨ NamesX rb r ∨ r = .memory)

/-- What an instruction names as a destination; nothing for a NOP. A store names memory. -/
def NamesDest (i : Instr) (r : Resource) : Prop :=
  ¬ (i.pred.cond = .pf ∧ i.slots = 1) ∧
  match i with
  | .addi _ rt _ _ | .andi _ rt _ _ | .ori _ rt _ _ | .eori _ rt _ _ | .add _ rt _ _ | .sub _ rt _ _ | .and _ rt _ _
  | .or _ rt _ _ | .eor _ rt _ _ | .andcm _ rt _ _ | .nand _ rt _ _ | .nor _ rt _ _ | .enor _ rt _ _ | .movi _ rt _ => NamesX rt r
  | .ld8s _ rt _ _ | .ld8u _ rt _ _ | .ld16s _ rt _ _ | .ld16u _ rt _ _ | .ld32s _ rt _ _ | .ld32u _ rt _ _
  | .ld64 _ rt _ _ => NamesX rt r
  | .cmpi _ pt _ _ | .biti _ pt _ _ | .cmp _ pt _ _ => r = .pred pt
  | .jmp _ ct _ _ | .jml _ ct _ _ => NamesC ct r
  | .st8 _ _ _ _ | .st16 _ _ _ _ | .st32 _ _ _ _ | .st64 _ _ _ _ => r = .memory
  | .nop => False

/-- What a reserved word names as a source, by its format (spec/30_encoding.md R98, R101, R102, R112; log 14). -/
def ReservedSource (p : Pred) (u : Reserved) (r : Resource) : Prop :=
  NamesP p r ∨
  match u with
  | .opcode => False
  | .function _ ra rb => NamesX ra r ∨ NamesX rb r
  | .load _ ra => NamesX ra r ∨ r = .memory
  | .store rb ra => NamesX ra r ∨ NamesX rb r ∨ r = .memory

/-- What a reserved word names as a destination, by its format. -/
def ReservedDest (u : Reserved) (r : Resource) : Prop :=
  match u with
  | .opcode => False
  | .function rt _ _ | .load rt _ => NamesX rt r
  | .store _ _ => r = .memory

/-- A name of the instruction, source or destination, is a destination of an earlier instruction of the group. -/
def Depends (s : State) (i : Instr) : Prop := ∃ r ∈ s.group, NamesSource i r ∨ NamesDest i r

/-! ## Conditions -/

/-- The instruction's predicate test passes (spec/10_state.md R38). -/
def Passes (p : Pred) (s : State) : Prop := predTest p.cond (readP s p.reg) = true

/-- The access is aligned to its width, or `MISALIGN_POLICY` is split (spec/20_memory.md R67). -/
def AlignedFor (s : State) (a : Word) (n : Nat) : Prop :=
  s.config.misalignPolicy = .split ∨ a.toNat % n = 0

/-- A byte address is in `MEM_MAP` (spec/20_memory.md R62). -/
def InMap (s : State) (a : Word) : Prop :=
  ∃ r ∈ s.config.memMap, r.base ≤ a.toNat ∧ a.toNat < r.base + r.size

/-- The `n` bytes from `a` up are in `MEM_MAP`. -/
def InMapFor (s : State) (a : Word) (n : Nat) : Prop :=
  ∀ k < n, InMap s (a + BitVec.ofNat 64 k)

/-- The bundle at `b` is program text by the launch's declaration (R77, decision D26). -/
def InText (s : State) (b : Word) : Prop :=
  ∃ r ∈ s.config.programText.getD [], r.base ≤ b.toNat ∧ b.toNat < r.base + r.size

/-- What the step fetches is program text, or the launch leaves the text open (decision D26; log 23). -/
def TextAdmits (s : State) : Prop :=
  s.config.programText = none ∨ ∀ b, Fetches s b → InText s b

/-- What the step fetches may be fetched and was not stored to. -/
def FetchesText (s : State) : Prop :=
  TextAdmits s ∧ ∀ b, Fetches s b → ¬ StoredTo s b

/-- None of the `n` bytes from `a` up lies in a bundle that was fetched before or is program text: the store is no store to code
(R77). -/
def NotCode (s : State) (a : Word) (n : Nat) : Prop :=
  ∀ k < n, ¬ (bundleOf (a + BitVec.ofNat 64 k) ∈ s.fetchedBundles ∨ InText s (bundleOf (a + BitVec.ofNat 64 k)))

/-- A byte of memory. -/
def byteAt (s : State) (a : Word) : Byte := readCell s.mem a.toNat

/-- The base register, the displacement and the width in bytes of a load or a store (spec/45_load_store.md R262, R272). -/
def dataAccess : Instr → Option (Gpr × BitVec 14 × Nat)
  | .ld8s _ _ ra d | .ld8u _ _ ra d | .st8 _ _ ra d => some (ra, d, 1)
  | .ld16s _ _ ra d | .ld16u _ _ ra d | .st16 _ _ ra d => some (ra, d, 2)
  | .ld32s _ _ ra d | .ld32u _ _ ra d | .st32 _ _ ra d => some (ra, d, 4)
  | .ld64 _ _ ra d | .st64 _ _ ra d => some (ra, d, 8)
  | _ => none

/-- The same outcome with memory put in place of the next state's. -/
def withMem (m : List Host.Cell) : Result → Result
  | .next t => .next { t with mem := m }
  | .fault f => .fault f
  | .refused r => .refused r

/-- A load. -/
def isLoad : Instr → Bool
  | .ld8s _ _ _ _ | .ld8u _ _ _ _ | .ld16s _ _ _ _ | .ld16u _ _ _ _ => true
  | .ld32s _ _ _ _ | .ld32u _ _ _ _ | .ld64 _ _ _ _ => true
  | _ => false

/-- A store. -/
def isStore : Instr → Bool
  | .st8 _ _ _ _ | .st16 _ _ _ _ | .st32 _ _ _ _ | .st64 _ _ _ _ => true
  | _ => false

/-- A compare: CMP, CMP #, BIT #. -/
def isCompare : Instr → Bool
  | .cmpi _ _ _ _ | .biti _ _ _ _ | .cmp _ _ _ _ => true
  | _ => false

/-- A jump: JMP, JML. -/
def isJump : Instr → Bool
  | .jmp _ _ _ _ | .jml _ _ _ _ => true
  | _ => false

/-! ## Runs and their invariants -/

/-- Steps that complete lead from the first state to the second. -/
inductive Reaches (s : State) : State → Prop where
  | refl : Reaches s s
  | next {t u : State} (h : Reaches s t) (ht : step t = .next u) : Reaches s u

/-- What holds of the machine at every step: memory is canonical, every code address register holds a bundle address (the
program counter, C7, among them), and so do the addresses among the parameters (spec/10_state.md R34, R40). -/
def Inv (s : State) : Prop :=
  Memory.wf s.mem ∧ (∀ c, (readC s c).toNat % 16 = 0) ∧ s.config.Aligned

/-- No bundle that was stored to was fetched or is program text (spec/20_memory.md R77). -/
def TextUntouched (s : State) : Prop :=
  ∀ b, StoredTo s b → b ∉ s.fetchedBundles ∧ ¬ InText s b

end Sys2Proof.Machine
end

