-- ==== Sys2Proof/Certificates/Slice0/Obligations.lean ====
section
/-! DEFINITION. The statements for the provers, from the numbered rules of spec/. Where a clause rests on a decision that
spec/ marks as its own (D<n> of spec/92_eei_decisions.md) or on a choice of the model, the docstring names it and the log entry. -/

open Sys2Proof Sys2Proof.Machine

/-! ## Encoding and decoding -/

/-- Every well-formed instruction, in every slot it may start in, decodes from its own words to itself: no bit of an encoding
is dropped. Rests on decisions D1, D5, D6, D11, D16 (log 6, 9, 13, 16). -/
def Obligations.DecodeEncodeRoundTrip : Prop :=
  ∀ (i : Instr) (k : Slot) (b : Bundle), i.wf = true → i.placeable k = true → holdsWords b k (encode i) →
    decodeSlot b k = .instr i

/-- Words of spec/95_test_vectors.md, one or more of every family, decode to the instruction they stand for. -/
def Obligations.SpecWordsDecode : Prop :=
  decodeTableWord 48 0x00050008401 = some (.addi ⟨0, .pt⟩ 1 0 10) ∧
  decodeTableWord 48 0x00050008403 = some (.addi ⟨0, .pne⟩ 1 0 10) ∧
  decodeTableWord 48 0x02C10218201 = some (.andcm ⟨0, .pt⟩ 3 1 2) ∧
  decodeTableWord 48 0x01810208201 = some (.cmp ⟨0, .pt⟩ 1 1 2) ∧
  decodeTableWord 48 0x00400210701 = some (.biti ⟨0, .pt⟩ 2 1 0x80) ∧
  decodeTableWord 48 0x0008000C001 = some (.movi ⟨0, .pt⟩ 1 0x2000) ∧
  decodeTableWord 48 0x00000044E01 = some (.jmp ⟨0, .pt⟩ 0 1 0) ∧
  decodeTableWord 82 (0x0004000CF01 + 0x00000000100 * 2 ^ 41) = some (.jml ⟨0, .pt⟩ 1 0 0x10000200) ∧
  decodeTableWord 48 0x1FFC021D601 = some (.ld64 ⟨0, .pt⟩ 3 1 0x3FF8) ∧
  decodeTableWord 48 0x090103C6301 = some (.st64 ⟨0, .pt⟩ 2 1 0x1238) ∧
  decodeTableWord 48 0x00000000090 = some .nop

/-- Every format: in whatever slot an instruction is read from, each operand is the field that the format gives it, the predicate
byte is bits 7:0, and the constant fields have the format's values; a word that is an instruction's but for an unused field names
that instruction's operands (log 14). A NOP is a one-slot word with condition 0. JML's high address part is decision D11 (log 13), the
decimal opcodes 78 and 79 decision D1 (log 6), the displacements' and operands' roles D4 (log 8), the NOP D16 (log 16). -/
def Obligations.DecodedFieldsAreTheFormats : Prop :=
  ∀ (b : Bundle) (k : Slot) (i : Instr), decodeSlot b k = .instr i ∨ decodeSlot b k = .spare i →
    let w := slotWord b k
    let w2 := slotWord b (k + 1 : Nat)
    let pred (p : Pred) : Prop := p.reg = (w.extractLsb' 4 4).toFin ∧ p.cond.bits = w.extractLsb' 0 4
    let rt (r : Gpr) : Prop := r = (w.extractLsb' 15 6).toFin
    let ra (r : Gpr) : Prop := r = (w.extractLsb' 21 6).toFin
    let rb (r : Gpr) : Prop := r = (w.extractLsb' 27 6).toFin
    let pt (q : PredReg) : Prop := q = (w.extractLsb' 15 4).toFin
    match i with
    | .addi p t a imm | .andi p t a imm | .ori p t a imm | .eori p t a imm =>
      pred p ∧ rt t ∧ ra a ∧ imm = w.extractLsb' 27 14
    | .cmpi p q a imm | .biti p q a imm => pred p ∧ pt q ∧ ra a ∧ imm = w.extractLsb' 27 14
    | .add p t a c | .sub p t a c | .and p t a c | .or p t a c | .eor p t a c | .andcm p t a c | .nand p t a c
    | .nor p t a c | .enor p t a c => pred p ∧ w.extractLsb' 8 7 = 2#7 ∧ rt t ∧ ra a ∧ rb c
    | .cmp p q a c => pred p ∧ w.extractLsb' 8 7 = 2#7 ∧ w.extractLsb' 34 7 = 6#7 ∧ pt q ∧ ra a ∧ rb c
    | .movi p t imm =>
      pred p ∧ w.extractLsb' 11 4 = 8#4 ∧ rt t ∧ imm = w2 ++ w.extractLsb' 21 20 ++ w.extractLsb' 8 3
    | .ld8s p t a d | .ld8u p t a d | .ld16s p t a d | .ld16u p t a d | .ld32s p t a d | .ld32u p t a d
    | .ld64 p t a d => pred p ∧ w.extractLsb' 12 3 = 5#3 ∧ rt t ∧ ra a ∧ d = w.extractLsb' 27 14
    | .st8 p c a d | .st16 p c a d | .st32 p c a d | .st64 p c a d =>
      pred p ∧ w.extractLsb' 12 3 = 6#3 ∧ rb c ∧ ra a ∧ d = w.extractLsb' 33 8 ++ w.extractLsb' 15 6
    | .jmp p ct ca addr =>
      pred p ∧ w.extractLsb' 8 7 = 78#7 ∧ ct = (w.extractLsb' 15 3).toFin ∧ ca = (w.extractLsb' 18 3).toFin ∧
        addr = w.extractLsb' 21 20
    | .jml p ct ca addr =>
      pred p ∧ w.extractLsb' 8 7 = 79#7 ∧ k = 0 ∧ ct = (w.extractLsb' 15 3).toFin ∧ ca = (w.extractLsb' 18 3).toFin ∧
        addr = w2.extractLsb' 0 40 ++ w.extractLsb' 21 20
    | .nop => w.extractLsb' 0 4 = 0#4 ∧ w.extractLsb' 11 4 ≠ 8#4 ∧ w.extractLsb' 8 7 ≠ 79#7

/-- Format RI (R97): which bits of a slot are the fields of ADD #, AND #, OR # and EOR #. The opcode numbers are decimal
(decision D1, log 6), which only EOR #'s depends on. -/
def Obligations.ImmediateFormatDecodes : Prop :=
  ∀ (b : Bundle) (k : Slot) (p : Pred), p.wf = true → (slotWord b k).extractLsb' 0 8 = p.bits →
    let w := slotWord b k
    let rt : Gpr := (w.extractLsb' 15 6).toFin
    let ra : Gpr := (w.extractLsb' 21 6).toFin
    let imm := w.extractLsb' 27 14
    (w.extractLsb' 8 7 = 4#7 → decodeSlot b k = .instr (.addi p rt ra imm)) ∧
    (w.extractLsb' 8 7 = 8#7 → decodeSlot b k = .instr (.andi p rt ra imm)) ∧
    (w.extractLsb' 8 7 = 9#7 → decodeSlot b k = .instr (.ori p rt ra imm)) ∧
    (w.extractLsb' 8 7 = 10#7 → decodeSlot b k = .instr (.eori p rt ra imm))

/-- Format CI (R99): which bits of a slot are the fields of CMP # and BIT #, and that they need bits 20:19 zero: else the word is
illegal where its predicate test passes and names the same operands (R115, decision D18, log 14), or a NOP under condition 0 (R118,
log 16). -/
def Obligations.CompareImmediateFormatDecodes : Prop :=
  ∀ (b : Bundle) (k : Slot) (p : Pred), p.wf = true → (slotWord b k).extractLsb' 0 8 = p.bits →
    let w := slotWord b k
    let pt : PredReg := (w.extractLsb' 15 4).toFin
    let ra : Gpr := (w.extractLsb' 21 6).toFin
    let imm := w.extractLsb' 27 14
    let reads (i : Instr) : Decoded :=
      if w.extractLsb' 19 2 = 0 then .instr i else if p.cond = .pf then .instr .nop else .spare i
    (w.extractLsb' 8 7 = 6#7 → decodeSlot b k = reads (.cmpi p pt ra imm)) ∧
    (w.extractLsb' 8 7 = 7#7 → decodeSlot b k = reads (.biti p pt ra imm))

/-- Formats R2 and CR and the function map (R98, R100, R113): which bits are the fields, which `func7` is which instruction,
that every other function is reserved, its word keeping the R2 operands (log 14), and that a listed function needs bit 33, and CMP bits 20:19, zero: else the word is illegal
where its predicate test passes and names the same operands (R115, decision D18, log 14), or a NOP under condition 0 (R118, log 16).
Decision D1 (log 6): the numbers are decimal. -/
def Obligations.RegisterFormatsDecode : Prop :=
  ∀ (b : Bundle) (k : Slot) (p : Pred), p.wf = true → (slotWord b k).extractLsb' 0 8 = p.bits →
    (slotWord b k).extractLsb' 8 7 = 2#7 →
    let w := slotWord b k
    let rt : Gpr := (w.extractLsb' 15 6).toFin
    let ra : Gpr := (w.extractLsb' 21 6).toFin
    let rb : Gpr := (w.extractLsb' 27 6).toFin
    let pt : PredReg := (w.extractLsb' 15 4).toFin
    let f := (w.extractLsb' 34 7).toNat
    let orNop (d : Decoded) : Decoded := if p.cond = .pf then .instr .nop else d
    let reads (i : Instr) : Decoded := if w.extractLsb' 33 1 = 0 then .instr i else orNop (.spare i)
    (f = 4 → decodeSlot b k = reads (.add p rt ra rb)) ∧
    (f = 5 → decodeSlot b k = reads (.sub p rt ra rb)) ∧
    (f = 6 → decodeSlot b k =
      if w.extractLsb' 33 1 = 0 ∧ w.extractLsb' 19 2 = 0 then .instr (.cmp p pt ra rb) else orNop (.spare (.cmp p pt ra rb))) ∧
    (f = 8 → decodeSlot b k = reads (.and p rt ra rb)) ∧
    (f = 9 → decodeSlot b k = reads (.or p rt ra rb)) ∧
    (f = 10 → decodeSlot b k = reads (.eor p rt ra rb)) ∧
    (f = 11 → decodeSlot b k = reads (.andcm p rt ra rb)) ∧
    (f = 12 → decodeSlot b k = reads (.nand p rt ra rb)) ∧
    (f = 13 → decodeSlot b k = reads (.nor p rt ra rb)) ∧
    (f = 14 → decodeSlot b k = reads (.enor p rt ra rb)) ∧
    (f ≤ 3 ∨ f = 7 ∨ 15 ≤ f → decodeSlot b k = orNop (.unlisted p (.function rt ra rb)))

/-- Format MV (R103, R109): MOVI in slots 0 and 1, and its 64-bit immediate out of both words. -/
def Obligations.MoviFormatDecodes : Prop :=
  ∀ (b : Bundle) (k : Slot) (p : Pred), p.wf = true → (slotWord b k).extractLsb' 0 8 = p.bits → k ≠ 2 →
    let w := slotWord b k
    let w2 := slotWord b (k + 1 : Nat)
    w.extractLsb' 11 4 = 8#4 →
    ∃ imm : Word, decodeSlot b k = .instr (.movi p (w.extractLsb' 15 6).toFin imm) ∧
      imm.extractLsb' 23 41 = w2 ∧ imm.extractLsb' 3 20 = w.extractLsb' 21 20 ∧ imm.extractLsb' 0 3 = w.extractLsb' 8 3

/-- Format JM and the offset of JMP (R104, R110): sixteen times the 20-bit field, so 0 to 0xFFFFF0 in steps of 16. -/
def Obligations.JmpFormatDecodes : Prop :=
  ∀ (b : Bundle) (k : Slot) (p : Pred), p.wf = true → (slotWord b k).extractLsb' 0 8 = p.bits →
    let w := slotWord b k
    w.extractLsb' 8 7 = 78#7 →
    decodeSlot b k = .instr (.jmp p (w.extractLsb' 15 3).toFin (w.extractLsb' 18 3).toFin (w.extractLsb' 21 20)) ∧
    (jmpOffset (w.extractLsb' 21 20)).toNat = 16 * (w.extractLsb' 21 20).toNat ∧
    (jmpOffset (w.extractLsb' 21 20)).toNat ≤ 0xFFFFF0

/-- Format JL and the offset of JML in slot 0: bits 39:0 of the second word above bits 40:21 of the first, bit 40 zero; with
bit 40 set the word is illegal where its predicate test passes, and names the same operands. Rests on decision D11 (log 13) and, for a
set bit 40, on D18 (log 14). -/
def Obligations.JmlFormatDecodes : Prop :=
  ∀ (b : Bundle) (p : Pred), p.wf = true → (slotWord b 0).extractLsb' 0 8 = p.bits →
    let w := slotWord b 0
    let w2 := slotWord b 1
    w.extractLsb' 8 7 = 79#7 →
    (w2.extractLsb' 40 1 = 0 → ∃ addr : BitVec 60,
      decodeSlot b 0 = .instr (.jml p (w.extractLsb' 15 3).toFin (w.extractLsb' 18 3).toFin addr) ∧
      (jmlOffset addr).toNat = (w2.toNat * 2 ^ 20 + (w.extractLsb' 21 20).toNat) * 16) ∧
    (w2.extractLsb' 40 1 ≠ 0 → decodeSlot b 0 = .spare (.jml p (w.extractLsb' 15 3).toFin (w.extractLsb' 18 3).toFin
      (w2.extractLsb' 0 40 ++ w.extractLsb' 21 20)))

/-- Formats LD and ST: the fields, the split displacement of a store, and the `Func4` tables; a word with a reserved `Func4` keeps the
format's registers (log 14). The tables are decisions D5 and
D6 (log 9), the fields' roles decision D4 (log 8). -/
def Obligations.LoadStoreFormatsDecode : Prop :=
  ∀ (b : Bundle) (k : Slot) (p : Pred), p.wf = true → (slotWord b k).extractLsb' 0 8 = p.bits →
    let w := slotWord b k
    let rt : Gpr := (w.extractLsb' 15 6).toFin
    let ra : Gpr := (w.extractLsb' 21 6).toFin
    let rb : Gpr := (w.extractLsb' 27 6).toFin
    let ld := w.extractLsb' 27 14
    let st := w.extractLsb' 33 8 ++ w.extractLsb' 15 6
    let f := (w.extractLsb' 8 4).toNat
    let orNop (d : Decoded) : Decoded := if p.cond = .pf then .instr .nop else d
    (w.extractLsb' 12 3 = 5#3 →
      (f = 0 → decodeSlot b k = .instr (.ld8s p rt ra ld)) ∧ (f = 1 → decodeSlot b k = .instr (.ld8u p rt ra ld)) ∧
      (f = 2 → decodeSlot b k = .instr (.ld16s p rt ra ld)) ∧ (f = 3 → decodeSlot b k = .instr (.ld16u p rt ra ld)) ∧
      (f = 4 → decodeSlot b k = .instr (.ld32s p rt ra ld)) ∧ (f = 5 → decodeSlot b k = .instr (.ld32u p rt ra ld)) ∧
      (f = 6 → decodeSlot b k = .instr (.ld64 p rt ra ld)) ∧ (7 ≤ f → decodeSlot b k = orNop (.unlisted p (.load rt ra)))) ∧
    (w.extractLsb' 12 3 = 6#3 →
      (f = 0 → decodeSlot b k = .instr (.st8 p rb ra st)) ∧ (f = 1 → decodeSlot b k = .instr (.st16 p rb ra st)) ∧
      (f = 2 → decodeSlot b k = .instr (.st32 p rb ra st)) ∧ (f = 3 → decodeSlot b k = .instr (.st64 p rb ra st)) ∧
      (4 ≤ f → decodeSlot b k = orNop (.unlisted p (.store rb ra))))

/-- A reserved opcode is no instruction: illegal where the predicate test passes, a NOP under condition 0. Decisions D1, D16,
D19 (log 6, 14, 16). -/
def Obligations.ReservedOpcodesAreNoInstruction : Prop :=
  ∀ (b : Bundle) (k : Slot) (p : Pred), p.wf = true → (slotWord b k).extractLsb' 0 8 = p.bits →
    let op := ((slotWord b k).extractLsb' 8 7).toNat
    (op ≤ 1 ∨ op = 3 ∨ op = 5 ∨ (11 ≤ op ∧ op ≤ 63) ∨ (72 ≤ op ∧ op ≤ 77) ∨ 112 ≤ op) →
    decodeSlot b k = if p.cond = .pf then .instr .nop else .unlisted p .opcode

/-- MOVI in slot 2 and JML in slot 1 or 2 are illegal whatever their predicate byte. Decision D12 (log 14). -/
def Obligations.MisplacedTwoSlotWordsAreIllegal : Prop :=
  ∀ (b : Bundle) (k : Slot),
    ((slotWord b k).extractLsb' 11 4 = 8#4 ∧ k = 2) ∨ ((slotWord b k).extractLsb' 8 7 = 79#7 ∧ k ≠ 0) →
    decodeSlot b k = .illegal .placement

/-- Conditions 12 to 15, and condition 1 with a register other than 0, are illegal in every word. Decisions D14, D15 (log 14). -/
def Obligations.ReservedPredicateBytesAreIllegal : Prop :=
  ∀ (b : Bundle) (k : Slot),
    let cond := ((slotWord b k).extractLsb' 0 4).toNat
    let reg := ((slotWord b k).extractLsb' 4 4).toNat
    12 ≤ cond ∨ (cond = 1 ∧ reg ≠ 0) → ∃ r, decodeSlot b k = .illegal r

/-- The bundle is the 16 bytes from its address up, little-endian: bit `j` is bit `j mod 8` of byte `j / 8`. Decision D2 (log 7). -/
def Obligations.FetchedBundleBits : Prop :=
  ∀ (m : List Host.Cell) (a : Word) (j : Nat), j < 128 →
    (bundleAt m a).getLsbD j = (readCell m (a + BitVec.ofNat 64 (j / 8)).toNat).getLsbD (j % 8)

/-! ## Predicates -/

/-- The predicate test of every condition (R38), the codes of the conditions, and that 12 to 15 are reserved: no condition has
them. -/
def Obligations.PredicateConditions : Prop :=
  (∀ f : Flags,
    predTest .pf f = false ∧ predTest .pt f = true ∧ predTest .peq f = f.eq ∧ predTest .pne f = !f.eq ∧
    predTest .ple f = (f.lt || f.eq) ∧ predTest .pgt f = !(f.lt || f.eq) ∧ predTest .pge f = !f.lt ∧
    predTest .plt f = f.lt ∧ predTest .pleu f = (f.ltu || f.eq) ∧ predTest .pgtu f = !(f.ltu || f.eq) ∧
    predTest .pgeu f = !f.ltu ∧ predTest .pltu f = f.ltu ∧
    f.bits.getLsbD 0 = f.eq ∧ f.bits.getLsbD 1 = f.lt ∧ f.bits.getLsbD 2 = f.ltu) ∧
  (∀ c : Cond, Cond.ofBits c.bits = some c) ∧
  (∀ (n : Nat) (h : n < 12),
    Cond.ofBits (BitVec.ofNat 4 n) =
      some [Cond.pf, .pt, .peq, .pne, .ple, .pgt, .pge, .plt, .pleu, .pgtu, .pgeu, .pltu][n]) ∧
  (∀ n, 12 ≤ n → n < 16 → Cond.ofBits (BitVec.ofNat 4 n) = none)

/-- An instruction whose predicate test fails only advances, by its own length. Decisions D13, D34 (log 15, 28). -/
def Obligations.FailedPredicateOnlyAdvances : Prop :=
  ∀ (i : Instr) (s : State), ¬ Passes i.pred s → GivesNothing (exec i s) s i.slots

/-- What writes and what reads the predicate registers (R37): a compare that executes writes all three flags of one register,
whatever flags the predicate registers held before, and no other register; no other instruction writes one; and the flags reach the
other registers, memory, the position and a fault only through the predicate test. -/
def Obligations.PredicateRegisterTraffic : Prop :=
  (∀ (i : Instr) (s : State), isCompare i = true →
    ∃ (pt : PredReg) (f : Flags), ∀ ps : Vector Flags 16, Passes i.pred { s with preds := ps } →
      NamesDest i (.pred pt) ∧ ∃ t, exec i { s with preds := ps } = .next t ∧ WroteP { s with preds := ps } t pt f) ∧
  (∀ (i : Instr) (s t : State), exec i s = .next t → isCompare i = false → SameP s t) ∧
  (∀ (i : Instr) (s : State) (ps : Vector Flags 16),
    predTest i.pred.cond (readP { s with preds := ps } i.pred.reg) = predTest i.pred.cond (readP s i.pred.reg) →
    (∀ t, exec i s = .next t → ∃ t', exec i { s with preds := ps } = .next t' ∧ SameX t t' ∧ SameC t t' ∧ SameMem t t' ∧
      t'.pc = t.pc ∧ t'.slot = t.slot) ∧
    ∀ f, exec i s = .fault f → exec i { s with preds := ps } = .fault f)

/-! ## Arithmetic and logical -/

/-- The four immediate forms, `OVF_ENABLE` whatever it is. Sign extension is decision D3 (log 8); the operations of AND #, OR #,
EOR # are decision D38 (log 29); that ADD # never raises is decision D37 (log 18). -/
def Obligations.ImmediateFormResults : Prop :=
  ∀ (p : Pred) (rt ra : Gpr) (imm : BitVec 14) (s : State), Passes p s →
    GivesX (exec (.addi p rt ra imm) s) s 1 rt (readX s ra + imm.signExtend 64) ∧
    GivesX (exec (.andi p rt ra imm) s) s 1 rt (readX s ra &&& imm.signExtend 64) ∧
    GivesX (exec (.ori p rt ra imm) s) s 1 rt (readX s ra ||| imm.signExtend 64) ∧
    GivesX (exec (.eori p rt ra imm) s) s 1 rt (readX s ra ^^^ imm.signExtend 64)

/-- AND (R195): its function code, its operation, and the rule's example word and value. The discarded target and the frame are
in AndResult. -/
def Obligations.AndOperation : Prop :=
  (∀ (p : Pred) (rt ra rb : Gpr) (s : State), Passes p s →
    ∃ t, exec (.and p rt ra rb) s = .next t ∧ (rt ≠ 0 → readX t rt = readX s ra &&& readX s rb)) ∧
  (∀ (b : Bundle) (k : Slot) (p : Pred), p.wf = true → (slotWord b k).extractLsb' 0 8 = p.bits →
    let w := slotWord b k
    w.extractLsb' 8 7 = 2#7 → w.extractLsb' 33 1 = 0 → w.extractLsb' 34 7 = 8#7 → decodeSlot b k =
      .instr (.and p (w.extractLsb' 15 6).toFin (w.extractLsb' 21 6).toFin (w.extractLsb' 27 6).toFin)) ∧
  decodeTableWord 48 0x02010218201 = some (.and ⟨0, .pt⟩ 3 1 2) ∧
  (0x00FF00FF00FF00FF : Word) &&& 0x0F0F0F0F0F0F0F0F = 0x000F000F000F000F

/-- AND, and what it leaves unchanged. That a write to `x[0]` is discarded and the advance are inferences that spec/ marks (R21,
R150). -/
def Obligations.AndResult : Prop :=
  ∀ (p : Pred) (rt ra rb : Gpr) (s : State), Passes p s →
    GivesX (exec (.and p rt ra rb) s) s 1 rt (readX s ra &&& readX s rb)

/-- OR, EOR, ANDCM, NAND, NOR, ENOR. The operations are those of the mnemonics (decision D38, log 29). -/
def Obligations.LogicalRegisterResults : Prop :=
  ∀ (p : Pred) (rt ra rb : Gpr) (s : State), Passes p s →
    GivesX (exec (.or p rt ra rb) s) s 1 rt (readX s ra ||| readX s rb) ∧
    GivesX (exec (.eor p rt ra rb) s) s 1 rt (readX s ra ^^^ readX s rb) ∧
    GivesX (exec (.andcm p rt ra rb) s) s 1 rt (readX s ra &&& ~~~(readX s rb)) ∧
    GivesX (exec (.nand p rt ra rb) s) s 1 rt (~~~(readX s ra &&& readX s rb)) ∧
    GivesX (exec (.nor p rt ra rb) s) s 1 rt (~~~(readX s ra ||| readX s rb)) ∧
    GivesX (exec (.enor p rt ra rb) s) s 1 rt (~~~(readX s ra ^^^ readX s rb))

/-- ADD: the sum modulo 2^64 in the target (R192), unless `OVF_ENABLE` is true and the addition overflows: then the exception is
taken and the target is not written. When it raises is decision D20 with K2 (log 18); the vector and what C6 holds are decisions D21
and D41 (log 19); that the handler goes on in the running group is the model's reading of R156 (DEDUCED, log 17). -/
def Obligations.AddResult : Prop :=
  ∀ (p : Pred) (rt ra rb : Gpr) (s : State), Passes p s →
    (s.config.ovfEnable = false ∨ addOverflow (readX s ra) (readX s rb) = false →
      GivesX (exec (.add p rt ra rb) s) s 1 rt (readX s ra + readX s rb)) ∧
    (s.config.ovfEnable = true → addOverflow (readX s ra) (readX s rb) = true →
      TakesException (exec (.add p rt ra rb) s) s .integerOverflow)

/-- SUB: the difference, or the exception. `Ra - Rb` is decision D38 (log 29); that and when it raises are decisions D20 and D22 with
K2 (log 18); the vector and what C6 holds are decisions D21 and D41 (log 19); that the handler goes on in the running group is the
model's reading of R156 (DEDUCED, log 17). -/
def Obligations.SubResult : Prop :=
  ∀ (p : Pred) (rt ra rb : Gpr) (s : State), Passes p s →
    (s.config.ovfEnable = false ∨ subOverflow (readX s ra) (readX s rb) = false →
      GivesX (exec (.sub p rt ra rb) s) s 1 rt (readX s ra - readX s rb)) ∧
    (s.config.ovfEnable = true → subOverflow (readX s ra) (readX s rb) = true →
      TakesException (exec (.sub p rt ra rb) s) s .integerOverflow)

/-- Signed overflow is a result outside -2^63 to 2^63 - 1. The definition is general knowledge that spec/ marks (K2; log 18). -/
def Obligations.OverflowIsOutOfRange : Prop :=
  ∀ a b : Word,
    (addOverflow a b = true ↔ a.toInt + b.toInt < -2 ^ 63 ∨ 2 ^ 63 ≤ a.toInt + b.toInt) ∧
    (subOverflow a b = true ↔ a.toInt - b.toInt < -2 ^ 63 ∨ 2 ^ 63 ≤ a.toInt - b.toInt)

/-- MOVI: the 64-bit immediate in the target, two slots on. Decision D36 (log 29). -/
def Obligations.MoviResult : Prop :=
  ∀ (p : Pred) (rt : Gpr) (imm : Word) (s : State), Passes p s → GivesX (exec (.movi p rt imm) s) s 2 rt imm

/-- NOP completes everywhere and only advances one slot. Decision D16 (log 16). -/
def Obligations.NopOnlyAdvances : Prop :=
  ∀ s : State, GivesNothing (exec .nop s) s 1

/-- Register 0 and C0 read as zero and C7 reads as the program counter in every state. C7 as the current bundle's address is
decision D9 (log 11). -/
def Obligations.HardwiredRegisters : Prop :=
  ∀ s : State, readX s 0 = 0 ∧ readC s 0 = 0 ∧ readC s 7 = s.pc

/-! ## Compares -/

/-- CMP and CMP #: the three flags, by the integers the operands stand for. The operand order is decision D7 (log 10), the sign
extension decision D3 (log 8). -/
def Obligations.CompareResults : Prop :=
  ∀ (p : Pred) (pt : PredReg) (ra rb : Gpr) (imm : BitVec 14) (s : State), Passes p s →
    let flags (a b : Word) : Flags := ⟨decide (a = b), decide (a.toInt < b.toInt), decide (a.toNat < b.toNat)⟩
    GivesP (exec (.cmp p pt ra rb) s) s pt (flags (readX s ra) (readX s rb)) ∧
    GivesP (exec (.cmpi p pt ra imm) s) s pt (flags (readX s ra) (imm.signExtend 64))

/-- BIT #: the masked value compared with zero. The whole operation is decision D8 (log 10). -/
def Obligations.BitTestResult : Prop :=
  ∀ (p : Pred) (pt : PredReg) (ra : Gpr) (imm : BitVec 14) (s : State), Passes p s →
    let v := readX s ra &&& imm.signExtend 64
    GivesP (exec (.biti p pt ra imm) s) s pt ⟨decide (v = 0), v.msb, false⟩

/-- A compare never sets `eq` together with `lt` or `ltu`. Rests on decision D7's flags (log 10). -/
def Obligations.CompareFlagsExclude : Prop :=
  ∀ a b : Word, (cmpFlags a b).eq = true → (cmpFlags a b).lt = false ∧ (cmpFlags a b).ltu = false

/-! ## Jumps -/

/-- JMP: the target from the old `C[Ca]` (decision D42, log 30), `C[Ct] <- pc + 16`, slot 0 next (decision D10, log 12), and a new
group (decision D17, log 17). -/
def Obligations.JmpResult : Prop :=
  ∀ (p : Pred) (ct ca : CodeReg) (addr : BitVec 20) (s : State), Passes p s →
    let target := readC s ca + BitVec.ofNat 64 (16 * addr.toNat)
    target.toNat % 16 = 0 → GivesJump (exec (.jmp p ct ca addr) s) s ct target

/-- JML: as JMP with a 64-bit offset (decisions D10, D17, D42; log 12, 17, 30). -/
def Obligations.JmlResult : Prop :=
  ∀ (p : Pred) (ct ca : CodeReg) (addr : BitVec 60) (s : State), Passes p s →
    let target := readC s ca + BitVec.ofNat 64 (16 * addr.toNat)
    target.toNat % 16 = 0 → GivesJump (exec (.jml p ct ca addr) s) s ct target

/-- A jump whose target is no bundle address stops with `MisalignedTarget`: exactly when `C[Ca]` is none. Decision D24 (log 21). -/
def Obligations.MisalignedJumpFaults : Prop :=
  ∀ (p : Pred) (ct ca : CodeReg) (s : State), Passes p s → (readC s ca).toNat % 16 ≠ 0 →
    (∀ addr : BitVec 20, exec (.jmp p ct ca addr) s = .fault (.misalignedTarget (readC s ca + jmpOffset addr))) ∧
    (∀ addr : BitVec 60, exec (.jml p ct ca addr) s = .fault (.misalignedTarget (readC s ca + jmlOffset addr)))

/-- After an overflow of ADD or SUB taken to a vector, `JMP C0, C6, 0` goes back to the bundle of the faulting instruction and writes
nothing else. That and when each raises are decisions D20 and D22 with K2 (log 18), the vector and what C6 holds decisions D21 and D41
(log 19), the new group after the jump decision D17 (log 17). -/
def Obligations.ReturnFromOverflowTrap : Prop :=
  ∀ (p q : Pred) (rt ra rb : Gpr) (s t : State) (v : Word), s.pc.toNat % 16 = 0 → Passes p s →
    s.config.ovfEnable = true → s.config.trapVector = some v →
    (addOverflow (readX s ra) (readX s rb) = true ∧ exec (.add p rt ra rb) s = .next t) ∨
      (subOverflow (readX s ra) (readX s rb) = true ∧ exec (.sub p rt ra rb) s = .next t) →
    Passes q t →
    t.pc = v ∧ t.slot.val = 0 ∧ SameX s t ∧ GivesJump (exec (.jmp q 0 6 0) t) t 0 s.pc

/-- Code address registers are written by JMP, JML and the taking of an exception only. SUB's exception is decision D22, the value
of C6 decision D41 (log 18, 19). -/
def Obligations.CodeRegisterWriters : Prop :=
  ∀ (i : Instr) (s t : State), exec i s = .next t → isJump i = false →
    SameC s t ∨ (WroteC s t 6 s.pc ∧ s.config.ovfEnable = true ∧
      ((∃ p rt ra rb, i = .add p rt ra rb) ∨ ∃ p rt ra rb, i = .sub p rt ra rb))

/-- JMP, JML, CMP, CMP #, BIT # and the stores write no general register. That a store leaves its base register alone is decision D4
(log 8). -/
def Obligations.NoGeneralRegisterWritten : Prop :=
  ∀ (i : Instr) (s t : State), exec i s = .next t → isJump i = true ∨ isCompare i = true ∨ isStore i = true → SameX s t

/-! ## Loads and stores -/

/-- LD8S and LD8U. The `Func4` names are decision D5, the address decision D4 (log 8, 9). -/
def Obligations.LoadByteResults : Prop :=
  ∀ (p : Pred) (rt ra : Gpr) (d : BitVec 14) (s : State), Passes p s →
    let ea := readX s ra + d.signExtend 64
    InMapFor s ea 1 →
    GivesX (exec (.ld8s p rt ra d) s) s 1 rt ((byteAt s ea).signExtend 64) ∧
    GivesX (exec (.ld8u p rt ra d) s) s 1 rt ((byteAt s ea).setWidth 64)

/-- LD16S and LD16U, little-endian. Decisions D2, D4, D5, D23 (log 7, 8, 9, 20). -/
def Obligations.LoadHalfResults : Prop :=
  ∀ (p : Pred) (rt ra : Gpr) (d : BitVec 14) (s : State), Passes p s →
    let ea := readX s ra + d.signExtend 64
    let v := byteAt s (ea + 1) ++ byteAt s ea
    AlignedFor s ea 2 → InMapFor s ea 2 →
    GivesX (exec (.ld16s p rt ra d) s) s 1 rt (v.signExtend 64) ∧
    GivesX (exec (.ld16u p rt ra d) s) s 1 rt (v.setWidth 64)

/-- LD32S and LD32U, little-endian. Decisions D2, D4, D5, D23 (log 7, 8, 9, 20). -/
def Obligations.LoadWordResults : Prop :=
  ∀ (p : Pred) (rt ra : Gpr) (d : BitVec 14) (s : State), Passes p s →
    let ea := readX s ra + d.signExtend 64
    let v := byteAt s (ea + 3) ++ byteAt s (ea + 2) ++ byteAt s (ea + 1) ++ byteAt s ea
    AlignedFor s ea 4 → InMapFor s ea 4 →
    GivesX (exec (.ld32s p rt ra d) s) s 1 rt (v.signExtend 64) ∧
    GivesX (exec (.ld32u p rt ra d) s) s 1 rt (v.setWidth 64)

/-- LD64, little-endian. Decisions D2, D4, D5, D23 (log 7, 8, 9, 20). -/
def Obligations.LoadDoubleResult : Prop :=
  ∀ (p : Pred) (rt ra : Gpr) (d : BitVec 14) (s : State), Passes p s →
    let ea := readX s ra + d.signExtend 64
    AlignedFor s ea 8 → InMapFor s ea 8 →
    GivesX (exec (.ld64 p rt ra d) s) s 1 rt
      (byteAt s (ea + 7) ++ byteAt s (ea + 6) ++ byteAt s (ea + 5) ++ byteAt s (ea + 4) ++ byteAt s (ea + 3) ++
        byteAt s (ea + 2) ++ byteAt s (ea + 1) ++ byteAt s ea)

/-- The four stores: the low bytes of `x[Rb]` at the effective address, every other byte and every register unchanged.
Decisions D2, D4, D6, D23, D26 (log 7, 8, 9, 20, 23); what is code is in `NotCode`. -/
def Obligations.StoreResults : Prop :=
  ∀ (p : Pred) (rb ra : Gpr) (d : BitVec 14) (s : State), Passes p s →
    let ea := effAddr s ra d
    let ready (n : Nat) : Prop := AlignedFor s ea n ∧ InMapFor s ea n ∧ NotCode s ea n
    ea = readX s ra + d.signExtend 64 ∧
    (ready 1 → GivesMem (exec (.st8 p rb ra d) s) s ea 1 (readX s rb)) ∧
    (ready 2 → GivesMem (exec (.st16 p rb ra d) s) s ea 2 (readX s rb)) ∧
    (ready 4 → GivesMem (exec (.st32 p rb ra d) s) s ea 4 (readX s rb)) ∧
    (ready 8 → GivesMem (exec (.st64 p rb ra d) s) s ea 8 (readX s rb))

/-- A load or a store whose address is no multiple of its width stops with `MisalignedAccess` under `MISALIGN_POLICY` fault,
before the memory map is looked at. Decisions D19, D23 (log 20, 35). -/
def Obligations.MisalignedDataAccessFaults : Prop :=
  ∀ (i : Instr) (s : State) (ra : Gpr) (d : BitVec 14) (n : Nat), dataAccess i = some (ra, d, n) → Passes i.pred s →
    s.config.misalignPolicy = .fault → (effAddr s ra d).toNat % n ≠ 0 →
    exec i s = .fault (.misalignedAccess (effAddr s ra d))

/-- A load or a store with a byte outside `MEM_MAP` stops with `AccessFault`. Decision D33 (log 5, 35). -/
def Obligations.UnmappedDataAccessFaults : Prop :=
  ∀ (i : Instr) (s : State) (ra : Gpr) (d : BitVec 14) (n : Nat), dataAccess i = some (ra, d, n) → Passes i.pred s →
    AlignedFor s (effAddr s ra d) n → ¬ InMapFor s (effAddr s ra d) n →
    exec i s = .fault (.accessFault (effAddr s ra d) (if isStore i then .storeOutsideMap else .loadOutsideMap))

/-- A store that would write a byte of a bundle fetched before, or of one the launch declares program text, stops with `AccessFault`
"store to code" (decision D26, log 23). That the fault names the access's first address, also where only a later byte is code, and
that the memory map is looked at first, are the model's (DESIGN CHOICE, DEDUCED; log 35). -/
def Obligations.StoreToCodeFaults : Prop :=
  ∀ (i : Instr) (s : State) (ra : Gpr) (d : BitVec 14) (n : Nat), dataAccess i = some (ra, d, n) → isStore i = true →
    Passes i.pred s → AlignedFor s (effAddr s ra d) n → InMapFor s (effAddr s ra d) n → ¬ NotCode s (effAddr s ra d) n →
    exec i s = .fault (.accessFault (effAddr s ra d) .storeToCode)

/-- What a store wrote, either load of the same width at the same address reads back, extended. Decisions D2, D4 to D6 (log 7, 8,
9). -/
def Obligations.StoreThenLoad : Prop :=
  ∀ (p q : Pred) (rb ra rt rc : Gpr) (d e : BitVec 14) (s t u : State), Passes p s → Passes q t → rt ≠ 0 →
    effAddr t rc e = effAddr s ra d →
    (exec (.st8 p rb ra d) s = .next t →
      (exec (.ld8u q rt rc e) t = .next u → readX u rt = ((readX s rb).setWidth 8).setWidth 64) ∧
      (exec (.ld8s q rt rc e) t = .next u → readX u rt = ((readX s rb).setWidth 8).signExtend 64)) ∧
    (exec (.st16 p rb ra d) s = .next t →
      (exec (.ld16u q rt rc e) t = .next u → readX u rt = ((readX s rb).setWidth 16).setWidth 64) ∧
      (exec (.ld16s q rt rc e) t = .next u → readX u rt = ((readX s rb).setWidth 16).signExtend 64)) ∧
    (exec (.st32 p rb ra d) s = .next t →
      (exec (.ld32u q rt rc e) t = .next u → readX u rt = ((readX s rb).setWidth 32).setWidth 64) ∧
      (exec (.ld32s q rt rc e) t = .next u → readX u rt = ((readX s rb).setWidth 32).signExtend 64)) ∧
    (exec (.st64 p rb ra d) s = .next t → exec (.ld64 q rt rc e) t = .next u → readX u rt = readX s rb)

/-- What reaches memory (R61): the fetch reads 16 bytes, a load reads the bytes of its width, a store writes the bytes of its
width, and no other instruction's outcome depends on memory or changes it. The address is decision D4 (log 8). -/
def Obligations.OnlyFetchLoadStoreTouchMemory : Prop :=
  (∀ (m m' : List Host.Cell) (a : Word),
    (∀ k < 16, readCell m' (a + BitVec.ofNat 64 k).toNat = readCell m (a + BitVec.ofNat 64 k).toNat) →
    bundleAt m' a = bundleAt m a) ∧
  (∀ (i : Instr) (s : State) (m : List Host.Cell), dataAccess i = none →
    exec i { s with mem := m } = withMem m (exec i s) ∧ ∀ t, exec i s = .next t → t.mem = s.mem) ∧
  (∀ (i : Instr) (s : State) (m : List Host.Cell) (ra : Gpr) (d : BitVec 14) (n : Nat), dataAccess i = some (ra, d, n) →
    isLoad i = true →
    ((∀ k < n, readCell m (effAddr s ra d + BitVec.ofNat 64 k).toNat =
        readCell s.mem (effAddr s ra d + BitVec.ofNat 64 k).toNat) →
      exec i { s with mem := m } = withMem m (exec i s)) ∧
    ∀ t, exec i s = .next t → t.mem = s.mem) ∧
  (∀ (i : Instr) (s t : State) (ra : Gpr) (d : BitVec 14) (n : Nat), dataAccess i = some (ra, d, n) → isStore i = true →
    exec i s = .next t → ∀ a, (∀ k < n, a ≠ (effAddr s ra d + BitVec.ofNat 64 k).toNat) →
      readCell t.mem a = readCell s.mem a)

/-! ## The step -/

/-- When the next slot of a fetchable bundle decodes to an instruction without a group hazard, the step is that instruction's
meaning, on the state in which the bundle is marked as fetched and the group is the one after the instruction. The marking is
the model's way to decision D26 (log 23), the group that of D17, D40 (log 17). What the instruction names is written out from R157 in
`NamesSource` and `NamesDest`; that a one-slot instruction with condition 0 names nothing, being a NOP, is DEDUCED (log 16). -/
def Obligations.StepRunsDecodedInstruction : Prop :=
  ∀ (s : State) (i : Instr),
    let b := bundleAt s.mem s.pc
    ¬ (s.config.endPc = some s.pc ∧ s.slot = 0) → InMapFor s s.pc 16 →
    FetchesText s →
    b.extractLsb' 126 2 = 0 → decodeSlot b s.slot = .instr i →
    (s.config.stopPolicy = .ignore ∨ ¬ Depends s i) →
    ∃ s', step s = exec i s' ∧ s'.pc = s.pc ∧ s'.slot = s.slot ∧ SameX s s' ∧ SameC s s' ∧ SameP s s' ∧ s'.mem = s.mem ∧
      s'.config = s.config ∧ s'.storedBundles = s.storedBundles ∧
      (∀ a, a ∈ s'.fetchedBundles ↔ a ∈ s.fetchedBundles ∨ Fetches s a) ∧
      (∀ r, r ∈ s'.group ↔ b.getLsbD (123 + (s.slot.val + i.slots - 1)) = false ∧ (r ∈ s.group ∨ NamesDest i r))

/-- The faults and the two refusals of the front of a step, in the order in which they are looked for. Decisions D12, D14, D15,
D18, D19, D26, D32, D33 (log 5, 14, 23, 26). That the fault of a fetch outside the map names the program counter, the access's first address
(log 35), that a fetch outside a fixed program text is refused (log 23), and that, where the text is left open, the fetch of a bundle that
was stored to gives the store's fault with the address of the oldest such store (log 23), are the model's choices. -/
def Obligations.StepFrontStops : Prop :=
  ∀ s : State,
    let b := bundleAt s.mem s.pc
    (s.config.endPc = some s.pc ∧ s.slot = 0 → step s = .refused .runEnded) ∧
    (¬ (s.config.endPc = some s.pc ∧ s.slot = 0) →
      (¬ InMapFor s s.pc 16 → step s = .fault (.accessFault s.pc .fetchOutsideMap)) ∧
      (InMapFor s s.pc 16 → ¬ TextAdmits s → step s = .refused .fetchOutsideText) ∧
      (InMapFor s s.pc 16 → TextAdmits s → ∀ (before after : List Stored) (e : Stored), s.storedBundles = before ++ e :: after →
        Fetches s e.bundle → (∀ x ∈ before, ¬ Fetches s x.bundle) → step s = .fault (.accessFault e.addr .storeToCode)) ∧
      (InMapFor s s.pc 16 → FetchesText s →
        (b.extractLsb' 126 2 ≠ 0 → step s = .fault (.illegalInstruction .reservedControl)) ∧
        (b.extractLsb' 126 2 = 0 → ∀ r, decodeSlot b s.slot = .illegal r → step s = .fault (.illegalInstruction r))))

/-- A word with a sound predicate byte that is illegal under a true predicate: a reserved one, which names its predicate register and
the operands of its format, or one with an unused field that is not zero, which names its instruction's operands (DEDUCED, log 14). A
dependency comes first:
`GroupHazard` under require (decision D17, log 17). Then it is illegal if its predicate test passes, and if not, only the position
moves on, with what it names as a destination in the group. Decisions D18, D19, D34 (log 14, 28). -/
def Obligations.UnlistedWordStep : Prop :=
  ∀ s : State,
    let b := bundleAt s.mem s.pc
    ¬ (s.config.endPc = some s.pc ∧ s.slot = 0) → InMapFor s s.pc 16 →
    FetchesText s → b.extractLsb' 126 2 = 0 →
    (∀ (p : Pred) (u : Reserved), decodeSlot b s.slot = .unlisted p u →
      let depends : Prop := ∃ x ∈ s.group, ReservedSource p u x ∨ ReservedDest u x
      (s.config.stopPolicy = .require → depends → step s = .fault .groupHazard) ∧
      (s.config.stopPolicy = .ignore ∨ ¬ depends →
        (Passes p s → step s = .fault (.illegalInstruction u.reason)) ∧
        (¬ Passes p s → OnlySkips (step s) s b 1 (ReservedDest u)))) ∧
    (∀ i : Instr, decodeSlot b s.slot = .spare i →
      (s.config.stopPolicy = .require → Depends s i → step s = .fault .groupHazard) ∧
      (s.config.stopPolicy = .ignore ∨ ¬ Depends s i →
        (Passes i.pred s → step s = .fault (.illegalInstruction .unusedField)) ∧
        (¬ Passes i.pred s → OnlySkips (step s) s b i.slots (NamesDest i))))

/-- Under `STOP_POLICY` require, an instruction that names a register, or memory, that an earlier instruction of its group named
as a destination stops with `GroupHazard`, whether or not its predicate test passes (decision D17, log 17). The lists the model keeps
are what R157 names for each format, written out in `NamesSource` and `NamesDest`; that a one-slot instruction with condition 0 names
nothing, being a NOP, is DEDUCED (log 16). -/
def Obligations.GroupHazardFaults : Prop :=
  (∀ (i : Instr) (r : Resource), (r ∈ sources i ↔ NamesSource i r) ∧ (r ∈ dests i ↔ NamesDest i r)) ∧
  ∀ (s : State) (i : Instr),
    let b := bundleAt s.mem s.pc
    ¬ (s.config.endPc = some s.pc ∧ s.slot = 0) → InMapFor s s.pc 16 →
    FetchesText s →
    b.extractLsb' 126 2 = 0 → decodeSlot b s.slot = .instr i →
    s.config.stopPolicy = .require → Depends s i → step s = .fault .groupHazard

/-- Under `STOP_POLICY` ignore no step is a `GroupHazard`. Decision D17 (log 17). -/
def Obligations.IgnoredStopBitsNeverFault : Prop :=
  ∀ s : State, s.config.stopPolicy = .ignore → step s ≠ .fault .groupHazard

/-- A bundle that sets all three stop bits is safe: from an empty group its step is no `GroupHazard` and leaves the group
empty. Decisions D17, D40 (log 17). -/
def Obligations.AllStopsAreSafe : Prop :=
  ∀ s : State, s.group = [] → (bundleAt s.mem s.pc).extractLsb' 123 3 = 7#3 →
    step s ≠ .fault .groupHazard ∧ ∀ t, step s = .next t → t.group = []

/-- A step is refused at `END_PC`, slot 0 (decision D32, log 26), and where it would fetch outside the program text that its launch fixed
(the model's choice, log 23), and nowhere else: every other state has an outcome of the machine. -/
def Obligations.RefusedOnlyAtEndPcOrOutsideText : Prop :=
  ∀ (s : State) (r : Refusal), step s = .refused r ↔
    (r = .runEnded ∧ s.config.endPc = some s.pc ∧ s.slot = 0) ∨
    (r = .fetchOutsideText ∧ ¬ (s.config.endPc = some s.pc ∧ s.slot = 0) ∧ InMapFor s s.pc 16 ∧ ¬ TextAdmits s)

/-! ## Invariants -/

/-- Every step keeps memory canonical and every code address register, the program counter among them, a bundle address. Rests on
decisions D24, D29, D41 (log 19, 21, 24). -/
def Obligations.StepKeepsBundleAddresses : Prop :=
  ∀ s t : State, Inv s → step s = .next t → Inv t

/-- The reset state meets that invariant. The values of C1 to C6 and `RESET_PC` are the model's choices (log 1, 2). -/
def Obligations.ResetMeetsBundleAddresses : Prop :=
  Inv State.reset

/-- From a state that meets the invariant no step is a `MisalignedTarget`. Decision D24 (log 21). -/
def Obligations.JumpTargetsStayAligned : Prop :=
  ∀ (s : State) (target : Word), Inv s → step s ≠ .fault (.misalignedTarget target)

/-- No step makes a bundle both stored to and fetched, or both stored to and program text, and reset has none; and from every state, a
step that completes keeps what was stored to, and fetches none of it: no run executes a stored byte. Where the launch fixes the text, a
step that completes fetches text only, and there, or where what is fetched was fetched before, AccessFault, store to code, is reported by
a store alone, at the address it stores to. Decision D26; the records and the form of the launch's declaration are the model's (log 23). -/
def Obligations.TextStaysUntouched : Prop :=
  TextUntouched State.reset ∧ (∀ s t : State, TextUntouched s → step s = .next t → TextUntouched t) ∧
  (∀ s t : State, step s = .next t → (∀ e ∈ s.storedBundles, e ∈ t.storedBundles) ∧ ∀ b, Fetches s b → ¬ StoredTo s b) ∧
  (∀ s t : State, s.config.programText ≠ none → step s = .next t → ∀ b, Fetches s b → InText s b) ∧
  ∀ (s : State) (a : Word), TextUntouched s →
    (s.config.programText ≠ none ∨ ∀ b, Fetches s b → b ∈ s.fetchedBundles ∨ InText s b) →
    step s = .fault (.accessFault a .storeToCode) →
    ∃ i ra d n, decodeSlot (bundleAt s.mem s.pc) s.slot = .instr i ∧ isStore i = true ∧ dataAccess i = some (ra, d, n) ∧
      a = effAddr s ra d

/-- The bytes of a bundle that was fetched, or that the launch declares program text, never change: fetching it once or once per slot
gives the same. And in a run, whatever its launch declares, what a step that completes fetches is the run's initial contents. Decision D26
(log 23). -/
def Obligations.FetchedBytesNeverChange : Prop :=
  (∀ s t u : State, Reaches s t → step t = .next u → ∀ a, Fetches t (bundleOf a) → byteAt t a = byteAt s a) ∧
  ∀ (s t : State) (a : Word), step s = .next t →
    (bundleOf a ∈ s.fetchedBundles → bundleOf a ∈ t.fetchedBundles) ∧
    (bundleOf a ∈ s.fetchedBundles ∨ InText s (bundleOf a) → byteAt t a = byteAt s a)

/-- No step changes a launch parameter, `OVF_ENABLE` among them. That the state carries them is the model's choice (log 3). -/
def Obligations.LaunchParametersConstant : Prop :=
  ∀ s t : State, step s = .next t → t.config = s.config

/-- The reset state as spec/ gives it: slot 0, the hardwired zeros, a program counter that is a bundle address. Decision D27; that the
general, code address and predicate registers hold 0, and what memory reads as, are the model's choices (log 1, 2, 4). -/
def Obligations.ResetState : Prop :=
  State.reset.slot = 0 ∧ readX State.reset 0 = 0 ∧ readC State.reset 0 = 0 ∧ State.reset.pc.toNat % 16 = 0 ∧
  readC State.reset 7 = State.reset.pc ∧ (∀ r, readX State.reset r = 0) ∧ (∀ c, c ≠ 7 → readC State.reset c = 0) ∧
  (∀ q, (readP State.reset q).bits = 0) ∧ (∀ a, readCell State.reset.mem a = 0) ∧ Memory.wf State.reset.mem ∧
  State.reset.group = [] ∧ State.reset.fetchedBundles = [] ∧ State.reset.storedBundles = []
end

