-- ==== Sys2Proof/Laws/Fields.lean ====
section
/-! SUPPORT. The fields of the encoder's words: what each accessor of the decoder reads from each format. -/

namespace Sys2Proof

/-! ## Slices of a concatenation -/

theorem slice_high {v w : Nat} (x : BitVec v) (y : BitVec w) (s n k : Nat) (h : s = w + k) :
    BitVec.extractLsb' s n (x ++ y) = BitVec.extractLsb' k n x := by
  subst h
  rw [BitVec.extractLsb'_append_eq_of_le (by omega)]
  congr 1
  omega

theorem slice_low {v w : Nat} (x : BitVec v) (y : BitVec w) (s n : Nat) (h : s + n ≤ w) :
    BitVec.extractLsb' s n (x ++ y) = BitVec.extractLsb' s n y :=
  BitVec.extractLsb'_append_eq_of_add_le h

theorem slice_span {u v w : Nat} (x : BitVec u) (y : BitVec v) (z : BitVec w) :
    BitVec.extractLsb' 0 (v + w) (x ++ y ++ z) = y ++ z := by
  apply BitVec.eq_of_getLsbD_eq
  intro i hi
  simp only [BitVec.getLsbD_extractLsb', BitVec.getLsbD_append, hi, decide_true, Bool.true_and, Nat.zero_add]
  by_cases h : i < w
  · simp [h]
  · simp only [h, if_false]
    rw [if_pos (by omega)]

theorem slice_slice {w : Nat} (x : BitVec w) (a n b m : Nat) (h : b + m ≤ n) :
    BitVec.extractLsb' b m (BitVec.extractLsb' a n x) = BitVec.extractLsb' (a + b) m x := by
  apply BitVec.eq_of_getLsbD_eq
  intro i hi
  simp only [BitVec.getLsbD_extractLsb', hi, decide_true, Bool.true_and]
  rw [show a + (b + i) = a + b + i by omega]
  simp [show b + i < n by omega]

/-! ## Slices of the opcode field -/

theorem major4Field_eq (w : SlotWord) : major4Field w = (opcodeField w).extractLsb' 3 4 := by
  rw [major4Field, opcodeField, slice_slice _ _ _ _ _ (by omega)]

theorem major3Field_eq (w : SlotWord) : major3Field w = (opcodeField w).extractLsb' 4 3 := by
  rw [major3Field, opcodeField, slice_slice _ _ _ _ _ (by omega)]

theorem func4Field_eq (w : SlotWord) : func4Field w = (opcodeField w).extractLsb' 0 4 := by
  rw [func4Field, opcodeField, slice_slice _ _ _ _ _ (by omega)]

/-! ## The predicate byte -/

theorem condField_eq (w : SlotWord) : condField w = (w.extractLsb' 0 8).extractLsb' 0 4 := by
  rw [condField, slice_slice _ _ _ _ _ (by omega)]

theorem prField_eq (w : SlotWord) : prField w = ((w.extractLsb' 0 8).extractLsb' 4 4).toFin := by
  rw [prField, slice_slice _ _ _ _ _ (by omega)]

theorem cond_ofBits_bits (c : Cond) : Cond.ofBits c.bits = some c := by
  cases c <;> rfl

/-- A word whose low byte is a well-formed predicate byte decodes to that predicate byte. -/
theorem decodePred_of_bits {w : SlotWord} {p : Pred} (h : w.extractLsb' 0 8 = p.bits) (hp : p.wf = true) :
    decodePred w = .ok p := by
  have hc : condField w = p.cond.bits := by
    rw [condField_eq, h, Pred.bits, slice_low _ p.cond.bits _ _ (by decide), BitVec.extractLsb'_eq_self]
  have hr : prField w = p.reg := by
    rw [prField_eq, h, Pred.bits, slice_high _ p.cond.bits _ _ 0 (by decide), BitVec.extractLsb'_eq_self]
    rfl
  unfold decodePred
  rw [hc, hr, cond_ofBits_bits]
  simp only [Pred.wf, Bool.or_eq_true, bne_iff_ne, beq_iff_eq] at hp
  simp only
  rw [if_neg (by tauto)]

/-! ## The formats -/

theorem predByte_formatRI (op : BitVec 7) (p : Pred) (rt ra : Gpr) (imm : BitVec 14) : (formatRI op p rt ra imm).extractLsb' 0 8 = p.bits := by
  rw [formatRI, slice_low _ p.bits _ _ (by decide), BitVec.extractLsb'_eq_self]

@[simp] theorem opcodeField_formatRI (op : BitVec 7) (p : Pred) (rt ra : Gpr) (imm : BitVec 14) :
    opcodeField (formatRI op p rt ra imm) = op := by
  rw [opcodeField, formatRI,
    slice_high _ (p.bits) _ _ 0 (by decide),
    slice_low _ (op) _ _ (by decide),
    BitVec.extractLsb'_eq_self]

@[simp] theorem rtField_formatRI (op : BitVec 7) (p : Pred) (rt ra : Gpr) (imm : BitVec 14) :
    rtField (formatRI op p rt ra imm) = rt := by
  rw [rtField, formatRI,
    slice_high _ (p.bits) _ _ 7 (by decide),
    slice_high _ (op) _ _ 0 (by decide),
    slice_low _ (gprBits rt) _ _ (by decide),
    BitVec.extractLsb'_eq_self]
  rfl

@[simp] theorem raField_formatRI (op : BitVec 7) (p : Pred) (rt ra : Gpr) (imm : BitVec 14) :
    raField (formatRI op p rt ra imm) = ra := by
  rw [raField, formatRI,
    slice_high _ (p.bits) _ _ 13 (by decide),
    slice_high _ (op) _ _ 6 (by decide),
    slice_high _ (gprBits rt) _ _ 0 (by decide),
    slice_low _ (gprBits ra) _ _ (by decide),
    BitVec.extractLsb'_eq_self]
  rfl

@[simp] theorem imm14Field_formatRI (op : BitVec 7) (p : Pred) (rt ra : Gpr) (imm : BitVec 14) :
    imm14Field (formatRI op p rt ra imm) = imm := by
  rw [imm14Field, formatRI,
    slice_high _ (p.bits) _ _ 19 (by decide),
    slice_high _ (op) _ _ 12 (by decide),
    slice_high _ (gprBits rt) _ _ 6 (by decide),
    slice_high _ (gprBits ra) _ _ 0 (by decide),
    BitVec.extractLsb'_eq_self]

theorem predByte_formatR2 (func : BitVec 7) (p : Pred) (rt ra rb : Gpr) : (formatR2 func p rt ra rb).extractLsb' 0 8 = p.bits := by
  rw [formatR2, slice_low _ p.bits _ _ (by decide), BitVec.extractLsb'_eq_self]

@[simp] theorem opcodeField_formatR2 (func : BitVec 7) (p : Pred) (rt ra rb : Gpr) :
    opcodeField (formatR2 func p rt ra rb) = number7 0 2 := by
  rw [opcodeField, formatR2,
    slice_high _ (p.bits) _ _ 0 (by decide),
    slice_low _ (number7 0 2) _ _ (by decide),
    BitVec.extractLsb'_eq_self]

@[simp] theorem rtField_formatR2 (func : BitVec 7) (p : Pred) (rt ra rb : Gpr) :
    rtField (formatR2 func p rt ra rb) = rt := by
  rw [rtField, formatR2,
    slice_high _ (p.bits) _ _ 7 (by decide),
    slice_high _ (number7 0 2) _ _ 0 (by decide),
    slice_low _ (gprBits rt) _ _ (by decide),
    BitVec.extractLsb'_eq_self]
  rfl

@[simp] theorem raField_formatR2 (func : BitVec 7) (p : Pred) (rt ra rb : Gpr) :
    raField (formatR2 func p rt ra rb) = ra := by
  rw [raField, formatR2,
    slice_high _ (p.bits) _ _ 13 (by decide),
    slice_high _ (number7 0 2) _ _ 6 (by decide),
    slice_high _ (gprBits rt) _ _ 0 (by decide),
    slice_low _ (gprBits ra) _ _ (by decide),
    BitVec.extractLsb'_eq_self]
  rfl

@[simp] theorem rbField_formatR2 (func : BitVec 7) (p : Pred) (rt ra rb : Gpr) :
    rbField (formatR2 func p rt ra rb) = rb := by
  rw [rbField, formatR2,
    slice_high _ (p.bits) _ _ 19 (by decide),
    slice_high _ (number7 0 2) _ _ 12 (by decide),
    slice_high _ (gprBits rt) _ _ 6 (by decide),
    slice_high _ (gprBits ra) _ _ 0 (by decide),
    slice_low _ (gprBits rb) _ _ (by decide),
    BitVec.extractLsb'_eq_self]
  rfl

@[simp] theorem unused33_formatR2 (func : BitVec 7) (p : Pred) (rt ra rb : Gpr) :
    unused33 (formatR2 func p rt ra rb) = 0#1 := by
  rw [unused33, formatR2,
    slice_high _ (p.bits) _ _ 25 (by decide),
    slice_high _ (number7 0 2) _ _ 18 (by decide),
    slice_high _ (gprBits rt) _ _ 12 (by decide),
    slice_high _ (gprBits ra) _ _ 6 (by decide),
    slice_high _ (gprBits rb) _ _ 0 (by decide),
    slice_low _ (0#1) _ _ (by decide),
    BitVec.extractLsb'_eq_self]

@[simp] theorem func7Field_formatR2 (func : BitVec 7) (p : Pred) (rt ra rb : Gpr) :
    func7Field (formatR2 func p rt ra rb) = func := by
  rw [func7Field, formatR2,
    slice_high _ (p.bits) _ _ 26 (by decide),
    slice_high _ (number7 0 2) _ _ 19 (by decide),
    slice_high _ (gprBits rt) _ _ 13 (by decide),
    slice_high _ (gprBits ra) _ _ 7 (by decide),
    slice_high _ (gprBits rb) _ _ 1 (by decide),
    slice_high _ (0#1) _ _ 0 (by decide),
    BitVec.extractLsb'_eq_self]

theorem predByte_formatCI (op : BitVec 7) (p : Pred) (pt : PredReg) (ra : Gpr) (imm : BitVec 14) : (formatCI op p pt ra imm).extractLsb' 0 8 = p.bits := by
  rw [formatCI, slice_low _ p.bits _ _ (by decide), BitVec.extractLsb'_eq_self]

@[simp] theorem opcodeField_formatCI (op : BitVec 7) (p : Pred) (pt : PredReg) (ra : Gpr) (imm : BitVec 14) :
    opcodeField (formatCI op p pt ra imm) = op := by
  rw [opcodeField, formatCI,
    slice_high _ (p.bits) _ _ 0 (by decide),
    slice_low _ (op) _ _ (by decide),
    BitVec.extractLsb'_eq_self]

@[simp] theorem ptField_formatCI (op : BitVec 7) (p : Pred) (pt : PredReg) (ra : Gpr) (imm : BitVec 14) :
    ptField (formatCI op p pt ra imm) = pt := by
  rw [ptField, formatCI,
    slice_high _ (p.bits) _ _ 7 (by decide),
    slice_high _ (op) _ _ 0 (by decide),
    slice_low _ (predRegBits pt) _ _ (by decide),
    BitVec.extractLsb'_eq_self]
  rfl

@[simp] theorem unused20_formatCI (op : BitVec 7) (p : Pred) (pt : PredReg) (ra : Gpr) (imm : BitVec 14) :
    unused20 (formatCI op p pt ra imm) = 0#2 := by
  rw [unused20, formatCI,
    slice_high _ (p.bits) _ _ 11 (by decide),
    slice_high _ (op) _ _ 4 (by decide),
    slice_high _ (predRegBits pt) _ _ 0 (by decide),
    slice_low _ (0#2) _ _ (by decide),
    BitVec.extractLsb'_eq_self]

@[simp] theorem raField_formatCI (op : BitVec 7) (p : Pred) (pt : PredReg) (ra : Gpr) (imm : BitVec 14) :
    raField (formatCI op p pt ra imm) = ra := by
  rw [raField, formatCI,
    slice_high _ (p.bits) _ _ 13 (by decide),
    slice_high _ (op) _ _ 6 (by decide),
    slice_high _ (predRegBits pt) _ _ 2 (by decide),
    slice_high _ (0#2) _ _ 0 (by decide),
    slice_low _ (gprBits ra) _ _ (by decide),
    BitVec.extractLsb'_eq_self]
  rfl

@[simp] theorem imm14Field_formatCI (op : BitVec 7) (p : Pred) (pt : PredReg) (ra : Gpr) (imm : BitVec 14) :
    imm14Field (formatCI op p pt ra imm) = imm := by
  rw [imm14Field, formatCI,
    slice_high _ (p.bits) _ _ 19 (by decide),
    slice_high _ (op) _ _ 12 (by decide),
    slice_high _ (predRegBits pt) _ _ 8 (by decide),
    slice_high _ (0#2) _ _ 6 (by decide),
    slice_high _ (gprBits ra) _ _ 0 (by decide),
    BitVec.extractLsb'_eq_self]

theorem predByte_formatCR (func : BitVec 7) (p : Pred) (pt : PredReg) (ra rb : Gpr) : (formatCR func p pt ra rb).extractLsb' 0 8 = p.bits := by
  rw [formatCR, slice_low _ p.bits _ _ (by decide), BitVec.extractLsb'_eq_self]

@[simp] theorem opcodeField_formatCR (func : BitVec 7) (p : Pred) (pt : PredReg) (ra rb : Gpr) :
    opcodeField (formatCR func p pt ra rb) = number7 0 2 := by
  rw [opcodeField, formatCR,
    slice_high _ (p.bits) _ _ 0 (by decide),
    slice_low _ (number7 0 2) _ _ (by decide),
    BitVec.extractLsb'_eq_self]

@[simp] theorem ptField_formatCR (func : BitVec 7) (p : Pred) (pt : PredReg) (ra rb : Gpr) :
    ptField (formatCR func p pt ra rb) = pt := by
  rw [ptField, formatCR,
    slice_high _ (p.bits) _ _ 7 (by decide),
    slice_high _ (number7 0 2) _ _ 0 (by decide),
    slice_low _ (predRegBits pt) _ _ (by decide),
    BitVec.extractLsb'_eq_self]
  rfl

@[simp] theorem unused20_formatCR (func : BitVec 7) (p : Pred) (pt : PredReg) (ra rb : Gpr) :
    unused20 (formatCR func p pt ra rb) = 0#2 := by
  rw [unused20, formatCR,
    slice_high _ (p.bits) _ _ 11 (by decide),
    slice_high _ (number7 0 2) _ _ 4 (by decide),
    slice_high _ (predRegBits pt) _ _ 0 (by decide),
    slice_low _ (0#2) _ _ (by decide),
    BitVec.extractLsb'_eq_self]

@[simp] theorem raField_formatCR (func : BitVec 7) (p : Pred) (pt : PredReg) (ra rb : Gpr) :
    raField (formatCR func p pt ra rb) = ra := by
  rw [raField, formatCR,
    slice_high _ (p.bits) _ _ 13 (by decide),
    slice_high _ (number7 0 2) _ _ 6 (by decide),
    slice_high _ (predRegBits pt) _ _ 2 (by decide),
    slice_high _ (0#2) _ _ 0 (by decide),
    slice_low _ (gprBits ra) _ _ (by decide),
    BitVec.extractLsb'_eq_self]
  rfl

@[simp] theorem rbField_formatCR (func : BitVec 7) (p : Pred) (pt : PredReg) (ra rb : Gpr) :
    rbField (formatCR func p pt ra rb) = rb := by
  rw [rbField, formatCR,
    slice_high _ (p.bits) _ _ 19 (by decide),
    slice_high _ (number7 0 2) _ _ 12 (by decide),
    slice_high _ (predRegBits pt) _ _ 8 (by decide),
    slice_high _ (0#2) _ _ 6 (by decide),
    slice_high _ (gprBits ra) _ _ 0 (by decide),
    slice_low _ (gprBits rb) _ _ (by decide),
    BitVec.extractLsb'_eq_self]
  rfl

@[simp] theorem unused33_formatCR (func : BitVec 7) (p : Pred) (pt : PredReg) (ra rb : Gpr) :
    unused33 (formatCR func p pt ra rb) = 0#1 := by
  rw [unused33, formatCR,
    slice_high _ (p.bits) _ _ 25 (by decide),
    slice_high _ (number7 0 2) _ _ 18 (by decide),
    slice_high _ (predRegBits pt) _ _ 14 (by decide),
    slice_high _ (0#2) _ _ 12 (by decide),
    slice_high _ (gprBits ra) _ _ 6 (by decide),
    slice_high _ (gprBits rb) _ _ 0 (by decide),
    slice_low _ (0#1) _ _ (by decide),
    BitVec.extractLsb'_eq_self]

@[simp] theorem func7Field_formatCR (func : BitVec 7) (p : Pred) (pt : PredReg) (ra rb : Gpr) :
    func7Field (formatCR func p pt ra rb) = func := by
  rw [func7Field, formatCR,
    slice_high _ (p.bits) _ _ 26 (by decide),
    slice_high _ (number7 0 2) _ _ 19 (by decide),
    slice_high _ (predRegBits pt) _ _ 15 (by decide),
    slice_high _ (0#2) _ _ 13 (by decide),
    slice_high _ (gprBits ra) _ _ 7 (by decide),
    slice_high _ (gprBits rb) _ _ 1 (by decide),
    slice_high _ (0#1) _ _ 0 (by decide),
    BitVec.extractLsb'_eq_self]

theorem predByte_formatLD (func4 : BitVec 4) (p : Pred) (rt ra : Gpr) (disp : BitVec 14) : (formatLD func4 p rt ra disp).extractLsb' 0 8 = p.bits := by
  rw [formatLD, slice_low _ p.bits _ _ (by decide), BitVec.extractLsb'_eq_self]

@[simp] theorem rtField_formatLD (func4 : BitVec 4) (p : Pred) (rt ra : Gpr) (disp : BitVec 14) :
    rtField (formatLD func4 p rt ra disp) = rt := by
  rw [rtField, formatLD,
    slice_high _ (p.bits) _ _ 7 (by decide),
    slice_high _ (func4) _ _ 3 (by decide),
    slice_high _ (loadMajor) _ _ 0 (by decide),
    slice_low _ (gprBits rt) _ _ (by decide),
    BitVec.extractLsb'_eq_self]
  rfl

@[simp] theorem raField_formatLD (func4 : BitVec 4) (p : Pred) (rt ra : Gpr) (disp : BitVec 14) :
    raField (formatLD func4 p rt ra disp) = ra := by
  rw [raField, formatLD,
    slice_high _ (p.bits) _ _ 13 (by decide),
    slice_high _ (func4) _ _ 9 (by decide),
    slice_high _ (loadMajor) _ _ 6 (by decide),
    slice_high _ (gprBits rt) _ _ 0 (by decide),
    slice_low _ (gprBits ra) _ _ (by decide),
    BitVec.extractLsb'_eq_self]
  rfl

@[simp] theorem imm14Field_formatLD (func4 : BitVec 4) (p : Pred) (rt ra : Gpr) (disp : BitVec 14) :
    imm14Field (formatLD func4 p rt ra disp) = disp := by
  rw [imm14Field, formatLD,
    slice_high _ (p.bits) _ _ 19 (by decide),
    slice_high _ (func4) _ _ 15 (by decide),
    slice_high _ (loadMajor) _ _ 12 (by decide),
    slice_high _ (gprBits rt) _ _ 6 (by decide),
    slice_high _ (gprBits ra) _ _ 0 (by decide),
    BitVec.extractLsb'_eq_self]

theorem opcodeField_formatLD (func4 : BitVec 4) (p : Pred) (rt ra : Gpr) (disp : BitVec 14) :
    opcodeField (formatLD func4 p rt ra disp) = loadMajor ++ func4 := by
  rw [opcodeField, formatLD, slice_high _ (p.bits) _ _ 0 (by decide)]
  exact slice_span _ loadMajor func4

theorem predByte_formatST (func4 : BitVec 4) (p : Pred) (rb ra : Gpr) (disp : BitVec 14) : (formatST func4 p rb ra disp).extractLsb' 0 8 = p.bits := by
  rw [formatST, slice_low _ p.bits _ _ (by decide), BitVec.extractLsb'_eq_self]

@[simp] theorem raField_formatST (func4 : BitVec 4) (p : Pred) (rb ra : Gpr) (disp : BitVec 14) :
    raField (formatST func4 p rb ra disp) = ra := by
  rw [raField, formatST,
    slice_high _ (p.bits) _ _ 13 (by decide),
    slice_high _ (func4) _ _ 9 (by decide),
    slice_high _ (storeMajor) _ _ 6 (by decide),
    slice_high _ (disp.extractLsb' 0 6) _ _ 0 (by decide),
    slice_low _ (gprBits ra) _ _ (by decide),
    BitVec.extractLsb'_eq_self]
  rfl

@[simp] theorem rbField_formatST (func4 : BitVec 4) (p : Pred) (rb ra : Gpr) (disp : BitVec 14) :
    rbField (formatST func4 p rb ra disp) = rb := by
  rw [rbField, formatST,
    slice_high _ (p.bits) _ _ 19 (by decide),
    slice_high _ (func4) _ _ 15 (by decide),
    slice_high _ (storeMajor) _ _ 12 (by decide),
    slice_high _ (disp.extractLsb' 0 6) _ _ 6 (by decide),
    slice_high _ (gprBits ra) _ _ 0 (by decide),
    slice_low _ (gprBits rb) _ _ (by decide),
    BitVec.extractLsb'_eq_self]
  rfl

theorem opcodeField_formatST (func4 : BitVec 4) (p : Pred) (rb ra : Gpr) (disp : BitVec 14) :
    opcodeField (formatST func4 p rb ra disp) = storeMajor ++ func4 := by
  rw [opcodeField, formatST, slice_high _ (p.bits) _ _ 0 (by decide)]
  exact slice_span _ storeMajor func4

theorem predByte_formatMV (p : Pred) (rt : Gpr) (imm : Word) : (formatMV p rt imm).extractLsb' 0 8 = p.bits := by
  rw [formatMV, slice_low _ p.bits _ _ (by decide), BitVec.extractLsb'_eq_self]

@[simp] theorem rtField_formatMV (p : Pred) (rt : Gpr) (imm : Word) :
    rtField (formatMV p rt imm) = rt := by
  rw [rtField, formatMV,
    slice_high _ (p.bits) _ _ 7 (by decide),
    slice_high _ (imm.extractLsb' 0 3) _ _ 4 (by decide),
    slice_high _ (movMajor) _ _ 0 (by decide),
    slice_low _ (gprBits rt) _ _ (by decide),
    BitVec.extractLsb'_eq_self]
  rfl

theorem opcodeField_formatMV (p : Pred) (rt : Gpr) (imm : Word) :
    opcodeField (formatMV p rt imm) = movMajor ++ imm.extractLsb' 0 3 := by
  rw [opcodeField, formatMV, slice_high _ (p.bits) _ _ 0 (by decide)]
  exact slice_span _ movMajor (imm.extractLsb' 0 3)

theorem predByte_formatJM (op : BitVec 7) (p : Pred) (ct ca : CodeReg) (addr : BitVec 20) : (formatJM op p ct ca addr).extractLsb' 0 8 = p.bits := by
  rw [formatJM, slice_low _ p.bits _ _ (by decide), BitVec.extractLsb'_eq_self]

@[simp] theorem opcodeField_formatJM (op : BitVec 7) (p : Pred) (ct ca : CodeReg) (addr : BitVec 20) :
    opcodeField (formatJM op p ct ca addr) = op := by
  rw [opcodeField, formatJM,
    slice_high _ (p.bits) _ _ 0 (by decide),
    slice_low _ (op) _ _ (by decide),
    BitVec.extractLsb'_eq_self]

@[simp] theorem ctField_formatJM (op : BitVec 7) (p : Pred) (ct ca : CodeReg) (addr : BitVec 20) :
    ctField (formatJM op p ct ca addr) = ct := by
  rw [ctField, formatJM,
    slice_high _ (p.bits) _ _ 7 (by decide),
    slice_high _ (op) _ _ 0 (by decide),
    slice_low _ (codeRegBits ct) _ _ (by decide),
    BitVec.extractLsb'_eq_self]
  rfl

@[simp] theorem caField_formatJM (op : BitVec 7) (p : Pred) (ct ca : CodeReg) (addr : BitVec 20) :
    caField (formatJM op p ct ca addr) = ca := by
  rw [caField, formatJM,
    slice_high _ (p.bits) _ _ 10 (by decide),
    slice_high _ (op) _ _ 3 (by decide),
    slice_high _ (codeRegBits ct) _ _ 0 (by decide),
    slice_low _ (codeRegBits ca) _ _ (by decide),
    BitVec.extractLsb'_eq_self]
  rfl

@[simp] theorem addrField_formatJM (op : BitVec 7) (p : Pred) (ct ca : CodeReg) (addr : BitVec 20) :
    addrField (formatJM op p ct ca addr) = addr := by
  rw [addrField, formatJM,
    slice_high _ (p.bits) _ _ 13 (by decide),
    slice_high _ (op) _ _ 6 (by decide),
    slice_high _ (codeRegBits ct) _ _ 3 (by decide),
    slice_high _ (codeRegBits ca) _ _ 0 (by decide),
    BitVec.extractLsb'_eq_self]

/-- A store's displacement is put together again. -/
@[simp] theorem storeDispField_formatST (func4 : BitVec 4) (p : Pred) (rb ra : Gpr) (disp : BitVec 14) :
    storeDispField (formatST func4 p rb ra disp) = disp := by
  have h1 : BitVec.extractLsb' 33 8 (formatST func4 p rb ra disp) = disp.extractLsb' 6 8 := by
    rw [formatST, slice_high _ (p.bits) _ _ 25 (by decide), slice_high _ func4 _ _ 21 (by decide),
      slice_high _ storeMajor _ _ 18 (by decide), slice_high _ (disp.extractLsb' 0 6) _ _ 12 (by decide),
      slice_high _ (gprBits ra) _ _ 6 (by decide), slice_high _ (gprBits rb) _ _ 0 (by decide), BitVec.extractLsb'_eq_self]
  have h2 : BitVec.extractLsb' 15 6 (formatST func4 p rb ra disp) = disp.extractLsb' 0 6 := by
    rw [formatST, slice_high _ (p.bits) _ _ 7 (by decide), slice_high _ func4 _ _ 3 (by decide),
      slice_high _ storeMajor _ _ 0 (by decide), slice_low _ (disp.extractLsb' 0 6) _ _ (by decide),
      BitVec.extractLsb'_eq_self]
  rw [storeDispField, h1, h2, BitVec.extractLsb'_append_extractLsb'_eq_extractLsb' (by decide)]
  exact BitVec.extractLsb'_eq_self

/-- MOVI's immediate is put together again. -/
theorem movImmField_formatMV (p : Pred) (rt : Gpr) (imm : Word) :
    movImmField (formatMV p rt imm) (imm.extractLsb' 23 41) = imm := by
  have h1 : BitVec.extractLsb' 21 20 (formatMV p rt imm) = imm.extractLsb' 3 20 := by
    rw [formatMV, slice_high _ (p.bits) _ _ 13 (by decide), slice_high _ (imm.extractLsb' 0 3) _ _ 10 (by decide),
      slice_high _ movMajor _ _ 6 (by decide), slice_high _ (gprBits rt) _ _ 0 (by decide), BitVec.extractLsb'_eq_self]
  have h2 : BitVec.extractLsb' 8 3 (formatMV p rt imm) = imm.extractLsb' 0 3 := by
    rw [formatMV, slice_high _ (p.bits) _ _ 0 (by decide), slice_low _ (imm.extractLsb' 0 3) _ _ (by decide),
      BitVec.extractLsb'_eq_self]
  rw [movImmField, h1, h2, BitVec.extractLsb'_append_extractLsb'_eq_extractLsb' (by decide),
    BitVec.extractLsb'_append_extractLsb'_eq_extractLsb' (by decide)]
  exact BitVec.extractLsb'_eq_self

/-- JML's high address is read back from its second word, whose spare bit is zero. -/
@[simp] theorem addrHighField_addrHighWord (hi : BitVec 40) : addrHighField (addrHighWord hi) = hi := by
  apply BitVec.eq_of_getLsbD_eq
  intro i hlt
  have : i < 41 := by omega
  simp [addrHighField, addrHighWord, Config.jmlHiShift, hlt, this]

/-- JML's offset is put together again. -/
theorem addr_split (addr : BitVec 60) : addr.extractLsb' 20 40 ++ addr.extractLsb' 0 20 = addr := by
  rw [BitVec.extractLsb'_append_extractLsb'_eq_extractLsb' (by decide)]
  exact BitVec.extractLsb'_eq_self

end Sys2Proof
end

