-- ==== Sys2Proof/Laws/PerInstr.lean ====
section
/-! SUPPORT. Statements about every instruction, one lemma per constructor. Family EncodedLength: the encoder gives as many
words as the instruction has slots, and the decoder reads that length from the first word alone (spec/30_encoding.md R93, R120). -/

namespace Sys2Proof.Laws.EncodedLength

/-- The number of words, and the length read from the first word's opcode, are the instruction's slots. -/
def Statement (i : Instr) : Prop :=
  ∃ w ws, encode i = w :: ws ∧ ws.length + 1 = i.slots ∧ slotsOf w = i.slots

theorem slotsOf_eq_one {w : SlotWord} {op : BitVec 7} (h : opcodeField w = op) (hm : op.extractLsb' 3 4 ≠ movMajor)
    (hj : op ≠ opJml) : slotsOf w = 1 := by
  rw [slotsOf, major4Field_eq, h, if_neg (by tauto)]

theorem addi (p : Pred) (rt ra : Gpr) (imm : BitVec 14) : Statement (.addi p rt ra imm) :=
  ⟨_, [], rfl, rfl, slotsOf_eq_one (opcodeField_formatRI _ _ _ _ _) (by decide) (by decide)⟩

theorem andi (p : Pred) (rt ra : Gpr) (imm : BitVec 14) : Statement (.andi p rt ra imm) :=
  ⟨_, [], rfl, rfl, slotsOf_eq_one (opcodeField_formatRI _ _ _ _ _) (by decide) (by decide)⟩

theorem ori (p : Pred) (rt ra : Gpr) (imm : BitVec 14) : Statement (.ori p rt ra imm) :=
  ⟨_, [], rfl, rfl, slotsOf_eq_one (opcodeField_formatRI _ _ _ _ _) (by decide) (by decide)⟩

theorem eori (p : Pred) (rt ra : Gpr) (imm : BitVec 14) : Statement (.eori p rt ra imm) :=
  ⟨_, [], rfl, rfl, slotsOf_eq_one (opcodeField_formatRI _ _ _ _ _) (by decide) (by decide)⟩

theorem cmpi (p : Pred) (pt : PredReg) (ra : Gpr) (imm : BitVec 14) : Statement (.cmpi p pt ra imm) :=
  ⟨_, [], rfl, rfl, slotsOf_eq_one (opcodeField_formatCI _ _ _ _ _) (by decide) (by decide)⟩

theorem biti (p : Pred) (pt : PredReg) (ra : Gpr) (imm : BitVec 14) : Statement (.biti p pt ra imm) :=
  ⟨_, [], rfl, rfl, slotsOf_eq_one (opcodeField_formatCI _ _ _ _ _) (by decide) (by decide)⟩

theorem add (p : Pred) (rt ra rb : Gpr) : Statement (.add p rt ra rb) :=
  ⟨_, [], rfl, rfl, slotsOf_eq_one (opcodeField_formatR2 _ _ _ _ _) (by decide) (by decide)⟩

theorem sub (p : Pred) (rt ra rb : Gpr) : Statement (.sub p rt ra rb) :=
  ⟨_, [], rfl, rfl, slotsOf_eq_one (opcodeField_formatR2 _ _ _ _ _) (by decide) (by decide)⟩

theorem and (p : Pred) (rt ra rb : Gpr) : Statement (.and p rt ra rb) :=
  ⟨_, [], rfl, rfl, slotsOf_eq_one (opcodeField_formatR2 _ _ _ _ _) (by decide) (by decide)⟩

theorem or (p : Pred) (rt ra rb : Gpr) : Statement (.or p rt ra rb) :=
  ⟨_, [], rfl, rfl, slotsOf_eq_one (opcodeField_formatR2 _ _ _ _ _) (by decide) (by decide)⟩

theorem eor (p : Pred) (rt ra rb : Gpr) : Statement (.eor p rt ra rb) :=
  ⟨_, [], rfl, rfl, slotsOf_eq_one (opcodeField_formatR2 _ _ _ _ _) (by decide) (by decide)⟩

theorem andcm (p : Pred) (rt ra rb : Gpr) : Statement (.andcm p rt ra rb) :=
  ⟨_, [], rfl, rfl, slotsOf_eq_one (opcodeField_formatR2 _ _ _ _ _) (by decide) (by decide)⟩

theorem nand (p : Pred) (rt ra rb : Gpr) : Statement (.nand p rt ra rb) :=
  ⟨_, [], rfl, rfl, slotsOf_eq_one (opcodeField_formatR2 _ _ _ _ _) (by decide) (by decide)⟩

theorem nor (p : Pred) (rt ra rb : Gpr) : Statement (.nor p rt ra rb) :=
  ⟨_, [], rfl, rfl, slotsOf_eq_one (opcodeField_formatR2 _ _ _ _ _) (by decide) (by decide)⟩

theorem enor (p : Pred) (rt ra rb : Gpr) : Statement (.enor p rt ra rb) :=
  ⟨_, [], rfl, rfl, slotsOf_eq_one (opcodeField_formatR2 _ _ _ _ _) (by decide) (by decide)⟩

theorem cmp (p : Pred) (pt : PredReg) (ra rb : Gpr) : Statement (.cmp p pt ra rb) :=
  ⟨_, [], rfl, rfl, slotsOf_eq_one (opcodeField_formatCR _ _ _ _ _) (by decide) (by decide)⟩

theorem movi (p : Pred) (rt : Gpr) (imm : Word) : Statement (.movi p rt imm) :=
  ⟨_, [_], rfl, rfl, by
    rw [slotsOf, major4Field_eq, opcodeField_formatMV, slice_high _ (imm.extractLsb' 0 3) _ _ 0 (by decide),
      BitVec.extractLsb'_eq_self, if_pos (.inl rfl)]
    rfl⟩

theorem jmp (p : Pred) (ct ca : CodeReg) (addr : BitVec 20) : Statement (.jmp p ct ca addr) :=
  ⟨_, [], rfl, rfl, slotsOf_eq_one (opcodeField_formatJM _ _ _ _ _) (by decide) (by decide)⟩

theorem jml (p : Pred) (ct ca : CodeReg) (addr : BitVec 60) : Statement (.jml p ct ca addr) :=
  ⟨_, [_], rfl, rfl, by rw [slotsOf, opcodeField_formatJM, if_pos (.inr rfl)]; rfl⟩

theorem ld8s (p : Pred) (rt ra : Gpr) (disp : BitVec 14) : Statement (.ld8s p rt ra disp) :=
  ⟨_, [], rfl, rfl, slotsOf_eq_one (opcodeField_formatLD _ _ _ _ _) (by decide) (by decide)⟩

theorem ld8u (p : Pred) (rt ra : Gpr) (disp : BitVec 14) : Statement (.ld8u p rt ra disp) :=
  ⟨_, [], rfl, rfl, slotsOf_eq_one (opcodeField_formatLD _ _ _ _ _) (by decide) (by decide)⟩

theorem ld16s (p : Pred) (rt ra : Gpr) (disp : BitVec 14) : Statement (.ld16s p rt ra disp) :=
  ⟨_, [], rfl, rfl, slotsOf_eq_one (opcodeField_formatLD _ _ _ _ _) (by decide) (by decide)⟩

theorem ld16u (p : Pred) (rt ra : Gpr) (disp : BitVec 14) : Statement (.ld16u p rt ra disp) :=
  ⟨_, [], rfl, rfl, slotsOf_eq_one (opcodeField_formatLD _ _ _ _ _) (by decide) (by decide)⟩

theorem ld32s (p : Pred) (rt ra : Gpr) (disp : BitVec 14) : Statement (.ld32s p rt ra disp) :=
  ⟨_, [], rfl, rfl, slotsOf_eq_one (opcodeField_formatLD _ _ _ _ _) (by decide) (by decide)⟩

theorem ld32u (p : Pred) (rt ra : Gpr) (disp : BitVec 14) : Statement (.ld32u p rt ra disp) :=
  ⟨_, [], rfl, rfl, slotsOf_eq_one (opcodeField_formatLD _ _ _ _ _) (by decide) (by decide)⟩

theorem ld64 (p : Pred) (rt ra : Gpr) (disp : BitVec 14) : Statement (.ld64 p rt ra disp) :=
  ⟨_, [], rfl, rfl, slotsOf_eq_one (opcodeField_formatLD _ _ _ _ _) (by decide) (by decide)⟩

theorem st8 (p : Pred) (rb ra : Gpr) (disp : BitVec 14) : Statement (.st8 p rb ra disp) :=
  ⟨_, [], rfl, rfl, slotsOf_eq_one (opcodeField_formatST _ _ _ _ _) (by decide) (by decide)⟩

theorem st16 (p : Pred) (rb ra : Gpr) (disp : BitVec 14) : Statement (.st16 p rb ra disp) :=
  ⟨_, [], rfl, rfl, slotsOf_eq_one (opcodeField_formatST _ _ _ _ _) (by decide) (by decide)⟩

theorem st32 (p : Pred) (rb ra : Gpr) (disp : BitVec 14) : Statement (.st32 p rb ra disp) :=
  ⟨_, [], rfl, rfl, slotsOf_eq_one (opcodeField_formatST _ _ _ _ _) (by decide) (by decide)⟩

theorem st64 (p : Pred) (rb ra : Gpr) (disp : BitVec 14) : Statement (.st64 p rb ra disp) :=
  ⟨_, [], rfl, rfl, slotsOf_eq_one (opcodeField_formatST _ _ _ _ _) (by decide) (by decide)⟩

theorem nop : Statement .nop :=
  ⟨_, [], rfl, rfl, by decide⟩

end Sys2Proof.Laws.EncodedLength
end

