-- ==== Sys2Proof/Laws/Decoding.lean ====
section
/-! SUPPORT. What the decoder does with a word whose predicate byte is sound. -/

namespace Sys2Proof

/-- The decoder on a sound predicate byte in a legal slot: the table's instruction if its unused fields are zero; else a NOP, or
a word that is illegal under a true predicate. -/
theorem decodeSlot_of_pred {b : Bundle} {k : Slot} {p : Pred} (hp : p.wf = true)
    (hb : (slotWord b k).extractLsb' 0 8 = p.bits) (hl : slotLegal (slotWord b k) k = true) :
    decodeSlot b k =
      match select (slotWord b k) (slotWord b (k + 1 : Nat)) p with
      | .ok i => if unusedZero (slotWord b k) (slotWord b (k + 1 : Nat)) i then .instr i else nopOr (slotWord b k) p (.spare i)
      | .error u => nopOr (slotWord b k) p (.unlisted p u) := by
  rw [decodeSlot, decodeWords, hl, decodePred_of_bits hb hp]
  rfl

theorem decodeSlot_of_select {b : Bundle} {k : Slot} {p : Pred} {i : Instr} (hp : p.wf = true)
    (hb : (slotWord b k).extractLsb' 0 8 = p.bits) (hl : slotLegal (slotWord b k) k = true)
    (hs : select (slotWord b k) (slotWord b (k + 1 : Nat)) p = .ok i)
    (hu : unusedZero (slotWord b k) (slotWord b (k + 1 : Nat)) i = true) : decodeSlot b k = .instr i := by
  rw [decodeSlot_of_pred hp hb hl, hs]
  simp [hu]

/-- A listed word with an unused field that is not zero. -/
theorem decodeSlot_of_spare {b : Bundle} {k : Slot} {p : Pred} {i : Instr} (hp : p.wf = true)
    (hb : (slotWord b k).extractLsb' 0 8 = p.bits) (hl : slotLegal (slotWord b k) k = true)
    (hs : select (slotWord b k) (slotWord b (k + 1 : Nat)) p = .ok i)
    (hu : unusedZero (slotWord b k) (slotWord b (k + 1 : Nat)) i = false) :
    decodeSlot b k = nopOr (slotWord b k) p (.spare i) := by
  rw [decodeSlot_of_pred hp hb hl, hs]
  simp [hu]

theorem nopOr_of_one {w : SlotWord} (h : slotsOf w = 1) (p : Pred) (d : Decoded) :
    nopOr w p d = if p.cond = .pf then .instr .nop else d := by
  simp [nopOr, h]

theorem nopOr_of_two {w : SlotWord} (h : slotsOf w = 2) (p : Pred) (d : Decoded) : nopOr w p d = d := by
  simp [nopOr, h]

theorem decodeSlot_of_unlisted {b : Bundle} {k : Slot} {p : Pred} {u : Reserved} (hp : p.wf = true)
    (hb : (slotWord b k).extractLsb' 0 8 = p.bits) (hl : slotLegal (slotWord b k) k = true)
    (h1 : slotsOf (slotWord b k) = 1) (hs : select (slotWord b k) (slotWord b (k + 1 : Nat)) p = .error u) :
    decodeSlot b k = if p.cond = .pf then .instr .nop else .unlisted p u := by
  rw [decodeSlot_of_pred hp hb hl, hs]
  simp only [nopOr_of_one h1]

/-- A one-slot opcode is legal in every slot. -/
theorem slotLegal_of_opcode {w : SlotWord} {op : BitVec 7} (ho : opcodeField w = op) (hm : op.extractLsb' 3 4 ≠ movMajor)
    (hj : op ≠ opJml) (k : Slot) : slotLegal w k = true := by
  simp [slotLegal, major4Field_eq, ho, hm, hj]

/-- The words of an instruction in a bundle: the first one, at its slot. -/
theorem slotWord_of_holds {b : Bundle} {k : Slot} {w : SlotWord} {ws : List SlotWord} (h : holdsWords b k (w :: ws)) :
    slotWord b k = w := by
  cases ws with
  | nil => exact h
  | cons _ _ => exact h.1

/-- The second word of a two-slot instruction, in the next slot. -/
theorem slotWord_next_of_holds {b : Bundle} {k : Slot} {w w2 : SlotWord} {ws : List SlotWord}
    (h : holdsWords b k (w :: w2 :: ws)) : slotWord b (k + 1 : Nat) = w2 :=
  h.2

/-! ## What the selection can answer -/

/-- One link of the selection's chain: its own answer, or that of the rest. -/
theorem ite_ok {c : Prop} [Decidable c] {x y : Except Reserved Instr} {i : Instr} (h : (if c then x else y) = .ok i) :
    (c ∧ x = .ok i) ∨ y = .ok i := by
  by_cases hc : c
  · rw [if_pos hc] at h; exact .inl ⟨hc, h⟩
  · rw [if_neg hc] at h; exact .inr h

/-- The predicate byte that was read is the word's. -/
theorem decodePred_ok {w : SlotWord} {p : Pred} (h : decodePred w = .ok p) :
    p.reg = prField w ∧ p.cond.bits = condField w := by
  have key : ∀ (c : BitVec 4) (d : Cond), Cond.ofBits c = some d → d.bits = c := by
    intro c d
    cases d <;> revert c <;> decide
  unfold decodePred at h
  split at h
  · cases h
  · split at h
    · cases h
    · cases h; exact ⟨rfl, key _ _ (by assumption)⟩

end Sys2Proof
end

