-- ==== Sys2Proof/Laws/Memory.lean ====
section
/-! SUPPORT. Memory: read after write, the canonical form, wide accesses byte by byte, bundles of an access. -/

namespace Sys2Proof.Machine

/-! ## One byte -/

theorem readCell_eraseCell (m : List Host.Cell) (a b : Nat) :
    readCell (eraseCell m a) b = if b = a then unlistedByte else readCell m b := by
  induction m with
  | nil => simp [eraseCell, readCell]
  | cons x m ih =>
    obtain ⟨k, v⟩ := x
    by_cases hk : k = a
    · subst hk
      by_cases hb : b = k
      · subst hb; simpa [eraseCell] using ih
      · have : ¬ k = b := fun e => hb e.symm
        simp [eraseCell, ih, hb, readCell, this]
    · by_cases hkb : k = b
      · subst hkb; simp [eraseCell, readCell, hk]
      · simp [eraseCell, readCell, hk, hkb, ih]

theorem mem_eraseCell {m : List Host.Cell} {a : Nat} {x : Host.Cell} (h : x ∈ eraseCell m a) : x ∈ m ∧ x.1 ≠ a := by
  induction m with
  | nil => simp [eraseCell] at h
  | cons y m ih =>
    obtain ⟨k, v⟩ := y
    by_cases hk : k = a
    · simp only [eraseCell, hk, if_true] at h
      exact ⟨List.mem_cons_of_mem _ (ih h).1, (ih h).2⟩
    · simp only [eraseCell, hk, if_false, List.mem_cons] at h
      rcases h with rfl | h
      · exact ⟨by simp, hk⟩
      · exact ⟨List.mem_cons_of_mem _ (ih h).1, (ih h).2⟩

theorem mem_insertCell {m : List Host.Cell} {a : Nat} {v : Byte} {x : Host.Cell} (h : x ∈ insertCell m a v) :
    x = (a, v) ∨ x ∈ m := by
  induction m with
  | nil => simpa [insertCell] using h
  | cons y m ih =>
    obtain ⟨k, w⟩ := y
    by_cases hk : a < k
    · simpa [insertCell, hk] using h
    · simp only [insertCell, hk, if_false, List.mem_cons] at h
      rcases h with rfl | h
      · simp
      · rcases ih h with rfl | h <;> simp [*]

theorem readCell_insertCell (m : List Host.Cell) (a b : Nat) (v : Byte) (hm : ∀ x ∈ m, x.1 ≠ a) :
    readCell (insertCell m a v) b = if b = a then v else readCell m b := by
  induction m with
  | nil => simp [insertCell, readCell, eq_comm (a := a)]
  | cons x m ih =>
    obtain ⟨k, w⟩ := x
    have hka : k ≠ a := hm (k, w) (by simp)
    have ih := ih fun x hx => hm x (List.mem_cons_of_mem _ hx)
    by_cases hk : a < k
    · simp [insertCell, hk, readCell, eq_comm (a := a)]
    · by_cases hkb : k = b
      · subst hkb; simp [insertCell, hk, readCell, hka]
      · simp [insertCell, hk, readCell, hkb, ih]

/-- A byte read after a write: the value written there, the old value elsewhere. -/
theorem readCell_writeCell (m : List Host.Cell) (a b : Nat) (v : Byte) :
    readCell (writeCell m a v) b = if b = a then v else readCell m b := by
  unfold writeCell
  by_cases hv : v = unlistedByte
  · simp [hv, readCell_eraseCell]
  · rw [if_neg hv, readCell_insertCell _ _ _ _ fun x hx => (mem_eraseCell hx).2, readCell_eraseCell]
    by_cases hb : b = a <;> simp [hb]

/-! ## The canonical form -/

theorem eraseCell_wf {m : List Host.Cell} (h : Memory.wf m) (a : Nat) : Memory.wf (eraseCell m a) := by
  refine ⟨?_, fun x hx => h.2 x (mem_eraseCell hx).1⟩
  have hp := h.1
  clear h
  induction m with
  | nil => simp [eraseCell]
  | cons y m ih =>
    obtain ⟨k, v⟩ := y
    rw [List.pairwise_cons] at hp
    by_cases hk : k = a
    · simpa [eraseCell, hk] using ih hp.2
    · simp only [eraseCell, hk, if_false]
      exact List.pairwise_cons.2 ⟨fun x hx => hp.1 x (mem_eraseCell hx).1, ih hp.2⟩

theorem insertCell_wf {m : List Host.Cell} (h : Memory.wf m) {a : Nat} (ha : a < 2 ^ 64) {v : Byte} (hv : v ≠ unlistedByte)
    (hm : ∀ x ∈ m, x.1 ≠ a) : Memory.wf (insertCell m a v) := by
  refine ⟨?_, fun x hx => ?_⟩
  · have hp := h.1
    clear h
    induction m with
    | nil => simp [insertCell]
    | cons y m ih =>
      obtain ⟨k, w⟩ := y
      have hka : k ≠ a := hm (k, w) (by simp)
      rw [List.pairwise_cons] at hp
      by_cases hk : a < k
      · simp only [insertCell, hk, if_true]
        refine List.pairwise_cons.2 ⟨fun x hx => ?_, List.pairwise_cons.2 hp⟩
        rcases List.mem_cons.1 hx with rfl | hx
        · exact hk
        · exact lt_trans hk (hp.1 x hx)
      · simp only [insertCell, hk, if_false]
        refine List.pairwise_cons.2 ⟨fun x hx => ?_, ih (fun x hx => hm x (List.mem_cons_of_mem _ hx)) hp.2⟩
        rcases mem_insertCell hx with rfl | hx
        · change k < a
          omega
        · exact hp.1 x hx
  · rcases mem_insertCell hx with rfl | hx
    · exact ⟨ha, hv⟩
    · exact h.2 x hx

/-- Writing a byte keeps the canonical form. -/
theorem writeCell_wf {m : List Host.Cell} (h : Memory.wf m) {a : Nat} (ha : a < 2 ^ 64) (v : Byte) :
    Memory.wf (writeCell m a v) := by
  unfold writeCell
  by_cases hv : v = unlistedByte
  · simpa only [hv, if_true] using eraseCell_wf h a
  · rw [if_neg hv]
    exact insertCell_wf (eraseCell_wf h a) ha hv fun x hx => (mem_eraseCell hx).2

/-- Writing bytes keeps the canonical form. -/
theorem writeCells_wf {m : List Host.Cell} (h : Memory.wf m) (a : Word) (bs : List Byte) : Memory.wf (writeCells m a bs) := by
  induction bs generalizing m a with
  | nil => exact h
  | cons b bs ih => exact ih (writeCell_wf h a.isLt b) (a + 1)

/-! ## Several bytes -/

theorem add_succ_ofNat (a : Word) (k : Nat) : a + 1 + BitVec.ofNat 64 k = a + BitVec.ofNat 64 (k + 1) := by
  apply BitVec.eq_of_toNat_eq
  have h1 : (1 : Word).toNat = 1 := rfl
  simp only [BitVec.toNat_add, BitVec.toNat_ofNat, h1]
  omega

@[simp] theorem length_readCells (m : List Host.Cell) (a : Word) (n : Nat) : (readCells m a n).length = n := by
  induction n generalizing a with
  | zero => rfl
  | succ n ih => simp [readCells, ih]

/-- The bytes of a wide read, one by one. -/
theorem getElem_readCells (m : List Host.Cell) (a : Word) (n k : Nat) (h : k < (readCells m a n).length) :
    (readCells m a n)[k] = readCell m (a + BitVec.ofNat 64 k).toNat := by
  induction n generalizing a k with
  | zero => simp at h
  | succ n ih =>
    cases k with
    | zero => simp [readCells]
    | succ k =>
      have := ih (a + 1) k (by simpa using h)
      rw [add_succ_ofNat] at this
      simpa [readCells] using this

/-- A wide write leaves the bytes outside it alone. -/
theorem readCell_writeCells_outside (m : List Host.Cell) (a : Word) (bs : List Byte) (b : Nat)
    (h : ∀ k < bs.length, b ≠ (a + BitVec.ofNat 64 k).toNat) : readCell (writeCells m a bs) b = readCell m b := by
  induction bs generalizing m a with
  | nil => rfl
  | cons x bs ih =>
    have h0 := h 0 (by simp)
    rw [writeCells, ih, readCell_writeCell, if_neg (by simpa using h0)]
    intro k hk
    rw [add_succ_ofNat]
    exact h (k + 1) (by simpa using hk)

/-- A wide write puts each byte at its address. -/
theorem readCell_writeCells_inside (m : List Host.Cell) (a : Word) (bs : List Byte) (hl : bs.length ≤ 2 ^ 64) (k : Nat)
    (hk : k < bs.length) : readCell (writeCells m a bs) (a + BitVec.ofNat 64 k).toNat = bs[k] := by
  induction bs generalizing m a k with
  | nil => simp at hk
  | cons x bs ih =>
    simp only [List.length_cons] at hl hk
    cases k with
    | zero =>
      rw [writeCells, readCell_writeCells_outside, readCell_writeCell, if_pos (by simp)]
      · simp
      · intro k hk
        rw [add_succ_ofNat]
        simp only [BitVec.toNat_add, BitVec.toNat_ofNat]
        have := a.isLt
        omega
    | succ k =>
      have := ih (writeCell m a.toNat x) (a + 1) (by omega) k (by omega)
      rw [add_succ_ofNat] at this
      simpa [writeCells] using this

/-! ## Bytes and values -/

@[simp] theorem length_leBytes (n v : Nat) : (leBytes n v).length = n := by
  induction n generalizing v with
  | zero => rfl
  | succ n ih => simp [leBytes, ih]

theorem getElem_leBytes (n v k : Nat) (h : k < (leBytes n v).length) :
    (leBytes n v)[k] = BitVec.ofNat 8 (v / 256 ^ k) := by
  induction n generalizing v k with
  | zero => simp at h
  | succ n ih =>
    cases k with
    | zero => simp [leBytes]
    | succ k =>
      have := ih (v / 256) k (by simpa using h)
      rw [Nat.div_div_eq_div_mul, ← pow_succ'] at this
      simpa [leBytes] using this

/-- The value of the low `n` bytes. -/
theorem leValue_leBytes (n v : Nat) : leValue (leBytes n v) = v % 256 ^ n := by
  induction n generalizing v with
  | zero => simp [leValue, leBytes, Nat.mod_one]
  | succ n ih =>
    have h : v % 256 ^ (n + 1) = v % 256 + 256 * (v / 256 % 256 ^ n) := by rw [pow_succ', Nat.mod_mul]
    rw [leBytes, leValue, ih, BitVec.toNat_ofNat, h]

theorem leValue_lt (bs : List Byte) : leValue bs < 256 ^ bs.length := by
  induction bs with
  | nil => simp [leValue]
  | cons b bs ih =>
    have := b.isLt
    simp only [leValue, List.length_cons, pow_succ']
    omega

/-- The bytes of a value read back from memory are those of its bytes, least significant first (`BYTE_ORDER` little). -/
theorem bytesValue_eq (bs : List Byte) : bytesValue bs = leValue bs := rfl

theorem valueBytes_eq (n v : Nat) : valueBytes n v = leBytes n v := rfl

@[simp] theorem length_valueBytes (n v : Nat) : (valueBytes n v).length = n := length_leBytes n v

/-- A byte of a register as a slice of it. -/
theorem ofNat_div_eq_extract (v : Word) (k : Nat) : BitVec.ofNat 8 (v.toNat / 256 ^ k) = v.extractLsb' (8 * k) 8 := by
  apply BitVec.eq_of_toNat_eq
  rw [BitVec.toNat_ofNat, BitVec.extractLsb'_toNat, Nat.shiftRight_eq_div_pow, pow_mul]
  norm_num

/-- A bundle laid out as bytes and read back is the bundle. -/
theorem bundleOfBytes_bundleBytes (b : Bundle) : bundleOfBytes (bundleBytes b) = b := by
  apply BitVec.eq_of_toNat_eq
  have : bytesValue (bundleBytes b) = b.toNat % 256 ^ 16 := leValue_leBytes 16 b.toNat
  rw [bundleOfBytes, BitVec.toNat_ofNat, this]
  have := b.isLt
  omega

/-- Bytes written and read back. -/
theorem readCells_writeCells (m : List Host.Cell) (a : Word) (bs : List Byte) (hl : bs.length ≤ 2 ^ 64) :
    readCells (writeCells m a bs) a bs.length = bs := by
  apply List.ext_getElem (by simp)
  intro k h1 h2
  rw [getElem_readCells, readCell_writeCells_inside _ _ _ hl _ h2]

/-! ## The value of a wide read, as its bytes -/

theorem toNat_append_add {n m : Nat} (x : BitVec n) (y : BitVec m) : (x ++ y).toNat = x.toNat * 2 ^ m + y.toNat := by
  rw [BitVec.toNat_append, ← Nat.shiftLeft_add_eq_or_of_lt y.isLt, Nat.shiftLeft_eq]

theorem value_one (m : List Host.Cell) (a : Word) :
    BitVec.ofNat (8 * 1) (leValue (readCells m a 1)) = readCell m a.toNat := by
  apply BitVec.eq_of_toNat_eq
  have := (readCell m a.toNat).isLt
  simp [readCells, leValue]

/-- `n + 1` bytes: the first one below the value of the others. -/
theorem value_succ (m : List Host.Cell) (a : Word) (n : Nat) :
    BitVec.ofNat (8 * n + 8) (leValue (readCells m a (n + 1))) =
      BitVec.ofNat (8 * n) (leValue (readCells m (a + 1) n)) ++ readCell m a.toNat := by
  apply BitVec.eq_of_toNat_eq
  have h := (readCell m a.toNat).isLt
  have hv := leValue_lt (readCells m (a + 1) n)
  rw [length_readCells] at hv
  have hp : 256 ^ n = 2 ^ (8 * n) := by rw [pow_mul]; norm_num
  rw [hp] at hv
  have h8 : 2 ^ (8 * n + 8) = 2 ^ (8 * n) * 256 := by rw [pow_add]; norm_num
  rw [toNat_append_add, BitVec.toNat_ofNat, BitVec.toNat_ofNat, readCells, leValue, Nat.mod_eq_of_lt hv, h8,
    Nat.mod_eq_of_lt (by omega)]
  omega

/-! ## The memory map and the bundles of an access -/

theorem inRegions_iff (rs : List Region) (a : Word) :
    inRegions rs a = true ↔ ∃ r ∈ rs, r.base ≤ a.toNat ∧ a.toNat < r.base + r.size := by
  simp [inRegions]

theorem mapped_iff (c : Config) (a : Word) :
    mapped c a = true ↔ ∃ r ∈ c.memMap, r.base ≤ a.toNat ∧ a.toNat < r.base + r.size :=
  inRegions_iff _ _

theorem allMapped_iff (c : Config) (a : Word) (n : Nat) :
    allMapped c a n = true ↔ ∀ k < n, mapped c (a + BitVec.ofNat 64 k) = true := by
  induction n generalizing a with
  | zero => simp [allMapped]
  | succ n ih =>
    rw [allMapped, Bool.and_eq_true, ih]
    constructor
    · rintro ⟨h0, h⟩ k hk
      cases k with
      | zero => simpa using h0
      | succ k => rw [← add_succ_ofNat]; exact h k (by omega)
    · intro h
      refine ⟨by simpa using h 0 (by omega), fun k hk => ?_⟩
      rw [add_succ_ofNat]; exact h (k + 1) (by omega)

/-- A bundle's address is the multiple of 16 at or below the byte. -/
theorem toNat_bundleOf (a : Word) : (bundleOf a).toNat = a.toNat - a.toNat % 16 := by
  have h16 : (16 : Word).toNat = 16 := rfl
  have := a.isLt
  simp only [bundleOf, BitVec.toNat_sub, BitVec.toNat_umod, h16]
  omega

/-- The bundles of an access of up to 16 bytes are the bundles of its bytes. -/
theorem mem_bundlesOf (a b : Word) (n : Nat) (hn : 0 < n) (h16 : n ≤ 16) :
    b ∈ bundlesOf a n ↔ ∃ k < n, b = bundleOf (a + BitVec.ofNat 64 k) := by
  have key : ∀ k < n, bundleOf (a + BitVec.ofNat 64 k) = bundleOf a ∨
      bundleOf (a + BitVec.ofNat 64 k) = bundleOf (a + BitVec.ofNat 64 (n - 1)) := by
    intro k hk
    have ha := a.isLt
    by_cases h : a.toNat % 16 + k < 16
    · left
      apply BitVec.eq_of_toNat_eq
      simp only [toNat_bundleOf, BitVec.toNat_add, BitVec.toNat_ofNat]
      omega
    · right
      apply BitVec.eq_of_toNat_eq
      simp only [toNat_bundleOf, BitVec.toNat_add, BitVec.toNat_ofNat]
      omega
  simp only [bundlesOf, List.mem_cons, List.not_mem_nil, or_false]
  constructor
  · rintro (rfl | rfl)
    · exact ⟨0, hn, by simp⟩
    · exact ⟨n - 1, by omega, rfl⟩
  · rintro ⟨k, hk, rfl⟩
    exact key k hk

theorem mem_addBundles (known bs : List Word) (b : Word) : b ∈ addBundles known bs ↔ b ∈ known ∨ b ∈ bs := by
  unfold addBundles
  induction bs generalizing known with
  | nil => simp
  | cons x bs ih =>
    rw [List.foldl_cons, ih, List.mem_insert_iff, List.mem_cons]
    tauto

theorem addBundles_nodup {known : List Word} (h : known.Nodup) (bs : List Word) : (addBundles known bs).Nodup := by
  unfold addBundles
  induction bs generalizing known with
  | nil => exact h
  | cons x bs ih => exact ih (h.insert)

theorem isStored_iff (known : List Stored) (b : Word) : isStored known b = true ↔ ∃ e ∈ known, e.bundle = b := by
  simp [isStored]

/-- The records after a store: the old ones, and this store's for each of its bundles that had none. -/
theorem mem_recordStore (known : List Stored) (a : Word) (bs : List Word) (e : Stored) :
    e ∈ recordStore known a bs ↔ e ∈ known ∨ e.addr = a ∧ isStored known e.bundle = false ∧ e.bundle ∈ bs := by
  unfold recordStore
  induction bs generalizing known with
  | nil => simp
  | cons x bs ih =>
    rw [List.foldl_cons, ih]
    by_cases hx : isStored known x = true
    · rw [if_pos hx, List.mem_cons]
      by_cases he : e.bundle = x
      · simp [he, hx]
      · simp [he]
    · rw [if_neg hx, List.mem_append, List.mem_singleton, List.mem_cons]
      have hs : isStored (known ++ [⟨x, a⟩]) e.bundle = (isStored known e.bundle || x == e.bundle) := by simp [isStored]
      rw [hs]
      obtain ⟨b, c⟩ := e
      simp only [Stored.mk.injEq, Bool.or_eq_false_iff, beq_eq_false_iff_ne]
      rw [Bool.not_eq_true] at hx
      by_cases he : b = x
      · subst he; simp [hx]
      · simp [he, Ne.symm he]

theorem firstStore_eq_none_iff (known : List Stored) (bs : List Word) :
    firstStore known bs = none ↔ ∀ e ∈ known, e.bundle ∉ bs := by
  simp [firstStore]

theorem isCode_iff (s : State) (b : Word) :
    isCode s b = true ↔
      b ∈ s.fetchedBundles ∨ ∃ r ∈ s.config.programText.getD [], r.base ≤ b.toNat ∧ b.toNat < r.base + r.size := by
  rw [isCode, inText, Bool.or_eq_true, inRegions_iff, List.contains_iff_mem]

/-! ## The two accesses -/

/-- All a load's read can answer. -/
theorem memRead_cases (s : State) (a : Word) (n : Nat) :
    (misaligned s.config a n = true ∧ memRead s a n = .error (.misalignedAccess a)) ∨
    (misaligned s.config a n = false ∧ allMapped s.config a n = false ∧
      memRead s a n = .error (.accessFault a .loadOutsideMap)) ∨
    (misaligned s.config a n = false ∧ allMapped s.config a n = true ∧
      memRead s a n = .ok (bytesValue (readCells s.mem a n))) := by
  unfold memRead
  cases misaligned s.config a n <;> cases allMapped s.config a n <;> simp

/-- All a store's write can answer. -/
theorem memWrite_cases (s : State) (a : Word) (n : Nat) (v : Word) :
    (misaligned s.config a n = true ∧ memWrite s a n v = .error (.misalignedAccess a)) ∨
    (misaligned s.config a n = false ∧ allMapped s.config a n = false ∧
      memWrite s a n v = .error (.accessFault a .storeOutsideMap)) ∨
    (misaligned s.config a n = false ∧ allMapped s.config a n = true ∧
      (bundlesOf a n).any (isCode s) = true ∧ memWrite s a n v = .error (.accessFault a .storeToCode)) ∨
    (misaligned s.config a n = false ∧ allMapped s.config a n = true ∧
      (bundlesOf a n).any (isCode s) = false ∧
      memWrite s a n v = .ok { s with
        mem := writeCells s.mem a (valueBytes n v.toNat)
        storedBundles := recordStore s.storedBundles a (bundlesOf a n) }) := by
  unfold memWrite
  cases misaligned s.config a n <;> cases allMapped s.config a n <;>
    cases (bundlesOf a n).any (isCode s) <;> simp

/-- Reset memory is canonical. -/
theorem reset_mem_wf : Memory.wf State.reset.mem :=
  ⟨List.Pairwise.nil, fun _ h => by simp [State.reset] at h⟩

end Sys2Proof.Machine
end

