-- ==== Sys2Proof/Laws/State.lean ====
section
/-! SUPPORT. What each update of the state does to each field, and to the registers and flags read through the accessors. -/

namespace Sys2Proof.Machine

/-! ## writeX -/

@[simp] theorem writeX_cars (s : State) (r : Gpr) (v : Word) : (writeX s r v).cars = s.cars := by
  unfold writeX; split <;> rfl
@[simp] theorem writeX_preds (s : State) (r : Gpr) (v : Word) : (writeX s r v).preds = s.preds := by
  unfold writeX; split <;> rfl
@[simp] theorem writeX_pc (s : State) (r : Gpr) (v : Word) : (writeX s r v).pc = s.pc := by
  unfold writeX; split <;> rfl
@[simp] theorem writeX_slot (s : State) (r : Gpr) (v : Word) : (writeX s r v).slot = s.slot := by
  unfold writeX; split <;> rfl
@[simp] theorem writeX_mem (s : State) (r : Gpr) (v : Word) : (writeX s r v).mem = s.mem := by
  unfold writeX; split <;> rfl
@[simp] theorem writeX_group (s : State) (r : Gpr) (v : Word) : (writeX s r v).group = s.group := by
  unfold writeX; split <;> rfl
@[simp] theorem writeX_fetchedBundles (s : State) (r : Gpr) (v : Word) : (writeX s r v).fetchedBundles = s.fetchedBundles := by
  unfold writeX; split <;> rfl
@[simp] theorem writeX_storedBundles (s : State) (r : Gpr) (v : Word) : (writeX s r v).storedBundles = s.storedBundles := by
  unfold writeX; split <;> rfl
@[simp] theorem writeX_config (s : State) (r : Gpr) (v : Word) : (writeX s r v).config = s.config := by
  unfold writeX; split <;> rfl

/-! ## writeC -/

@[simp] theorem writeC_gprs (s : State) (c : CodeReg) (v : Word) : (writeC s c v).gprs = s.gprs := by
  unfold writeC; split <;> rfl
@[simp] theorem writeC_preds (s : State) (c : CodeReg) (v : Word) : (writeC s c v).preds = s.preds := by
  unfold writeC; split <;> rfl
@[simp] theorem writeC_pc (s : State) (c : CodeReg) (v : Word) : (writeC s c v).pc = s.pc := by
  unfold writeC; split <;> rfl
@[simp] theorem writeC_slot (s : State) (c : CodeReg) (v : Word) : (writeC s c v).slot = s.slot := by
  unfold writeC; split <;> rfl
@[simp] theorem writeC_mem (s : State) (c : CodeReg) (v : Word) : (writeC s c v).mem = s.mem := by
  unfold writeC; split <;> rfl
@[simp] theorem writeC_group (s : State) (c : CodeReg) (v : Word) : (writeC s c v).group = s.group := by
  unfold writeC; split <;> rfl
@[simp] theorem writeC_fetchedBundles (s : State) (c : CodeReg) (v : Word) : (writeC s c v).fetchedBundles = s.fetchedBundles := by
  unfold writeC; split <;> rfl
@[simp] theorem writeC_storedBundles (s : State) (c : CodeReg) (v : Word) : (writeC s c v).storedBundles = s.storedBundles := by
  unfold writeC; split <;> rfl
@[simp] theorem writeC_config (s : State) (c : CodeReg) (v : Word) : (writeC s c v).config = s.config := by
  unfold writeC; split <;> rfl

/-! ## writeP -/

@[simp] theorem writeP_gprs (s : State) (q : PredReg) (f : Flags) : (writeP s q f).gprs = s.gprs := rfl
@[simp] theorem writeP_cars (s : State) (q : PredReg) (f : Flags) : (writeP s q f).cars = s.cars := rfl
@[simp] theorem writeP_pc (s : State) (q : PredReg) (f : Flags) : (writeP s q f).pc = s.pc := rfl
@[simp] theorem writeP_slot (s : State) (q : PredReg) (f : Flags) : (writeP s q f).slot = s.slot := rfl
@[simp] theorem writeP_mem (s : State) (q : PredReg) (f : Flags) : (writeP s q f).mem = s.mem := rfl
@[simp] theorem writeP_group (s : State) (q : PredReg) (f : Flags) : (writeP s q f).group = s.group := rfl
@[simp] theorem writeP_fetchedBundles (s : State) (q : PredReg) (f : Flags) : (writeP s q f).fetchedBundles = s.fetchedBundles := rfl
@[simp] theorem writeP_storedBundles (s : State) (q : PredReg) (f : Flags) : (writeP s q f).storedBundles = s.storedBundles := rfl
@[simp] theorem writeP_config (s : State) (q : PredReg) (f : Flags) : (writeP s q f).config = s.config := rfl

/-! ## advance -/

@[simp] theorem advance_gprs (s : State) (len : Nat) : (advance s len).gprs = s.gprs := by
  unfold advance; split <;> rfl
@[simp] theorem advance_cars (s : State) (len : Nat) : (advance s len).cars = s.cars := by
  unfold advance; split <;> rfl
@[simp] theorem advance_preds (s : State) (len : Nat) : (advance s len).preds = s.preds := by
  unfold advance; split <;> rfl
@[simp] theorem advance_mem (s : State) (len : Nat) : (advance s len).mem = s.mem := by
  unfold advance; split <;> rfl
@[simp] theorem advance_group (s : State) (len : Nat) : (advance s len).group = s.group := by
  unfold advance; split <;> rfl
@[simp] theorem advance_fetchedBundles (s : State) (len : Nat) : (advance s len).fetchedBundles = s.fetchedBundles := by
  unfold advance; split <;> rfl
@[simp] theorem advance_storedBundles (s : State) (len : Nat) : (advance s len).storedBundles = s.storedBundles := by
  unfold advance; split <;> rfl
@[simp] theorem advance_config (s : State) (len : Nat) : (advance s len).config = s.config := by
  unfold advance; split <;> rfl

/-! ## jumpTo -/

@[simp] theorem jumpTo_gprs (s : State) (a : Word) : (jumpTo s a).gprs = s.gprs := rfl
@[simp] theorem jumpTo_cars (s : State) (a : Word) : (jumpTo s a).cars = s.cars := rfl
@[simp] theorem jumpTo_preds (s : State) (a : Word) : (jumpTo s a).preds = s.preds := rfl
@[simp] theorem jumpTo_pc (s : State) (a : Word) : (jumpTo s a).pc = a := rfl
@[simp] theorem jumpTo_slot (s : State) (a : Word) : (jumpTo s a).slot = 0 := rfl
@[simp] theorem jumpTo_mem (s : State) (a : Word) : (jumpTo s a).mem = s.mem := rfl
@[simp] theorem jumpTo_group (s : State) (a : Word) : (jumpTo s a).group = [] := rfl
@[simp] theorem jumpTo_fetchedBundles (s : State) (a : Word) : (jumpTo s a).fetchedBundles = s.fetchedBundles := rfl
@[simp] theorem jumpTo_storedBundles (s : State) (a : Word) : (jumpTo s a).storedBundles = s.storedBundles := rfl
@[simp] theorem jumpTo_config (s : State) (a : Word) : (jumpTo s a).config = s.config := rfl

/-! ## goTo -/

@[simp] theorem goTo_gprs (s : State) (a : Word) : (goTo s a).gprs = s.gprs := rfl
@[simp] theorem goTo_cars (s : State) (a : Word) : (goTo s a).cars = s.cars := rfl
@[simp] theorem goTo_preds (s : State) (a : Word) : (goTo s a).preds = s.preds := rfl
@[simp] theorem goTo_pc (s : State) (a : Word) : (goTo s a).pc = a := rfl
@[simp] theorem goTo_slot (s : State) (a : Word) : (goTo s a).slot = 0 := rfl
@[simp] theorem goTo_mem (s : State) (a : Word) : (goTo s a).mem = s.mem := rfl
@[simp] theorem goTo_group (s : State) (a : Word) : (goTo s a).group = s.group := rfl
@[simp] theorem goTo_fetchedBundles (s : State) (a : Word) : (goTo s a).fetchedBundles = s.fetchedBundles := rfl
@[simp] theorem goTo_storedBundles (s : State) (a : Word) : (goTo s a).storedBundles = s.storedBundles := rfl
@[simp] theorem goTo_config (s : State) (a : Word) : (goTo s a).config = s.config := rfl

/-! ## issued -/

@[simp] theorem issued_gprs (s : State) (b : Bundle) (len : Nat) (ds : List Resource) : (issued s b len ds).gprs = s.gprs := rfl
@[simp] theorem issued_cars (s : State) (b : Bundle) (len : Nat) (ds : List Resource) : (issued s b len ds).cars = s.cars := rfl
@[simp] theorem issued_preds (s : State) (b : Bundle) (len : Nat) (ds : List Resource) : (issued s b len ds).preds = s.preds := rfl
@[simp] theorem issued_pc (s : State) (b : Bundle) (len : Nat) (ds : List Resource) : (issued s b len ds).pc = s.pc := rfl
@[simp] theorem issued_slot (s : State) (b : Bundle) (len : Nat) (ds : List Resource) : (issued s b len ds).slot = s.slot := rfl
@[simp] theorem issued_mem (s : State) (b : Bundle) (len : Nat) (ds : List Resource) : (issued s b len ds).mem = s.mem := rfl
@[simp] theorem issued_storedBundles (s : State) (b : Bundle) (len : Nat) (ds : List Resource) : (issued s b len ds).storedBundles = s.storedBundles := rfl
@[simp] theorem issued_config (s : State) (b : Bundle) (len : Nat) (ds : List Resource) : (issued s b len ds).config = s.config := rfl

@[simp] theorem writeP_preds (s : State) (q : PredReg) (f : Flags) : (writeP s q f).preds = s.preds.set q f := rfl

@[simp] theorem issued_group (s : State) (b : Bundle) (len : Nat) (ds : List Resource) :
    (issued s b len ds).group = groupAfter s b len ds := rfl

@[simp] theorem issued_fetchedBundles (s : State) (b : Bundle) (len : Nat) (ds : List Resource) :
    (issued s b len ds).fetchedBundles = addBundles s.fetchedBundles (bundlesOf s.pc 16) := rfl

/-! ## Registers read after an update -/

@[simp] theorem readX_zero (s : State) : readX s 0 = 0 := rfl

@[simp] theorem readC_zero (s : State) : readC s 0 = 0 := rfl

@[simp] theorem readC_seven (s : State) : readC s 7 = s.pc := rfl

/-- A general register depends on the register file alone. -/
theorem readX_congr {s t : State} (h : t.gprs = s.gprs) (r : Gpr) : readX t r = readX s r := by
  simp [readX, h]

/-- A predicate register depends on the predicate file alone. -/
theorem readP_congr {s t : State} (h : t.preds = s.preds) (q : PredReg) : readP t q = readP s q := by
  simp [readP, h]

/-- A code address register other than C7 depends on its file alone. -/
theorem readC_congr {s t : State} (h : t.cars = s.cars) {c : CodeReg} (hc : c ≠ 7) : readC t c = readC s c := by
  simp [readC, h, hc]

theorem readX_writeX (s : State) (r q : Gpr) (v : Word) :
    readX (writeX s r v) q = if q = r ∧ q ≠ 0 then v else readX s q := by
  by_cases hr : r = 0
  · subst hr; by_cases hq : q = 0 <;> simp [writeX, hq]
  · by_cases hq : q = 0
    · simp [hq]
    · by_cases hqr : q = r
      · subst hqr; simp [readX, writeX, hq]
      · have : (r : Nat) ≠ q := fun h => hqr (Fin.ext h.symm)
        simp [readX, writeX, hr, hq, hqr, this]

theorem readC_writeC (s : State) (c d : CodeReg) (v : Word) :
    readC (writeC s c v) d = if d = c ∧ d ≠ 0 ∧ d ≠ 7 then v else readC s d := by
  by_cases h0 : d = 0
  · simp [h0]
  · by_cases h7 : d = 7
    · simp [h7]
    · by_cases hdc : d = c
      · subst hdc; simp [readC, writeC, h0, h7]
      · have : (c : Nat) ≠ d := fun h => hdc (Fin.ext h.symm)
        by_cases hc : c = 0 ∨ c = 7 <;> simp [readC, writeC, h0, h7, hdc, hc, this]

theorem readP_writeP (s : State) (q r : PredReg) (f : Flags) :
    readP (writeP s q f) r = if r = q then f else readP s r := by
  by_cases h : r = q
  · subst h; simp [readP, writeP]
  · have : (q : Nat) ≠ r := fun e => h (Fin.ext e.symm)
    simp [readP, writeP, h, this]

@[simp] theorem readP_writeX (s : State) (r : Gpr) (v : Word) (y : PredReg) : readP (writeX s r v) y = readP s y := readP_congr (by simp) y
@[simp] theorem readC_writeX (s : State) (r : Gpr) (v : Word) (d : CodeReg) : readC (writeX s r v) d = readC s d := by
  by_cases h : d = 7
  · subst h; simp
  · exact readC_congr (by simp) h
@[simp] theorem readX_writeC (s : State) (c : CodeReg) (v : Word) (x : Gpr) : readX (writeC s c v) x = readX s x := readX_congr (by simp) x
@[simp] theorem readP_writeC (s : State) (c : CodeReg) (v : Word) (y : PredReg) : readP (writeC s c v) y = readP s y := readP_congr (by simp) y
@[simp] theorem readX_writeP (s : State) (q : PredReg) (f : Flags) (x : Gpr) : readX (writeP s q f) x = readX s x := readX_congr (by simp) x
@[simp] theorem readC_writeP (s : State) (q : PredReg) (f : Flags) (d : CodeReg) : readC (writeP s q f) d = readC s d := by
  by_cases h : d = 7
  · subst h; simp
  · exact readC_congr (by simp) h
@[simp] theorem readX_advance (s : State) (len : Nat) (x : Gpr) : readX (advance s len) x = readX s x := readX_congr (by simp) x
@[simp] theorem readP_advance (s : State) (len : Nat) (y : PredReg) : readP (advance s len) y = readP s y := readP_congr (by simp) y
@[simp] theorem readX_jumpTo (s : State) (a : Word) (x : Gpr) : readX (jumpTo s a) x = readX s x := readX_congr (by simp) x
@[simp] theorem readP_jumpTo (s : State) (a : Word) (y : PredReg) : readP (jumpTo s a) y = readP s y := readP_congr (by simp) y
@[simp] theorem readX_goTo (s : State) (a : Word) (x : Gpr) : readX (goTo s a) x = readX s x := readX_congr (by simp) x
@[simp] theorem readP_goTo (s : State) (a : Word) (y : PredReg) : readP (goTo s a) y = readP s y := readP_congr (by simp) y
@[simp] theorem readX_issued (s : State) (b : Bundle) (len : Nat) (ds : List Resource) (x : Gpr) : readX (issued s b len ds) x = readX s x := readX_congr (by simp) x
@[simp] theorem readP_issued (s : State) (b : Bundle) (len : Nat) (ds : List Resource) (y : PredReg) : readP (issued s b len ds) y = readP s y := readP_congr (by simp) y
@[simp] theorem readC_issued (s : State) (b : Bundle) (len : Nat) (ds : List Resource) (d : CodeReg) : readC (issued s b len ds) d = readC s d := by
  by_cases h : d = 7
  · subst h; simp
  · exact readC_congr (by simp) h

/-! ## The position -/

/-- Where an instruction that did not jump leaves the position (spec/40_execution_model.md R150). -/
theorem advance_position (s : State) (len : Nat) :
    (s.slot.val + len < 3 ∧ (advance s len).pc = s.pc ∧ (advance s len).slot.val = s.slot.val + len) ∨
    (3 ≤ s.slot.val + len ∧ (advance s len).pc = s.pc + 16 ∧ (advance s len).slot = 0) := by
  by_cases h : s.slot.val + len < 3
  · exact .inl ⟨h, by simp [advance, h], by simp [advance, h]⟩
  · exact .inr ⟨by omega, by simp [advance, h], by simp [advance, h]⟩

end Sys2Proof.Machine
end

