-- ==== Sys2Proof/Laws/Exec.lean ====
section
/-! SUPPORT. What each shared form can do, once: the states an instruction can complete with. -/

namespace Sys2Proof.Machine

/-! ## The predicate guard -/

theorem guarded_of_passes {p : Pred} {s : State} (h : Passes p s) (len : Nat) (op : State → Result) :
    guarded p len s op = op s := by
  simp [guarded, show predTest p.cond (readP s p.reg) = true from h]

theorem guarded_of_fails {p : Pred} {s : State} (h : ¬ Passes p s) (len : Nat) (op : State → Result) :
    guarded p len s op = .next (advance s len) := by
  simp [guarded, show ¬ predTest p.cond (readP s p.reg) = true from h]

/-- A guarded operation completes by the advance alone, or as the operation does. -/
theorem guarded_next {p : Pred} {len : Nat} {s t : State} {op : State → Result} (h : guarded p len s op = .next t) :
    t = advance s len ∨ op s = .next t := by
  unfold guarded at h
  split at h
  · exact .inr h
  · exact .inl (by cases h; rfl)

/-- An operation that fails under a guard: its predicate test passed. -/
theorem guarded_fault {p : Pred} {len : Nat} {s : State} {op : State → Result} {f : Fault}
    (h : guarded p len s op = .fault f) : Passes p s ∧ op s = .fault f := by
  unfold guarded at h
  split at h
  · exact ⟨by assumption, h⟩
  · cases h

/-! ## The exception -/

theorem takeException_next {e : Exception} {s t : State} (h : takeException e s = .next t) :
    ∃ v, s.config.trapVector = some v ∧ t = goTo (writeC s 6 s.pc) v := by
  unfold takeException at h
  split at h
  · rename_i v hv
    exact ⟨v, hv, by cases h; rfl⟩
  · cases h

/-! ## The forms -/

theorem setX_next {p : Pred} {rt : Gpr} {s t : State} {value : State → Word} (h : setX p rt s value = .next t) :
    t = advance s 1 ∨ t = advance (writeX s rt (value s)) 1 := by
  rcases guarded_next h with h | h
  · exact .inl h
  · exact .inr (by cases h; rfl)

theorem overflowForm_next {o : Word → Word → Bool} {op : Word → Word → Word} {p : Pred} {rt ra rb : Gpr} {s t : State}
    (h : overflowForm o op p rt ra rb s = .next t) :
    t = advance s 1 ∨ t = advance (writeX s rt (op (readX s ra) (readX s rb))) 1 ∨
    ∃ v, s.config.trapVector = some v ∧ t = goTo (writeC s 6 s.pc) v := by
  rcases guarded_next h with h | h
  · exact .inl h
  · split at h
    · exact .inr (.inr (takeException_next h))
    · exact .inr (.inl (by cases h; rfl))

theorem setP_next {p : Pred} {pt : PredReg} {s t : State} {flags : State → Flags} (h : setP p pt s flags = .next t) :
    t = advance s 1 ∨ t = advance (writeP s pt (flags s)) 1 := by
  rcases guarded_next h with h | h
  · exact .inl h
  · exact .inr (by cases h; rfl)

theorem jumpAndLink_next {ct ca : CodeReg} {off : Word} {s t : State} (h : jumpAndLink ct ca off s = .next t) :
    (readC s ca + off).toNat % 16 = 0 ∧ t = jumpTo (writeC s ct (s.pc + 16)) (readC s ca + off) := by
  unfold jumpAndLink at h
  dsimp only at h
  split at h
  · exact ⟨by assumption, by cases h; rfl⟩
  · cases h

theorem loadForm_next {e : Extension} {n : Nat} {p : Pred} {rt ra : Gpr} {d : BitVec 14} {s t : State}
    (h : loadForm e n p rt ra d s = .next t) :
    t = advance s 1 ∨ ∃ v, memRead s (effAddr s ra d) n = .ok v ∧ t = advance (writeX s rt (loadedValue e n v)) 1 := by
  rcases guarded_next h with h | h
  · exact .inl h
  · split at h
    · rename_i v hv
      exact .inr ⟨v, hv, by cases h; rfl⟩
    · cases h

theorem storeForm_next {n : Nat} {p : Pred} {rb ra : Gpr} {d : BitVec 14} {s t : State}
    (h : storeForm n p rb ra d s = .next t) :
    t = advance s 1 ∨ ∃ s', memWrite s (effAddr s ra d) n (readX s rb) = .ok s' ∧ t = advance s' 1 := by
  rcases guarded_next h with h | h
  · exact .inl h
  · split at h
    · rename_i s' hs
      exact .inr ⟨s', hs, by cases h; rfl⟩
    · cases h

/-- All a successful store does to the state. -/
theorem memWrite_ok {s s' : State} {a : Word} {n : Nat} {v : Word} (h : memWrite s a n v = .ok s') :
    misaligned s.config a n = false ∧ allMapped s.config a n = true ∧
    (bundlesOf a n).any (isCode s) = false ∧
    s' = { s with
      mem := writeCells s.mem a (valueBytes n v.toNat)
      storedBundles := recordStore s.storedBundles a (bundlesOf a n) } := by
  rcases memWrite_cases s a n v with ⟨_, h'⟩ | ⟨_, _, h'⟩ | ⟨_, _, _, h'⟩ | ⟨h1, h2, h3, h'⟩
  · rw [h'] at h; cases h
  · rw [h'] at h; cases h
  · rw [h'] at h; cases h
  · rw [h'] at h; cases h; exact ⟨h1, h2, h3, rfl⟩

/-! ## The meanings, as forms -/

theorem exec_addi (p : Pred) (rt ra : Gpr) (imm : BitVec 14) (s : State) :
    exec (.addi p rt ra imm) s = setX p rt s fun t => readX t ra + immValue imm := rfl

theorem exec_andi (p : Pred) (rt ra : Gpr) (imm : BitVec 14) (s : State) :
    exec (.andi p rt ra imm) s = setX p rt s fun t => readX t ra &&& immValue imm := rfl

theorem exec_ori (p : Pred) (rt ra : Gpr) (imm : BitVec 14) (s : State) :
    exec (.ori p rt ra imm) s = setX p rt s fun t => readX t ra ||| immValue imm := rfl

theorem exec_eori (p : Pred) (rt ra : Gpr) (imm : BitVec 14) (s : State) :
    exec (.eori p rt ra imm) s = setX p rt s fun t => readX t ra ^^^ immValue imm := rfl

theorem exec_and (p : Pred) (rt ra rb : Gpr) (s : State) :
    exec (.and p rt ra rb) s = setX p rt s fun t => readX t ra &&& readX t rb := rfl

theorem exec_or (p : Pred) (rt ra rb : Gpr) (s : State) :
    exec (.or p rt ra rb) s = setX p rt s fun t => readX t ra ||| readX t rb := rfl

theorem exec_eor (p : Pred) (rt ra rb : Gpr) (s : State) :
    exec (.eor p rt ra rb) s = setX p rt s fun t => readX t ra ^^^ readX t rb := rfl

theorem exec_andcm (p : Pred) (rt ra rb : Gpr) (s : State) :
    exec (.andcm p rt ra rb) s = setX p rt s fun t => readX t ra &&& ~~~readX t rb := rfl

theorem exec_nand (p : Pred) (rt ra rb : Gpr) (s : State) :
    exec (.nand p rt ra rb) s = setX p rt s fun t => ~~~(readX t ra &&& readX t rb) := rfl

theorem exec_nor (p : Pred) (rt ra rb : Gpr) (s : State) :
    exec (.nor p rt ra rb) s = setX p rt s fun t => ~~~(readX t ra ||| readX t rb) := rfl

theorem exec_enor (p : Pred) (rt ra rb : Gpr) (s : State) :
    exec (.enor p rt ra rb) s = setX p rt s fun t => ~~~(readX t ra ^^^ readX t rb) := rfl

theorem exec_add (p : Pred) (rt ra rb : Gpr) (s : State) :
    exec (.add p rt ra rb) s = overflowForm addOverflow (fun a b => a + b) p rt ra rb s := rfl

theorem exec_sub (p : Pred) (rt ra rb : Gpr) (s : State) :
    exec (.sub p rt ra rb) s = overflowForm subOverflow (fun a b => a - b) p rt ra rb s := rfl

theorem exec_cmpi (p : Pred) (pt : PredReg) (ra : Gpr) (imm : BitVec 14) (s : State) :
    exec (.cmpi p pt ra imm) s = setP p pt s fun t => cmpFlags (readX t ra) (immValue imm) := rfl

theorem exec_biti (p : Pred) (pt : PredReg) (ra : Gpr) (imm : BitVec 14) (s : State) :
    exec (.biti p pt ra imm) s = setP p pt s fun t => bitFlags (readX t ra) (immValue imm) := rfl

theorem exec_cmp (p : Pred) (pt : PredReg) (ra rb : Gpr) (s : State) :
    exec (.cmp p pt ra rb) s = setP p pt s fun t => cmpFlags (readX t ra) (readX t rb) := rfl

theorem exec_movi (p : Pred) (rt : Gpr) (imm : Word) (s : State) :
    exec (.movi p rt imm) s = guarded p 2 s fun t => .next (advance (writeX t rt imm) 2) := rfl

theorem exec_jmp (p : Pred) (ct ca : CodeReg) (addr : BitVec 20) (s : State) :
    exec (.jmp p ct ca addr) s = guarded p 1 s (jumpAndLink ct ca (jmpOffset addr)) := rfl

theorem exec_jml (p : Pred) (ct ca : CodeReg) (addr : BitVec 60) (s : State) :
    exec (.jml p ct ca addr) s = guarded p 2 s (jumpAndLink ct ca (jmlOffset addr)) := rfl

theorem exec_ld8s (p : Pred) (rt ra : Gpr) (d : BitVec 14) (s : State) :
    exec (.ld8s p rt ra d) s = loadForm .sign 1 p rt ra d s := rfl

theorem exec_ld8u (p : Pred) (rt ra : Gpr) (d : BitVec 14) (s : State) :
    exec (.ld8u p rt ra d) s = loadForm .zero 1 p rt ra d s := rfl

theorem exec_ld16s (p : Pred) (rt ra : Gpr) (d : BitVec 14) (s : State) :
    exec (.ld16s p rt ra d) s = loadForm .sign 2 p rt ra d s := rfl

theorem exec_ld16u (p : Pred) (rt ra : Gpr) (d : BitVec 14) (s : State) :
    exec (.ld16u p rt ra d) s = loadForm .zero 2 p rt ra d s := rfl

theorem exec_ld32s (p : Pred) (rt ra : Gpr) (d : BitVec 14) (s : State) :
    exec (.ld32s p rt ra d) s = loadForm .sign 4 p rt ra d s := rfl

theorem exec_ld32u (p : Pred) (rt ra : Gpr) (d : BitVec 14) (s : State) :
    exec (.ld32u p rt ra d) s = loadForm .zero 4 p rt ra d s := rfl

theorem exec_ld64 (p : Pred) (rt ra : Gpr) (d : BitVec 14) (s : State) :
    exec (.ld64 p rt ra d) s = loadForm .zero 8 p rt ra d s := rfl

theorem exec_st8 (p : Pred) (rb ra : Gpr) (d : BitVec 14) (s : State) :
    exec (.st8 p rb ra d) s = storeForm 1 p rb ra d s := rfl

theorem exec_st16 (p : Pred) (rb ra : Gpr) (d : BitVec 14) (s : State) :
    exec (.st16 p rb ra d) s = storeForm 2 p rb ra d s := rfl

theorem exec_st32 (p : Pred) (rb ra : Gpr) (d : BitVec 14) (s : State) :
    exec (.st32 p rb ra d) s = storeForm 4 p rb ra d s := rfl

theorem exec_st64 (p : Pred) (rb ra : Gpr) (d : BitVec 14) (s : State) :
    exec (.st64 p rb ra d) s = storeForm 8 p rb ra d s := rfl

theorem exec_nop (s : State) : exec .nop s = .next (advance s 1) := rfl

/-! ## Instructions of one shape -/

/-- A load is the load form under its own predicate. -/
theorem exec_of_isLoad {i : Instr} {ra : Gpr} {d : BitVec 14} {n : Nat} (hi : dataAccess i = some (ra, d, n))
    (hl : isLoad i = true) : 0 < n ∧ n ≤ 8 ∧
      ∃ e rt, ∀ s, exec i s = loadForm e n i.pred rt ra d s := by
  cases i <;> first
    | cases hl; done
    | (cases hi; exact ⟨by omega, by omega, _, _, fun _ => rfl⟩)

/-- A store is the store form under its own predicate. -/
theorem exec_of_isStore {i : Instr} {ra : Gpr} {d : BitVec 14} {n : Nat} (hi : dataAccess i = some (ra, d, n))
    (hs : isStore i = true) : 0 < n ∧ n ≤ 8 ∧ ∃ rb, ∀ s, exec i s = storeForm n i.pred rb ra d s := by
  cases i <;> first
    | cases hs; done
    | (cases hi; exact ⟨by omega, by omega, _, fun _ => rfl⟩)

/-- An instruction that accesses data is a load or a store. -/
theorem isLoad_or_isStore {i : Instr} {x : Gpr × BitVec 14 × Nat} (hi : dataAccess i = some x) :
    (isLoad i = true ∧ isStore i = false) ∨ (isLoad i = false ∧ isStore i = true) := by
  cases i <;> first
    | cases hi; done
    | exact .inl ⟨rfl, rfl⟩
    | exact .inr ⟨rfl, rfl⟩

/-- Every instruction is an operation under its own predicate and of its own length. -/
theorem exec_guarded (i : Instr) : ∃ op : State → Result, ∀ s, exec i s = guarded i.pred i.slots s op := by
  cases i with
  | nop => exact ⟨fun s => .next s, fun _ => rfl⟩
  | add p rt ra rb => exact ⟨_, fun s => by rw [exec_add, overflowForm]; rfl⟩
  | sub p rt ra rb => exact ⟨_, fun s => by rw [exec_sub, overflowForm]; rfl⟩
  | _ => exact ⟨_, fun _ => rfl⟩

/-! ## Every instruction -/

/-- The states an instruction can complete with: the advance alone; one register written; a compare's flags; a jump; the
exception; a store. -/
inductive Effect (i : Instr) (s : State) : State → Prop where
  | moved : Effect i s (advance s i.slots)
  | wroteX (rt : Gpr) (v : Word) (hi : operandDests i = gprRes rt) : Effect i s (advance (writeX s rt v) i.slots)
  | wroteP (pt : PredReg) (f : Flags) (hi : isCompare i = true) (hd : operandDests i = [.pred pt]) :
      Effect i s (advance (writeP s pt f) i.slots)
  | jumped (ct ca : CodeReg) (off : Word) (hi : isJump i = true) (hd : operandDests i = carRes ct)
      (ha : (readC s ca + off).toNat % 16 = 0) : Effect i s (jumpTo (writeC s ct (s.pc + 16)) (readC s ca + off))
  | trapped (v : Word) (hi : (∃ p rt ra rb, i = .add p rt ra rb) ∨ (∃ p rt ra rb, i = .sub p rt ra rb))
      (hv : s.config.trapVector = some v) : Effect i s (goTo (writeC s 6 s.pc) v)
  | stored (a : Word) (n : Nat) (v : Word) (s' : State) (hi : isStore i = true) (hn : 0 < n) (h8 : n ≤ 8)
      (hw : memWrite s a n v = .ok s') : Effect i s (advance s' i.slots)

/-- What an instruction can do when it completes. -/
theorem exec_next {i : Instr} {s t : State} (h : exec i s = .next t) : Effect i s t := by
  cases i with
  | addi p rt ra imm =>
    rw [exec_addi] at h
    rcases setX_next h with rfl | rfl
    exacts [.moved, .wroteX rt _ rfl]
  | andi p rt ra imm =>
    rw [exec_andi] at h
    rcases setX_next h with rfl | rfl
    exacts [.moved, .wroteX rt _ rfl]
  | ori p rt ra imm =>
    rw [exec_ori] at h
    rcases setX_next h with rfl | rfl
    exacts [.moved, .wroteX rt _ rfl]
  | eori p rt ra imm =>
    rw [exec_eori] at h
    rcases setX_next h with rfl | rfl
    exacts [.moved, .wroteX rt _ rfl]
  | cmpi p pt ra imm =>
    rw [exec_cmpi] at h
    rcases setP_next h with rfl | rfl
    exacts [.moved, .wroteP pt _ rfl rfl]
  | biti p pt ra imm =>
    rw [exec_biti] at h
    rcases setP_next h with rfl | rfl
    exacts [.moved, .wroteP pt _ rfl rfl]
  | cmp p pt ra rb =>
    rw [exec_cmp] at h
    rcases setP_next h with rfl | rfl
    exacts [.moved, .wroteP pt _ rfl rfl]
  | add p rt ra rb =>
    rw [exec_add] at h
    rcases overflowForm_next h with rfl | rfl | ⟨v, hv, rfl⟩
    exacts [.moved, .wroteX rt _ rfl, .trapped v (.inl ⟨p, rt, ra, rb, rfl⟩) hv]
  | sub p rt ra rb =>
    rw [exec_sub] at h
    rcases overflowForm_next h with rfl | rfl | ⟨v, hv, rfl⟩
    exacts [.moved, .wroteX rt _ rfl, .trapped v (.inr ⟨p, rt, ra, rb, rfl⟩) hv]
  | and p rt ra rb =>
    rw [exec_and] at h
    rcases setX_next h with rfl | rfl
    exacts [.moved, .wroteX rt _ rfl]
  | or p rt ra rb =>
    rw [exec_or] at h
    rcases setX_next h with rfl | rfl
    exacts [.moved, .wroteX rt _ rfl]
  | eor p rt ra rb =>
    rw [exec_eor] at h
    rcases setX_next h with rfl | rfl
    exacts [.moved, .wroteX rt _ rfl]
  | andcm p rt ra rb =>
    rw [exec_andcm] at h
    rcases setX_next h with rfl | rfl
    exacts [.moved, .wroteX rt _ rfl]
  | nand p rt ra rb =>
    rw [exec_nand] at h
    rcases setX_next h with rfl | rfl
    exacts [.moved, .wroteX rt _ rfl]
  | nor p rt ra rb =>
    rw [exec_nor] at h
    rcases setX_next h with rfl | rfl
    exacts [.moved, .wroteX rt _ rfl]
  | enor p rt ra rb =>
    rw [exec_enor] at h
    rcases setX_next h with rfl | rfl
    exacts [.moved, .wroteX rt _ rfl]
  | movi p rt imm =>
    rw [exec_movi] at h
    rcases guarded_next h with rfl | h
    · exact .moved
    · cases h; exact .wroteX rt imm rfl
  | jmp p ct ca addr =>
    rw [exec_jmp] at h
    rcases guarded_next h with rfl | h
    · exact .moved
    · obtain ⟨ha, rfl⟩ := jumpAndLink_next h; exact .jumped ct ca _ rfl rfl ha
  | jml p ct ca addr =>
    rw [exec_jml] at h
    rcases guarded_next h with rfl | h
    · exact .moved
    · obtain ⟨ha, rfl⟩ := jumpAndLink_next h; exact .jumped ct ca _ rfl rfl ha
  | ld8s p rt ra d =>
    rw [exec_ld8s] at h
    rcases loadForm_next h with rfl | ⟨v, _, rfl⟩
    exacts [.moved, .wroteX rt _ rfl]
  | ld8u p rt ra d =>
    rw [exec_ld8u] at h
    rcases loadForm_next h with rfl | ⟨v, _, rfl⟩
    exacts [.moved, .wroteX rt _ rfl]
  | ld16s p rt ra d =>
    rw [exec_ld16s] at h
    rcases loadForm_next h with rfl | ⟨v, _, rfl⟩
    exacts [.moved, .wroteX rt _ rfl]
  | ld16u p rt ra d =>
    rw [exec_ld16u] at h
    rcases loadForm_next h with rfl | ⟨v, _, rfl⟩
    exacts [.moved, .wroteX rt _ rfl]
  | ld32s p rt ra d =>
    rw [exec_ld32s] at h
    rcases loadForm_next h with rfl | ⟨v, _, rfl⟩
    exacts [.moved, .wroteX rt _ rfl]
  | ld32u p rt ra d =>
    rw [exec_ld32u] at h
    rcases loadForm_next h with rfl | ⟨v, _, rfl⟩
    exacts [.moved, .wroteX rt _ rfl]
  | ld64 p rt ra d =>
    rw [exec_ld64] at h
    rcases loadForm_next h with rfl | ⟨v, _, rfl⟩
    exacts [.moved, .wroteX rt _ rfl]
  | st8 p rb ra d =>
    rw [exec_st8] at h
    rcases storeForm_next h with rfl | ⟨s', hw, rfl⟩
    exacts [.moved, .stored _ _ _ s' rfl (by omega) (by omega) hw]
  | st16 p rb ra d =>
    rw [exec_st16] at h
    rcases storeForm_next h with rfl | ⟨s', hw, rfl⟩
    exacts [.moved, .stored _ _ _ s' rfl (by omega) (by omega) hw]
  | st32 p rb ra d =>
    rw [exec_st32] at h
    rcases storeForm_next h with rfl | ⟨s', hw, rfl⟩
    exacts [.moved, .stored _ _ _ s' rfl (by omega) (by omega) hw]
  | st64 p rb ra d =>
    rw [exec_st64] at h
    rcases storeForm_next h with rfl | ⟨s', hw, rfl⟩
    exacts [.moved, .stored _ _ _ s' rfl (by omega) (by omega) hw]
  | nop =>
    rw [exec_nop] at h
    cases h
    exact .moved

end Sys2Proof.Machine
end

