-- ==== Sys2Proof/Laws/Results.lean ====
section
/-! SUPPORT. Each shared form's result, in the terms of Sys2Proof/Safety.lean. -/

namespace Sys2Proof.Machine

theorem movedOn_advance {s u : State} (hp : u.pc = s.pc) (hs : u.slot = s.slot) (len : Nat) : MovedOn s (advance u len) len := by
  rcases advance_position u len with ⟨h1, h2, h3⟩ | ⟨h1, h2, h3⟩
  · rw [hs] at h1 h3
    simp [MovedOn, h1, h2, h3, hp]
  · rw [hs] at h1
    rw [MovedOn, if_neg (by omega)]
    simp [h2, h3, hp]

/-- The advance alone. -/
theorem advance_gives (s : State) (len : Nat) : GivesNothing (.next (advance s len)) s len :=
  ⟨_, rfl, fun _ => by simp, fun _ hc => readC_congr (by simp) hc, fun _ => by simp, fun _ => by simp,
    ⟨⟨by simp, by simp⟩, by simp, by simp⟩, movedOn_advance rfl rfl len⟩

/-- One general register written. -/
theorem writeX_gives (s : State) (rt : Gpr) (v : Word) (len : Nat) :
    GivesX (.next (advance (writeX s rt v) len)) s len rt v :=
  ⟨_, rfl, fun _ => by simp [readX_writeX], fun _ hc => readC_congr (by simp) hc, fun _ => by simp, fun _ => by simp,
    ⟨⟨by simp, by simp⟩, by simp, by simp⟩, movedOn_advance (by simp) (by simp) len⟩

/-- One predicate register written. -/
theorem writeP_gives (s : State) (pt : PredReg) (f : Flags) : GivesP (.next (advance (writeP s pt f) 1)) s pt f :=
  ⟨_, rfl, fun _ => by simp [readP_writeP], fun _ => by simp, fun _ hc => readC_congr (by simp) hc, fun _ => by simp,
    ⟨⟨by simp, by simp⟩, by simp, by simp⟩, movedOn_advance (by simp) (by simp) 1⟩

/-- A taken jump with its return address. -/
theorem jumpTo_gives (s : State) (ct : CodeReg) (target : Word) :
    GivesJump (.next (jumpTo (writeC s ct (s.pc + 16)) target)) s ct target := by
  refine ⟨_, rfl, by simp, by simp, fun c hc => ?_, fun _ => by simp, fun _ => by simp, fun _ => by simp,
    ⟨by simp, by simp⟩, by simp, by simp⟩
  rw [readC_congr (s := writeC s ct (s.pc + 16)) (by simp) hc, readC_writeC]
  simp [hc]

theorem setX_gives {p : Pred} {s : State} (h : Passes p s) (rt : Gpr) (value : State → Word) :
    GivesX (setX p rt s value) s 1 rt (value s) := by
  rw [setX, guarded_of_passes h]
  exact writeX_gives s rt _ 1

theorem setP_gives {p : Pred} {s : State} (h : Passes p s) (pt : PredReg) (flags : State → Flags) :
    GivesP (setP p pt s flags) s pt (flags s) := by
  rw [setP, guarded_of_passes h]
  exact writeP_gives s pt _

theorem jumpAndLink_gives {s : State} {ct ca : CodeReg} {off : Word} (ha : (readC s ca + off).toNat % 16 = 0) :
    GivesJump (jumpAndLink ct ca off s) s ct (readC s ca + off) := by
  rw [jumpAndLink]
  simp only [ha, if_true]
  exact jumpTo_gives s ct _

/-- The taking of an exception. -/
theorem takeException_takes (e : Exception) (s : State) : TakesException (takeException e s) s e := by
  unfold TakesException takeException
  cases h : s.config.trapVector with
  | none => rfl
  | some v =>
    refine ⟨_, rfl, by simp, by simp, fun c hc => ?_, fun _ => by simp, fun _ => by simp, fun _ => by simp,
      ⟨⟨by simp, by simp⟩, by simp, by simp⟩⟩
    rw [readC_congr (s := writeC s 6 s.pc) (by simp) hc, readC_writeC]
    simp [hc]

theorem inMapFor_iff (s : State) (a : Word) (n : Nat) : InMapFor s a n ↔ allMapped s.config a n = true := by
  rw [allMapped_iff]
  exact forall₂_congr fun _ _ => (mapped_iff _ _).symm

theorem alignedFor_iff (s : State) (a : Word) (n : Nat) : AlignedFor s a n ↔ misaligned s.config a n = false := by
  unfold AlignedFor misaligned
  cases s.config.misalignPolicy <;> simp

theorem notCode_iff (s : State) (a : Word) (n : Nat) (hn : 0 < n) (h16 : n ≤ 16) :
    NotCode s a n ↔ (bundlesOf a n).any (isCode s) = false := by
  rw [← Bool.not_eq_true, List.any_eq_true]
  constructor
  · rintro h ⟨b, hb, hk⟩
    obtain ⟨k, hk', rfl⟩ := (mem_bundlesOf a b n hn h16).1 hb
    exact h k hk' ((isCode_iff s _).1 hk)
  · intro h k hk hm
    exact h ⟨_, (mem_bundlesOf a _ n hn h16).2 ⟨k, hk, rfl⟩, (isCode_iff s _).2 hm⟩

theorem memRead_ok {s : State} {a : Word} {n : Nat} (ha : AlignedFor s a n) (hm : InMapFor s a n) :
    memRead s a n = .ok (leValue (readCells s.mem a n)) := by
  rw [alignedFor_iff] at ha
  rw [inMapFor_iff] at hm
  simp [memRead, ha, hm, bytesValue_eq]

theorem loadForm_gives {p : Pred} {s : State} (h : Passes p s) {e : Extension} {n : Nat} {rt ra : Gpr} {d : BitVec 14}
    (ha : AlignedFor s (effAddr s ra d) n) (hm : InMapFor s (effAddr s ra d) n) :
    GivesX (loadForm e n p rt ra d s) s 1 rt (loadedValue e n (leValue (readCells s.mem (effAddr s ra d) n))) := by
  rw [loadForm, guarded_of_passes h, memRead_ok ha hm]
  exact writeX_gives s rt _ 1

theorem memWrite_gives {s s' : State} {a : Word} {n : Nat} {v : Word} (hn : 0 < n) (h8 : n ≤ 8)
    (h : memWrite s a n v = .ok s') : GivesMem (.next (advance s' 1)) s a n v := by
  obtain ⟨_, _, _, rfl⟩ := memWrite_ok h
  refine ⟨_, rfl, ⟨fun k hk => ?_, fun b hb => ?_⟩, fun r => by simp [readX], fun c hc => readC_congr (by simp) hc,
    fun q => by simp [readP], ⟨by simp, by simp⟩, by simp, fun e => ?_, ?_⟩
  · have hl : k < (valueBytes n v.toNat).length := by simpa using hk
    simp only [advance_mem]
    rw [readCell_writeCells_inside _ _ _ (by rw [length_valueBytes]; omega) k hl]
    have := getElem_leBytes n v.toNat k (by simpa using hk)
    rw [ofNat_div_eq_extract] at this
    exact this
  · simp only [advance_mem]
    exact readCell_writeCells_outside _ _ _ _ fun k hk => hb k (by simpa using hk)
  · simp only [advance_storedBundles]
    rw [mem_recordStore, mem_bundlesOf a e.bundle n hn (by omega), ← Bool.not_eq_true, isStored_iff]
    rfl
  · exact movedOn_advance (by rfl) (by rfl) 1

theorem storeForm_gives {p : Pred} {s : State} (h : Passes p s) {n : Nat} (hn : 0 < n) (h8 : n ≤ 8) {rb ra : Gpr}
    {d : BitVec 14} (ha : AlignedFor s (effAddr s ra d) n) (hm : InMapFor s (effAddr s ra d) n)
    (hc : NotCode s (effAddr s ra d) n) :
    GivesMem (storeForm n p rb ra d s) s (effAddr s ra d) n (readX s rb) := by
  rw [alignedFor_iff] at ha
  rw [inMapFor_iff] at hm
  rw [notCode_iff _ _ _ hn (by omega)] at hc
  rw [storeForm, guarded_of_passes h]
  cases hw : memWrite s (effAddr s ra d) n (readX s rb) with
  | error f => simp [memWrite, ha, hm, hc] at hw
  | ok s' => exact memWrite_gives hn h8 hw

/-! ## Conditions of the front of a step -/

theorem atEnd_iff (s : State) : atEnd s = true ↔ s.config.endPc = some s.pc ∧ s.slot = 0 := by
  simp [atEnd]

theorem inText_iff (s : State) (b : Word) : inText s.config b = true ↔ InText s b :=
  inRegions_iff _ _

theorem textAdmits_iff (s : State) : textAdmits s.config (bundlesOf s.pc 16) = true ↔ TextAdmits s := by
  unfold textAdmits TextAdmits
  rw [Bool.or_eq_true, Option.isNone_iff_eq_none, List.all_eq_true]
  exact or_congr Iff.rfl (forall_congr' fun b => imp_congr (mem_bundlesOf _ _ _ (by omega) (by omega)) (inText_iff s b))

/-- A fetch that succeeds, in the terms of Sys2Proof/Safety.lean. -/
theorem fetchBundle_ok {s : State} (hm : InMapFor s s.pc 16) (ht : FetchesText s) :
    fetchBundle s = .ok (bundleAt s.mem s.pc) := by
  obtain ⟨ht, hk⟩ := ht
  rw [inMapFor_iff] at hm
  rw [← textAdmits_iff] at ht
  have : firstStore s.storedBundles (bundlesOf s.pc 16) = none :=
    (firstStore_eq_none_iff _ _).2 fun e he hb =>
      hk e.bundle ((mem_bundlesOf s.pc _ 16 (by omega) (by omega)).1 hb) ⟨e, he, rfl⟩
  simp [fetchBundle, hm, ht, this]

theorem hazard_eq_false_iff (s : State) (srcs dsts : List Resource) :
    hazard s srcs dsts = false ↔ s.config.stopPolicy = .ignore ∨ ∀ r ∈ srcs ++ dsts, r ∉ s.group := by
  unfold hazard
  cases s.config.stopPolicy <;> simp [List.any_eq_false, or_imp, forall_and]

/-! ## What an instruction names -/

theorem mem_gprRes (rn : Gpr) (r : Resource) : r ∈ gprRes rn ↔ NamesX rn r := by
  unfold gprRes NamesX
  split <;> simp [*]

theorem mem_carRes (cn : CodeReg) (r : Resource) : r ∈ carRes cn ↔ NamesC cn r := by
  unfold carRes NamesC
  split
  · simp only [List.not_mem_nil, false_iff]
    tauto
  · rw [List.mem_singleton]
    tauto

theorem mem_predRes (p : Pred) (r : Resource) : r ∈ predRes p ↔ NamesP p r := by
  obtain ⟨q, c⟩ := p
  unfold predRes NamesP
  cases c <;> simp [Cond.bits]

theorem mem_reservedSources (p : Pred) (u : Reserved) (r : Resource) : r ∈ reservedSources p u ↔ ReservedSource p u r := by
  cases u <;> simp [reservedSources, ReservedSource, mem_predRes, mem_gprRes]

theorem mem_reservedDests (u : Reserved) (r : Resource) : r ∈ reservedDests u ↔ ReservedDest u r := by
  cases u <;> simp [reservedDests, ReservedDest, mem_gprRes]

theorem isNop_iff (i : Instr) : isNop i = true ↔ i.pred.cond = .pf ∧ i.slots = 1 := by
  simp [isNop]

theorem mem_foldl_insert (ds g : List Resource) (r : Resource) :
    r ∈ ds.foldl (fun g r => g.insert r) g ↔ r ∈ g ∨ r ∈ ds := by
  induction ds generalizing g with
  | nil => simp
  | cons d ds ih =>
    rw [List.foldl_cons, ih, List.mem_insert_iff, List.mem_cons]
    tauto

/-- The group after an instruction: empty after a stop bit, else with its destinations. -/
theorem mem_groupAfter (s : State) (b : Bundle) (len : Nat) (ds : List Resource) (r : Resource) :
    r ∈ groupAfter s b len ds ↔ stopAfter b (s.slot.val + len - 1) = false ∧ (r ∈ s.group ∨ r ∈ ds) := by
  unfold groupAfter
  cases stopAfter b (s.slot.val + len - 1) <;> simp [mem_foldl_insert]

end Sys2Proof.Machine
end

