-- ==== Sys2Proof/Laws/Step.lean ====
section
/-! SUPPORT. What a step can do: the front of the step, once. -/

namespace Sys2Proof.Machine

/-- All a fetch can answer. -/
theorem fetchBundle_cases (s : State) :
    (allMapped s.config s.pc 16 = false ∧ fetchBundle s = .error (.fault (.accessFault s.pc .fetchOutsideMap))) ∨
    (allMapped s.config s.pc 16 = true ∧ textAdmits s.config (bundlesOf s.pc 16) = false ∧
      fetchBundle s = .error (.refuse .fetchOutsideText)) ∨
    (∃ e, allMapped s.config s.pc 16 = true ∧ textAdmits s.config (bundlesOf s.pc 16) = true ∧
      firstStore s.storedBundles (bundlesOf s.pc 16) = some e ∧
      fetchBundle s = .error (.fault (.accessFault e.addr .storeToCode))) ∨
    (allMapped s.config s.pc 16 = true ∧ textAdmits s.config (bundlesOf s.pc 16) = true ∧
      firstStore s.storedBundles (bundlesOf s.pc 16) = none ∧ fetchBundle s = .ok (bundleAt s.mem s.pc)) := by
  unfold fetchBundle
  cases allMapped s.config s.pc 16 <;> cases textAdmits s.config (bundlesOf s.pc 16) <;>
    cases firstStore s.storedBundles (bundlesOf s.pc 16) <;> simp

/-- A step whose fetch and decode give an instruction without a hazard is that instruction's meaning. -/
theorem step_of_instr {s : State} {b : Bundle} {i : Instr} (he : atEnd s = false) (hf : fetchBundle s = .ok b)
    (hc : reservedControl b = 0) (hd : decodeSlot b s.slot = .instr i) (hh : hazard s (sources i) (dests i) = false) :
    step s = exec i (issued s b i.slots (dests i)) := by
  simp [step, issue, he, hf, issueFrom, hc, hd, hh]

/-- A word that would be illegal, and what it names: its hazard, its fault or its skip. -/
theorem issueIllegal_cases (s : State) (b : Bundle) (p : Pred) (len : Nat) (srcs dsts : List Resource) (r : Illegal) :
    (hazard s srcs dsts = true ∧ issueIllegal s b p len srcs dsts r = .fault .groupHazard) ∨
    (hazard s srcs dsts = false ∧ predTest p.cond (readP s p.reg) = true ∧
      issueIllegal s b p len srcs dsts r = .fault (.illegalInstruction r)) ∨
    (hazard s srcs dsts = false ∧ predTest p.cond (readP s p.reg) = false ∧
      issueIllegal s b p len srcs dsts r = .skip (advance (issued s b len dsts) len)) := by
  unfold issueIllegal
  cases hazard s srcs dsts <;> cases predTest p.cond (readP s p.reg) <;> simp

/-- What a would-be illegal word is: one with an unused field set, naming its instruction's operands, or a reserved one, naming its
format's. -/
inductive IllegalWord (d : Decoded) : Pred → Nat → List Resource → List Resource → Illegal → Prop where
  | spare (i : Instr) (h : d = .spare i) : IllegalWord d i.pred i.slots (sources i) (dests i) .unusedField
  | unlisted (p : Pred) (u : Reserved) (h : d = .unlisted p u) :
      IllegalWord d p 1 (reservedSources p u) (reservedDests u) u.reason

/-- A step that completes: it ran an instruction on the issued state, or skipped a word whose predicate test failed. -/
theorem step_next {s t : State} (h : step s = .next t) :
    ∃ b, atEnd s = false ∧ allMapped s.config s.pc 16 = true ∧ textAdmits s.config (bundlesOf s.pc 16) = true ∧
      firstStore s.storedBundles (bundlesOf s.pc 16) = none ∧
      b = bundleAt s.mem s.pc ∧ reservedControl b = 0 ∧
      ((∃ i, decodeSlot b s.slot = .instr i ∧ hazard s (sources i) (dests i) = false ∧
          exec i (issued s b i.slots (dests i)) = .next t) ∨
       (∃ p len srcs dsts r, IllegalWord (decodeSlot b s.slot) p len srcs dsts r ∧ hazard s srcs dsts = false ∧
          predTest p.cond (readP s p.reg) = false ∧ t = advance (issued s b len dsts) len)) := by
  have skip : ∀ {p len srcs dsts r}, IllegalWord (decodeSlot (bundleAt s.mem s.pc) s.slot) p len srcs dsts r →
      (match issueIllegal s (bundleAt s.mem s.pc) p len srcs dsts r with
        | .run i s' => exec i s'
        | .skip s' => .next s'
        | .fault f => .fault f
        | .refuse r => .refused r) = Host.Outcome.next t →
      ∃ p len srcs dsts r, IllegalWord (decodeSlot (bundleAt s.mem s.pc) s.slot) p len srcs dsts r ∧
        hazard s srcs dsts = false ∧ predTest p.cond (readP s p.reg) = false ∧
        t = advance (issued s (bundleAt s.mem s.pc) len dsts) len := by
    intro p len srcs dsts r hw hn
    rcases issueIllegal_cases s (bundleAt s.mem s.pc) p len srcs dsts r with ⟨_, e⟩ | ⟨_, _, e⟩ | ⟨hh, hp, e⟩
    · rw [e] at hn; cases hn
    · rw [e] at hn; cases hn
    · rw [e] at hn; exact ⟨p, len, srcs, dsts, r, hw, hh, hp, by cases hn; rfl⟩
  unfold step issue at h
  cases he : atEnd s with
  | true => simp [he] at h
  | false =>
    rcases fetchBundle_cases s with ⟨_, hf⟩ | ⟨_, _, hf⟩ | ⟨_, _, _, _, hf⟩ | ⟨hm, ht, hk, hf⟩
    · simp [he, hf] at h
    · simp [he, hf] at h
    · simp [he, hf] at h
    · refine ⟨_, rfl, hm, ht, hk, rfl, ?_⟩
      simp only [he, hf, issueFrom, Bool.false_eq_true, if_false] at h
      by_cases hc : reservedControl (bundleAt s.mem s.pc) = 0
      · refine ⟨hc, ?_⟩
        simp only [hc, ne_eq, not_true_eq_false, if_false] at h
        cases hd : decodeSlot (bundleAt s.mem s.pc) s.slot with
        | illegal r => simp [hd] at h
        | unlisted p u =>
          simp only [hd] at h skip
          exact .inr (skip (.unlisted p u rfl) h)
        | spare i =>
          simp only [hd] at h skip
          exact .inr (skip (.spare i rfl) h)
        | instr i =>
          simp only [hd] at h
          cases hh : hazard s (sources i) (dests i) with
          | true => simp [hh] at h
          | false =>
            simp only [hh, Bool.false_eq_true, if_false] at h
            exact .inl ⟨i, rfl, hh, h⟩
      · rw [if_pos hc] at h
        cases h

end Sys2Proof.Machine
end

