-- ==== Sys2Proof/Laws/Stops.lean ====
section
/-! SUPPORT. What each form, each instruction and a step can stop with, once: the faults and the one refusal. -/

namespace Sys2Proof.Machine

/-! ## The forms -/

theorem takeException_fault {e : Exception} {s : State} {f : Fault} (h : takeException e s = .fault f) :
    s.config.trapVector = none ∧ f = .unvectoredTrap e s.pc := by
  unfold takeException at h
  split at h
  · cases h
  · exact ⟨by assumption, by cases h; rfl⟩

theorem jumpAndLink_fault {ct ca : CodeReg} {off : Word} {s : State} {f : Fault} (h : jumpAndLink ct ca off s = .fault f) :
    (readC s ca + off).toNat % 16 ≠ 0 ∧ f = .misalignedTarget (readC s ca + off) := by
  unfold jumpAndLink at h
  dsimp only at h
  split at h
  · cases h
  · exact ⟨by assumption, by cases h; rfl⟩

/-- JMP's offset is sixteen times its field. -/
theorem toNat_jmpOffset (addr : BitVec 20) : (jmpOffset addr).toNat = 16 * addr.toNat := by
  have := addr.isLt
  simp only [jmpOffset, BitVec.toNat_setWidth, BitVec.toNat_append, Nat.shiftLeft_eq]
  simp
  omega

/-- JML's offset is sixteen times its field. -/
theorem toNat_jmlOffset (addr : BitVec 60) : (jmlOffset addr).toNat = 16 * addr.toNat := by
  simp only [jmlOffset, BitVec.toNat_append, Nat.shiftLeft_eq]
  simp
  omega

/-! ## Every instruction -/

/-- The faults an instruction can stop with. -/
inductive Stop (i : Instr) (s : State) : Fault → Prop where
  | trap (e : Exception) (hv : s.config.trapVector = none) : Stop i s (.unvectoredTrap e s.pc)
  | jump (ca : CodeReg) (off : Word) (hi : isJump i = true) (ho : off.toNat % 16 = 0)
      (ht : (readC s ca + off).toNat % 16 ≠ 0) : Stop i s (.misalignedTarget (readC s ca + off))
  | load (ra : Gpr) (d : BitVec 14) (n : Nat) (f : Fault) (hi : dataAccess i = some (ra, d, n)) (hl : isLoad i = true)
      (hf : memRead s (effAddr s ra d) n = .error f) : Stop i s f
  | store (rb ra : Gpr) (d : BitVec 14) (n : Nat) (f : Fault) (hi : dataAccess i = some (ra, d, n)) (hs : isStore i = true)
      (hf : memWrite s (effAddr s ra d) n (readX s rb) = .error f) : Stop i s f

theorem overflowForm_fault {i : Instr} {o : Word → Word → Bool} {op : Word → Word → Word} {p : Pred} {rt ra rb : Gpr}
    {s : State} {f : Fault} (h : overflowForm o op p rt ra rb s = .fault f) : Stop i s f := by
  obtain ⟨_, h⟩ := guarded_fault h
  split at h
  · obtain ⟨hv, rfl⟩ := takeException_fault h
    exact .trap _ hv
  · cases h

theorem loadForm_fault {e : Extension} {n : Nat} {p : Pred} {rt ra : Gpr} {d : BitVec 14} {s : State} {f : Fault}
    (h : loadForm e n p rt ra d s = .fault f) : memRead s (effAddr s ra d) n = .error f := by
  obtain ⟨_, h⟩ := guarded_fault h
  split at h
  · cases h
  · cases h; assumption

theorem storeForm_fault {n : Nat} {p : Pred} {rb ra : Gpr} {d : BitVec 14} {s : State} {f : Fault}
    (h : storeForm n p rb ra d s = .fault f) : memWrite s (effAddr s ra d) n (readX s rb) = .error f := by
  obtain ⟨_, h⟩ := guarded_fault h
  split at h
  · cases h
  · cases h; assumption

/-- What an instruction can stop with. -/
theorem exec_fault {i : Instr} {s : State} {f : Fault} (h : exec i s = .fault f) : Stop i s f := by
  cases i with
  | add p rt ra rb => exact overflowForm_fault (by rwa [exec_add] at h)
  | sub p rt ra rb => exact overflowForm_fault (by rwa [exec_sub] at h)
  | jmp p ct ca addr =>
    rw [exec_jmp] at h
    obtain ⟨ht, rfl⟩ := jumpAndLink_fault (guarded_fault h).2
    exact .jump ca _ rfl (by rw [toNat_jmpOffset]; omega) ht
  | jml p ct ca addr =>
    rw [exec_jml] at h
    obtain ⟨ht, rfl⟩ := jumpAndLink_fault (guarded_fault h).2
    exact .jump ca _ rfl (by rw [toNat_jmlOffset]; omega) ht
  | ld8s p rt ra d => rw [exec_ld8s] at h; exact .load ra d _ f rfl rfl (loadForm_fault h)
  | ld8u p rt ra d => rw [exec_ld8u] at h; exact .load ra d _ f rfl rfl (loadForm_fault h)
  | ld16s p rt ra d => rw [exec_ld16s] at h; exact .load ra d _ f rfl rfl (loadForm_fault h)
  | ld16u p rt ra d => rw [exec_ld16u] at h; exact .load ra d _ f rfl rfl (loadForm_fault h)
  | ld32s p rt ra d => rw [exec_ld32s] at h; exact .load ra d _ f rfl rfl (loadForm_fault h)
  | ld32u p rt ra d => rw [exec_ld32u] at h; exact .load ra d _ f rfl rfl (loadForm_fault h)
  | ld64 p rt ra d => rw [exec_ld64] at h; exact .load ra d _ f rfl rfl (loadForm_fault h)
  | st8 p rb ra d => rw [exec_st8] at h; exact .store rb ra d _ f rfl rfl (storeForm_fault h)
  | st16 p rb ra d => rw [exec_st16] at h; exact .store rb ra d _ f rfl rfl (storeForm_fault h)
  | st32 p rb ra d => rw [exec_st32] at h; exact .store rb ra d _ f rfl rfl (storeForm_fault h)
  | st64 p rb ra d => rw [exec_st64] at h; exact .store rb ra d _ f rfl rfl (storeForm_fault h)
  | addi p rt ra imm => rw [exec_addi] at h; cases (guarded_fault h).2
  | andi p rt ra imm => rw [exec_andi] at h; cases (guarded_fault h).2
  | ori p rt ra imm => rw [exec_ori] at h; cases (guarded_fault h).2
  | eori p rt ra imm => rw [exec_eori] at h; cases (guarded_fault h).2
  | cmpi p pt ra imm => rw [exec_cmpi] at h; cases (guarded_fault h).2
  | biti p pt ra imm => rw [exec_biti] at h; cases (guarded_fault h).2
  | cmp p pt ra rb => rw [exec_cmp] at h; cases (guarded_fault h).2
  | and p rt ra rb => rw [exec_and] at h; cases (guarded_fault h).2
  | or p rt ra rb => rw [exec_or] at h; cases (guarded_fault h).2
  | eor p rt ra rb => rw [exec_eor] at h; cases (guarded_fault h).2
  | andcm p rt ra rb => rw [exec_andcm] at h; cases (guarded_fault h).2
  | nand p rt ra rb => rw [exec_nand] at h; cases (guarded_fault h).2
  | nor p rt ra rb => rw [exec_nor] at h; cases (guarded_fault h).2
  | enor p rt ra rb => rw [exec_enor] at h; cases (guarded_fault h).2
  | movi p rt imm => rw [exec_movi] at h; cases (guarded_fault h).2
  | nop => cases h

theorem guarded_refused {p : Pred} {len : Nat} {s : State} {op : State → Result} {r : Refusal}
    (h : guarded p len s op = .refused r) : op s = .refused r := by
  unfold guarded at h
  split at h
  · exact h
  · cases h

theorem overflowForm_not_refused {o : Word → Word → Bool} {op : Word → Word → Word} {p : Pred} {rt ra rb : Gpr}
    {s : State} {r : Refusal} : overflowForm o op p rt ra rb s ≠ .refused r := by
  intro h
  have h := guarded_refused h
  split at h
  · unfold takeException at h
    split at h <;> cases h
  · cases h

theorem jumpAndLink_not_refused {ct ca : CodeReg} {off : Word} {s : State} {r : Refusal} :
    jumpAndLink ct ca off s ≠ .refused r := by
  intro h
  unfold jumpAndLink at h
  dsimp only at h
  split at h <;> cases h

theorem loadForm_not_refused {e : Extension} {n : Nat} {p : Pred} {rt ra : Gpr} {d : BitVec 14} {s : State} {r : Refusal} :
    loadForm e n p rt ra d s ≠ .refused r := by
  intro h
  have h := guarded_refused h
  split at h <;> cases h

theorem storeForm_not_refused {n : Nat} {p : Pred} {rb ra : Gpr} {d : BitVec 14} {s : State} {r : Refusal} :
    storeForm n p rb ra d s ≠ .refused r := by
  intro h
  have h := guarded_refused h
  split at h <;> cases h

/-- No instruction is refused. -/
theorem exec_not_refused (i : Instr) (s : State) (r : Refusal) : exec i s ≠ .refused r := by
  intro h
  cases i with
  | add p rt ra rb => exact overflowForm_not_refused (by rwa [exec_add] at h)
  | sub p rt ra rb => exact overflowForm_not_refused (by rwa [exec_sub] at h)
  | jmp p ct ca addr => rw [exec_jmp] at h; exact jumpAndLink_not_refused (guarded_refused h)
  | jml p ct ca addr => rw [exec_jml] at h; exact jumpAndLink_not_refused (guarded_refused h)
  | ld8s p rt ra d => rw [exec_ld8s] at h; exact loadForm_not_refused h
  | ld8u p rt ra d => rw [exec_ld8u] at h; exact loadForm_not_refused h
  | ld16s p rt ra d => rw [exec_ld16s] at h; exact loadForm_not_refused h
  | ld16u p rt ra d => rw [exec_ld16u] at h; exact loadForm_not_refused h
  | ld32s p rt ra d => rw [exec_ld32s] at h; exact loadForm_not_refused h
  | ld32u p rt ra d => rw [exec_ld32u] at h; exact loadForm_not_refused h
  | ld64 p rt ra d => rw [exec_ld64] at h; exact loadForm_not_refused h
  | st8 p rb ra d => rw [exec_st8] at h; exact storeForm_not_refused h
  | st16 p rb ra d => rw [exec_st16] at h; exact storeForm_not_refused h
  | st32 p rb ra d => rw [exec_st32] at h; exact storeForm_not_refused h
  | st64 p rb ra d => rw [exec_st64] at h; exact storeForm_not_refused h
  | addi p rt ra imm => rw [exec_addi] at h; cases guarded_refused h
  | andi p rt ra imm => rw [exec_andi] at h; cases guarded_refused h
  | ori p rt ra imm => rw [exec_ori] at h; cases guarded_refused h
  | eori p rt ra imm => rw [exec_eori] at h; cases guarded_refused h
  | cmpi p pt ra imm => rw [exec_cmpi] at h; cases guarded_refused h
  | biti p pt ra imm => rw [exec_biti] at h; cases guarded_refused h
  | cmp p pt ra rb => rw [exec_cmp] at h; cases guarded_refused h
  | and p rt ra rb => rw [exec_and] at h; cases guarded_refused h
  | or p rt ra rb => rw [exec_or] at h; cases guarded_refused h
  | eor p rt ra rb => rw [exec_eor] at h; cases guarded_refused h
  | andcm p rt ra rb => rw [exec_andcm] at h; cases guarded_refused h
  | nand p rt ra rb => rw [exec_nand] at h; cases guarded_refused h
  | nor p rt ra rb => rw [exec_nor] at h; cases guarded_refused h
  | enor p rt ra rb => rw [exec_enor] at h; cases guarded_refused h
  | movi p rt imm => rw [exec_movi] at h; cases guarded_refused h
  | nop => cases h

/-! ## The step -/

/-- The faults a step can stop with: the front's, with what makes each, and those of the instruction it runs. -/
theorem step_fault {s : State} {f : Fault} (h : step s = .fault f) :
    fetchBundle s = .error (.fault f) ∨ (∃ r, f = .illegalInstruction r) ∨
    (f = .groupHazard ∧ s.config.stopPolicy = .require ∧ s.group ≠ []) ∨
    ∃ i, decodeSlot (bundleAt s.mem s.pc) s.slot = .instr i ∧
      exec i (issued s (bundleAt s.mem s.pc) i.slots (dests i)) = .fault f := by
  have hz : ∀ {x y}, hazard s x y = true → s.config.stopPolicy = .require ∧ s.group ≠ [] := by
    intro x y hh
    unfold hazard at hh
    rw [Bool.and_eq_true, beq_iff_eq] at hh
    refine ⟨hh.1, fun hg => ?_⟩
    rw [hg] at hh
    simp at hh
  unfold step issue at h
  cases he : atEnd s with
  | true => simp [he] at h
  | false =>
    simp only [he, Bool.false_eq_true, if_false] at h
    rcases fetchBundle_cases s with ⟨_, hf⟩ | ⟨_, _, hf⟩ | ⟨_, _, _, _, hf⟩ | ⟨_, _, _, hf⟩
    · simp only [hf] at h; cases h; exact .inl hf
    · simp only [hf] at h; cases h
    · simp only [hf] at h; cases h; exact .inl hf
    · simp only [hf, issueFrom] at h
      by_cases hc : reservedControl (bundleAt s.mem s.pc) ≠ 0
      · rw [if_pos hc] at h; cases h; exact .inr (.inl ⟨_, rfl⟩)
      · rw [if_neg hc] at h
        cases hd : decodeSlot (bundleAt s.mem s.pc) s.slot with
        | illegal r => simp only [hd] at h; cases h; exact .inr (.inl ⟨_, rfl⟩)
        | unlisted p u =>
          simp only [hd] at h
          rcases issueIllegal_cases s (bundleAt s.mem s.pc) p 1 (reservedSources p u) (reservedDests u) u.reason with ⟨hh, e⟩ | ⟨_, _, e⟩ | ⟨_, _, e⟩
          · rw [e] at h; cases h; exact .inr (.inr (.inl ⟨rfl, hz hh⟩))
          · rw [e] at h; cases h; exact .inr (.inl ⟨_, rfl⟩)
          · rw [e] at h; cases h
        | spare i =>
          simp only [hd] at h
          rcases issueIllegal_cases s (bundleAt s.mem s.pc) i.pred i.slots (sources i) (dests i) .unusedField with
            ⟨hh, e⟩ | ⟨_, _, e⟩ | ⟨_, _, e⟩
          · rw [e] at h; cases h; exact .inr (.inr (.inl ⟨rfl, hz hh⟩))
          · rw [e] at h; cases h; exact .inr (.inl ⟨_, rfl⟩)
          · rw [e] at h; cases h
        | instr i =>
          simp only [hd] at h
          cases hh : hazard s (sources i) (dests i) with
          | true => simp only [hh] at h; cases h; exact .inr (.inr (.inl ⟨rfl, hz hh⟩))
          | false => simp only [hh] at h; exact .inr (.inr (.inr ⟨i, rfl, h⟩))

end Sys2Proof.Machine
end

