-- ==== Sys2Proof/Tests/Slice0.lean ====
section
/-! SUPPORT. Tests: the words and results of spec/95_test_vectors.md (its ids in the comments), ill-formed terms, and for every
obligation with hypotheses a witness that meets them. -/

set_option maxRecDepth 20000

namespace Sys2Proof.Tests

open Sys2Proof.Machine

/-! ## Helpers -/

/-- The predicate byte 01h. -/
def always : Pred := ⟨0, .pt⟩

/-- The predicate byte 90h. -/
def never : Pred := ⟨9, .pf⟩

/-- The reset state with two registers written. -/
def withX (a b : Word) : State := writeX (writeX State.reset 1 a) 2 b

/-- The operands of A1 to A13. -/
def lanes : State := withX 0x00FF00FF00FF00FF 0x0F0F0F0F0F0F0F0F

/-- The start of the load vectors: a base register and eight bytes. -/
def loads : State :=
  { withX 0x2000 0x1122334455667788 with
    mem := [(0x2008, 0xF0), (0x2009, 0xDE), (0x200A, 0xBC), (0x200B, 0x9A),
      (0x200C, 0x78), (0x200D, 0x56), (0x200E, 0x34), (0x200F, 0x12)] }

/-- The start of the store vectors. -/
def stores : State := withX 0x2000 0x1122334455667788

/-- The same state with the overflow exception enabled, and a vector or none. -/
def trapping (s : State) (v : Option Word) : State :=
  { s with config := { s.config with ovfEnable := true, trapVector := v } }

/-- The same state with the bundle at 0x2000 declared program text as well. -/
def withText (s : State) : State :=
  { s with config := { s.config with programText := some [⟨0x1000, 16⟩, ⟨0x2000, 16⟩] } }

/-- The same state with its program text left open. -/
def withOpenText (s : State) : State :=
  { s with config := { s.config with programText := none } }

/-- One step with a word in slot 0. -/
def run (s : State) (w : Nat) : Result := step (s.withFetchWord 48 w)

/-- A bundle with one word, in slot 0. -/
def slot0 (w : SlotWord) : Bundle := packBundle 0 0 0 w

/-- One step with a word in slot 0 and one in slot 1. -/
def run2 (s : State) (w w2 : Nat) : Result := step (s.withFetchWord 82 (w + w2 * 2 ^ 41))

/-- The state with a bundle at its program counter. -/
def holding (s : State) (b : Bundle) : State :=
  { s with mem := writeCells s.mem s.pc (bundleBytes b) }

/-- The reset state with a bundle at its program counter and a running group. -/
def inGroup (b : Bundle) (g : List Resource) : State :=
  { holding State.reset b with group := g }

/-- The next state. -/
def after : Result → Option State
  | .next t => some t
  | .fault _ => none
  | .refused _ => none

/-- The fault. -/
def faultOf : Result → Option Fault
  | .next _ => none
  | .fault f => some f
  | .refused _ => none

/-- A register after a step. -/
def xAfter (o : Result) (r : Gpr) : Option Word := (after o).map fun t => readX t r

/-- A predicate register after a step, as its four bits. -/
def pAfter (o : Result) (q : PredReg) : Option (BitVec 4) := (after o).map fun t => (readP t q).bits

/-- A code address register and the position after a step. -/
def cAfter (o : Result) (c : CodeReg) : Option (Word × Word × Slot) := (after o).map fun t => (readC t c, t.pc, t.slot)

/-- The position after a step. -/
def posAfter (o : Result) : Option (Word × Slot) := (after o).map fun t => (t.pc, t.slot)

/-- Eight bytes of memory after a step. -/
def bytesAfter (o : Result) (a : Word) : Option (List Byte) := (after o).map fun t => readCells t.mem a 8

/-! ## Ill-formed terms -/

theorem test_shortForm_illFormed : (Instr.add ⟨1, .pt⟩ 3 1 2).wf = false := by decide

theorem test_movi_slot2_refused : (Instr.movi always 1 7).placeable 2 = false := by decide

theorem test_jml_slot1_refused : (Instr.jml always 1 0 0).placeable 1 = false ∧ (Instr.jml always 1 0 0).placeable 2 = false := by
  decide

theorem test_wellFormed : (Instr.add always 3 1 2).wf = true ∧ (Instr.nop).wf = true ∧ (Instr.movi ⟨15, .pltu⟩ 63 7).wf = true := by
  decide

/-! ## Decoding: words written out from the formats of spec/30_encoding.md and the vectors of spec/95_test_vectors.md -/

/-- A10 to A13, and the bits of A12 one field at a time (R97). -/
theorem test_decode_immediate :
    decodeTableWord 48 0x1FFF0218401 = some (.addi always 3 1 0x3FFE) ∧
    decodeTableWord 48 0x007F8218801 = some (.andi always 3 1 0xFF) ∧
    decodeTableWord 48 0x00800218901 = some (.ori always 3 1 0x100) ∧
    decodeTableWord 48 0b11111111111111_000001_000011_0001010_0000_0001 = some (.eori always 3 1 0x3FFF) := by decide

/-- C7, C9, C10, and CMP # bit by bit (R99). -/
theorem test_decode_compare :
    decodeTableWord 48 0b11111111111111_000001_00_0011_0000110_0000_0001 = some (.cmpi always 3 1 0x3FFF) ∧
    decodeTableWord 48 0x00000200601 = some (.cmpi always 0 1 0) ∧
    decodeTableWord 48 0x00400210701 = some (.biti always 2 1 0x80) ∧
    decodeTableWord 48 0x01810208201 = some (.cmp always 1 1 2) := by decide

/-- A1 to A9, and ADD bit by bit (R98). -/
theorem test_decode_register :
    decodeTableWord 48 0b0000100_0_000010_000001_000011_0000010_0000_0001 = some (.add always 3 1 2) ∧
    decodeTableWord 48 0x01410218201 = some (.sub always 3 1 2) ∧
    decodeTableWord 48 0x02010218201 = some (.and always 3 1 2) ∧
    decodeTableWord 48 0x02410218201 = some (.or always 3 1 2) ∧
    decodeTableWord 48 0x02810218201 = some (.eor always 3 1 2) ∧
    decodeTableWord 48 0x02C10218201 = some (.andcm always 3 1 2) ∧
    decodeTableWord 48 0x03010218201 = some (.nand always 3 1 2) ∧
    decodeTableWord 48 0x03410218201 = some (.nor always 3 1 2) ∧
    decodeTableWord 48 0x03810218201 = some (.enor always 3 1 2) := by decide

/-- M1, M2, M5 (R103, R109). -/
theorem test_decode_movi :
    decodeTableWord 82 (0x0F37BC0C001 + 0x02468ACF135 * 2 ^ 41) = some (.movi always 1 0x123456789ABCDEF0) ∧
    decodeTableWord 82 (0x1FFFFE2C701 + 0x1FFFFFFFFFF * 2 ^ 41) = some (.movi always 5 0xFFFFFFFFFFFFFFFF) ∧
    decodeTableWord 82 0b00000000000000000000_000001_1000_111_0000_0001 = some (.movi always 1 7) := by decide

/-- J1, J5, J6, and JMP bit by bit (R104, R105). -/
theorem test_decode_jump :
    decodeTableWord 48 0b00000000001000000000_000_001_1001110_0000_0001 = some (.jmp always 1 0 0x200) ∧
    decodeTableWord 48 0x000009C4E01 = some (.jmp always 0 7 4) ∧
    decodeTableWord 82 (0x0004000CF01 + 0x00000000100 * 2 ^ 41) = some (.jml always 1 0 0x10000200) := by decide

/-- L1 to L7, and LD8S bit by bit (R101). -/
theorem test_decode_load :
    decodeTableWord 48 0b00000000001000_000001_000011_101_0000_0000_0001 = some (.ld8s always 3 1 8) ∧
    decodeTableWord 48 0x0004021D101 = some (.ld8u always 3 1 8) ∧
    decodeTableWord 48 0x0004021D201 = some (.ld16s always 3 1 8) ∧
    decodeTableWord 48 0x0004021D301 = some (.ld16u always 3 1 8) ∧
    decodeTableWord 48 0x0004021D401 = some (.ld32s always 3 1 8) ∧
    decodeTableWord 48 0x0004021D501 = some (.ld32u always 3 1 8) ∧
    decodeTableWord 48 0x0004021D601 = some (.ld64 always 3 1 8) := by decide

/-- T1 to T4, T6, and the split displacement bit by bit (R102, R108). -/
theorem test_decode_store :
    decodeTableWord 48 0x00010246001 = some (.st8 always 2 1 8) ∧
    decodeTableWord 48 0x00010246101 = some (.st16 always 2 1 8) ∧
    decodeTableWord 48 0x00010246201 = some (.st32 always 2 1 8) ∧
    decodeTableWord 48 0b01001000_000010_000001_111000_110_0011_0000_0001 = some (.st64 always 2 1 0x1238) := by decide

/-- The canonical NOP, X11, and the reserved words X10, L11 (R114, R118). -/
theorem test_decode_nop_and_reserved :
    decodeTableWord 48 0x00000000090 = some .nop ∧ decodeTableWord 48 0x00000000590 = some .nop ∧
    decodeTableWord 48 0x00000000501 = none ∧ decodeTableWord 48 0x0000021D701 = none := by decide

/-- Unused fields that are not zero: ADD's bit 33, CMP #'s bits 20:19, JML's bit 40; a NOP under condition 0 (R115, R118). -/
theorem test_decode_spare :
    decodeSlot (packBundle 0 0 0 0x01210218201) 0 = .spare (.add always 3 1 2) ∧
    decodeSlot (packBundle 0 0 0 0x01210218290) 0 = .instr .nop ∧
    decodeSlot (packBundle 0 0 0 0x00000280601) 0 = .spare (.cmpi always 0 1 0) ∧
    decodeSlot (packBundle 0 0 0x10000000100 0x0004000CF01) 0 = .spare (.jml always 1 0 0x10000200) ∧
    decodeTableWord 48 0x01210218201 = none := by decide

/-- The worked bundle bytes of program 1: little-endian, bit 0 of slot 0 first (R65). -/
theorem test_decode_bundle_bytes :
    decodeBytes [0x01, 0x82, 0x21, 0x10, 0x10, 0x02, 0x04, 0x44, 0x20, 0x58, 0x04, 0x08, 0x8A, 0x40, 0xE0, 0x38] 1 =
      .instr (.andcm always 4 1 2) ∧
    decodeBytes [0x01, 0xC0, 0xC0, 0x7B, 0xF3, 0x6A, 0xE2, 0x59, 0xD1, 0x48, 0x04, 0x10, 0x04, 0xC0, 0xFF, 0x3F] 2 =
      .instr (.addi always 2 0 0x3FFE) := by decide

/-! ## One step: arithmetic and logical -/

/-- A1, A20, A22. -/
theorem test_add : xAfter (run lanes 0x01010218201) 3 = some 0x100E100E100E100E ∧
    xAfter (run (withX 0x7FFFFFFFFFFFFFFF 1) 0x01010218201) 3 = some 0x8000000000000000 ∧
    xAfter (run (trapping (withX 0xFFFFFFFFFFFFFFFF 1) none) 0x01010218201) 3 = some 0 := by decide

/-- A21: with no vector the model stops, with the program counter that C6 would have taken. -/
theorem test_add_overflow : faultOf (run (trapping (withX 0x7FFFFFFFFFFFFFFF 1) none) 0x01010218201) =
      some (.unvectoredTrap .integerOverflow 0x1000) ∧
    cAfter (run (trapping (withX 0x7FFFFFFFFFFFFFFF 1) (some 0x4000)) 0x01010218201) 6 = some (0x1000, 0x4000, 0) := by decide

/-- A2, A25. -/
theorem test_sub : xAfter (run lanes 0x01410218201) 3 = some 0xF1EFF1EFF1EFF1F0 ∧
    xAfter (exec (.sub always 3 0 2) (withX 0 0x8000000000000000)) 3 = some 0x8000000000000000 := by decide

/-- A24. -/
theorem test_sub_overflow : faultOf (exec (.sub always 3 0 2) (trapping (withX 0 0x8000000000000000) none)) =
    some (.unvectoredTrap .integerOverflow 0x1000) := by decide

/-- A3. -/
theorem test_and : xAfter (run lanes 0x02010218201) 3 = some 0x000F000F000F000F := by decide

/-- A4. -/
theorem test_or : xAfter (run lanes 0x02410218201) 3 = some 0x0FFF0FFF0FFF0FFF := by decide

/-- A5. -/
theorem test_eor : xAfter (run lanes 0x02810218201) 3 = some 0x0FF00FF00FF00FF0 := by decide

/-- A6. -/
theorem test_andcm : xAfter (run lanes 0x02C10218201) 3 = some 0x00F000F000F000F0 := by decide

/-- A7. -/
theorem test_nand : xAfter (run lanes 0x03010218201) 3 = some 0xFFF0FFF0FFF0FFF0 := by decide

/-- A8. -/
theorem test_nor : xAfter (run lanes 0x03410218201) 3 = some 0xF000F000F000F000 := by decide

/-- A9. -/
theorem test_enor : xAfter (run lanes 0x03810218201) 3 = some 0xF00FF00FF00FF00F := by decide

/-- A10, A28. -/
theorem test_andi : xAfter (run lanes 0x007F8218801) 3 = some 0xFF ∧
    xAfter (exec (.andi always 3 1 0x3FF0) (withX 0x12345 0)) 3 = some 0x12340 := by decide

/-- A11. -/
theorem test_ori : xAfter (run lanes 0x00800218901) 3 = some 0x00FF00FF00FF01FF := by decide

/-- A12. -/
theorem test_eori : xAfter (run lanes 0x1FFF8218A01) 3 = some 0xFF00FF00FF00FF00 := by decide

/-- A13, A23. -/
theorem test_addi : xAfter (run lanes 0x1FFF0218401) 3 = some 0x00FF00FF00FF00FD ∧
    xAfter (exec (.addi always 3 1 1) (trapping (withX 0x7FFFFFFFFFFFFFFF 0) none)) 3 = some 0x8000000000000000 := by decide

/-- A26, A27: the discarded target, and a target that is also both sources. -/
theorem test_add_targets : xAfter (exec (.add always 0 1 1) (withX 7 0)) 0 = some 0 ∧
    xAfter (exec (.add always 1 1 1) (withX 7 0)) 1 = some 14 := by decide

/-! ## One step: compares -/

/-- C1 to C6. -/
theorem test_cmp : pAfter (run (withX 5 7) 0x01810208201) 1 = some 0b0110 ∧
    pAfter (run (withX 7 5) 0x01810208201) 1 = some 0b0000 ∧
    pAfter (run (withX 7 7) 0x01810208201) 1 = some 0b0001 ∧
    pAfter (run (withX 0xFFFFFFFFFFFFFFFF 1) 0x01810208201) 1 = some 0b0010 ∧
    pAfter (run (withX 1 0xFFFFFFFFFFFFFFFF) 0x01810208201) 1 = some 0b0100 ∧
    pAfter (run (withX 0x8000000000000000 0x7FFFFFFFFFFFFFFF) 0x01810208201) 1 = some 0b0010 := by decide

/-- C7 to C9. -/
theorem test_cmpi : pAfter (run (withX 0 0) 0x00000200601) 0 = some 0b0001 ∧
    pAfter (run (withX 9 0) 0x00000200601) 0 = some 0b0000 ∧
    pAfter (run (withX 5 0) 0x1FFF8218601) 3 = some 0b0100 := by decide

/-- C10 to C12. -/
theorem test_biti : pAfter (run (withX 0x80 0) 0x00400210701) 2 = some 0b0000 ∧
    pAfter (run (withX 0x7F 0) 0x00400210701) 2 = some 0b0001 ∧
    pAfter (exec (.biti always 2 1 0x3FFF) (withX 0x8000000000000000 0)) 2 = some 0b0010 := by decide

/-! ## One step: MOVI and the jumps -/

/-- M1, M4. -/
theorem test_movi : xAfter (run2 State.reset 0x0F37BC0C001 0x02468ACF135) 1 = some 0x123456789ABCDEF0 ∧
    xAfter (exec (.movi always 0 5) State.reset) 0 = some 0 := by decide

/-- X5: nothing written, slot 2 next. -/
theorem test_movi_false_predicate : posAfter (run2 State.reset 0x0F37BC0C090 0x02468ACF135) = some (0x1000, 2) ∧
    xAfter (run2 State.reset 0x0F37BC0C090 0x02468ACF135) 1 = some 0 := by decide

/-- J1, J5, J7, J8. -/
theorem test_jmp : cAfter (run State.reset 0x0004000CE01) 1 = some (0x1010, 0x2000, 0) ∧
    posAfter (run { State.reset with pc := 0x3000 } 0x000009C4E01) = some (0x3040, 0) ∧
    cAfter (exec (.jmp always 1 1 0) (writeC State.reset 1 0x5000)) 1 = some (0x1010, 0x5000, 0) ∧
    cAfter (exec (.jmp always 7 0 0x200) State.reset) 7 = some (0x2000, 0x2000, 0) := by decide

/-- J3, J4: the predicate P0.NE. -/
theorem test_jmp_predicated : posAfter (run { State.reset with pc := 0x1020 } 0x00020204E03) = some (0x1010, 0) ∧
    posAfter (run { writeP State.reset 0 ⟨true, false, false⟩ with pc := 0x1020 } 0x00020204E03) = some (0x1020, 1) := by decide

/-- J6. -/
theorem test_jml : cAfter (run2 State.reset 0x0004000CF01 0x00000000100) 1 = some (0x1010, 0x100002000, 0) := by decide

/-- A target that is no bundle address (R173). -/
theorem test_jump_misaligned : faultOf (exec (.jmp always 1 1 0) (writeC State.reset 1 0x5008)) =
    some (.misalignedTarget 0x5008) := by decide

/-! ## One step: loads and stores -/

/-- L1. -/
theorem test_ld8s : xAfter (run loads 0x0004021D001) 3 = some 0xFFFFFFFFFFFFFFF0 := by decide

/-- L2. -/
theorem test_ld8u : xAfter (run loads 0x0004021D101) 3 = some 0xF0 := by decide

/-- L3. -/
theorem test_ld16s : xAfter (run loads 0x0004021D201) 3 = some 0xFFFFFFFFFFFFDEF0 := by decide

/-- L4, L10. -/
theorem test_ld16u : xAfter (run loads 0x0004021D301) 3 = some 0xDEF0 ∧
    faultOf (exec (.ld16u always 3 1 9) loads) = some (.misalignedAccess 0x2009) := by decide

/-- L5. -/
theorem test_ld32s : xAfter (run loads 0x0004021D401) 3 = some 0xFFFFFFFF9ABCDEF0 := by decide

/-- L6, L9. -/
theorem test_ld32u : xAfter (run loads 0x0004021D501) 3 = some 0x9ABCDEF0 ∧
    xAfter (exec (.ld32u always 3 1 12) loads) 3 = some 0x12345678 := by decide

/-- L7, L8. -/
theorem test_ld64 : xAfter (run loads 0x0004021D601) 3 = some 0x123456789ABCDEF0 ∧
    xAfter (run { loads with mem := (0x1FF8, 0x77) :: loads.mem } 0x1FFC021D601) 3 = some 0x77 := by decide

/-- T1, T8. -/
theorem test_st8 : bytesAfter (run stores 0x00010246001) 0x2008 = some [0x88, 0, 0, 0, 0, 0, 0, 0] ∧
    ((after (exec (.st8 always 0 1 8) loads)).map fun t => t.mem.length) = some 7 := by decide

/-- T2. -/
theorem test_st16 : bytesAfter (run stores 0x00010246101) 0x2008 = some [0x88, 0x77, 0, 0, 0, 0, 0, 0] := by decide

/-- T6b, T7. -/
theorem test_st32 : bytesAfter (run stores 0x090103A6201) 0x3234 = some [0x88, 0x77, 0x66, 0x55, 0, 0, 0, 0] ∧
    faultOf (exec (.st32 always 2 1 2) stores) = some (.misalignedAccess 0x2002) := by decide

/-- T6, T6a. -/
theorem test_st64 :
    bytesAfter (run stores 0x090103C6301) 0x3238 = some [0x88, 0x77, 0x66, 0x55, 0x44, 0x33, 0x22, 0x11] ∧
    faultOf (run stores 0x090103A6301) = some (.misalignedAccess 0x3234) := by decide

/-- A store into the bundle that holds it is a store to code, and so is one to declared program text (R77). -/
theorem test_store_to_code : faultOf (run (withX 0x1008 0) 0x00000206001) = some (.accessFault 0x1008 .storeToCode) ∧
    faultOf (exec (.st8 always 2 1 8) (withText stores)) = some (.accessFault 0x2008 .storeToCode) := by decide

/-- A fetch outside the program text; and with the text left open, a store, then the fetch of its bundle: the store's fault (R77;
log 23). -/
theorem test_fetch_after_store : step { State.reset with pc := 0x2000 } = .refused .fetchOutsideText ∧
    ((after (exec (.st8 always 2 1 8) (withOpenText stores))).bind fun t => faultOf (step { t with pc := 0x2000, slot := 0 })) =
      some (.accessFault 0x2008 .storeToCode) := ⟨rfl, by decide⟩

/-! ## One step: the execution model -/

/-- X1, X3, X4. -/
theorem test_addi_predicated : xAfter (run (withX 5 0) 0x00050008490) 1 = some 5 ∧
    xAfter (run (writeP (withX 5 0) 0 ⟨true, false, false⟩) 0x00050008403) 1 = some 5 ∧
    xAfter (run (withX 5 0) 0x00050008403) 1 = some 10 := by decide

/-- X2, J10: the advance out of slot 2, and its wrap. -/
theorem test_nop : posAfter (exec .nop { State.reset with slot := 2 }) = some (0x1010, 0) ∧
    posAfter (exec .nop { State.reset with slot := 2, pc := 0xFFFFFFFFFFFFFFF0 }) = some (0, 0) ∧
    posAfter (run State.reset 0x00000000090) = some (0x1000, 1) := by decide

/-- X6, J11: two-slot words out of place. -/
theorem test_placement :
    faultOf (step { holding State.reset (packBundle 0 0x0008000C001 0 0) with slot := 2 }) = some (.illegalInstruction .placement) ∧
    faultOf (step { holding State.reset (packBundle 0 0 0x0004000CF01 0) with slot := 1 }) = some (.illegalInstruction .placement) := by
  decide

/-- X7. -/
theorem test_reserved_control :
    faultOf (step (holding State.reset (packBundle 0b01000 0 0 0x90))) = some (.illegalInstruction .reservedControl) := by decide

/-- X8: the second instruction of `ADD r1, r0, #1 ; ADD r2, r1, #1` in the group of the first. -/
theorem test_group_hazard : faultOf (step { holding State.reset (packBundle 0 0x90 0x00008210401 0x00008008401) with
    slot := 1, group := [.gpr 1] }) = some .groupHazard := by decide

/-- X8, X9: the group that the first of them leaves, without and with the stop bit after slot 0. -/
theorem test_group_after :
    ((after (step (holding State.reset (packBundle 0 0x90 0x00008210401 0x00008008401)))).map fun t => t.group) =
      some [.gpr 1] ∧
    ((after (step (holding State.reset (packBundle 1 0x90 0x00008210401 0x00008008401)))).map fun t => t.group) =
      some [] := by decide

/-- A listed word with an unused field set: GroupHazard comes first (R315), then illegal, or under a false predicate only its
destination in the group. -/
theorem test_spare_step :
    faultOf (step (inGroup (slot0 0x01210218202) [.gpr 1])) = some .groupHazard ∧
    faultOf (step (inGroup (slot0 0x01210218203) [])) = some (.illegalInstruction .unusedField) ∧
    ((after (step (inGroup (slot0 0x01210218202) []))).map fun t => (t.group, t.slot)) = some ([.gpr 3], 1) := by decide

/-- Reserved words name their format's operands (R98, R101, R102, R112): a function of the R2 group, a `Func4` of LDx and of STx. -/
theorem test_reserved_names :
    faultOf (step (inGroup (slot0 0x00410218201) [.gpr 2])) = some .groupHazard ∧
    faultOf (step (inGroup (slot0 0x00410218201) [])) = some (.illegalInstruction .reservedFunction) ∧
    faultOf (step (inGroup (slot0 0x0000021D701) [.gpr 1])) = some .groupHazard ∧
    faultOf (step (inGroup (slot0 0x0000021D701) [.memory])) = some .groupHazard ∧
    ((after (step (inGroup (slot0 0x0000021D702) []))).map fun t => t.group) = some [.gpr 3] ∧
    faultOf (step (inGroup (slot0 0x00010246401) [.gpr 2])) = some .groupHazard ∧
    ((after (step (inGroup (slot0 0x00010246402) []))).map fun t => t.group) = some [.memory] := by decide

/-- MOVI and JML with condition 0 name their registers, a one-slot word with condition 0 names nothing (R118, R154, R157). -/
theorem test_condition_zero_names :
    faultOf (step (inGroup (slot0 0x0008000C090) [.gpr 1])) = some .groupHazard ∧
    faultOf (step (inGroup (slot0 0x0004000CF90) [.car 1])) = some .groupHazard ∧
    posAfter (step (inGroup (slot0 0x01010218290) [.gpr 1])) = some (0x1000, 1) := by decide

/-- X10, X11. -/
theorem test_reserved_opcode : faultOf (run State.reset 0x00000000501) = some (.illegalInstruction .reservedOpcode) ∧
    posAfter (run State.reset 0x00000000590) = some (0x1000, 1) := by decide

/-- The end of a run (R142 line 1). -/
theorem test_end_pc : step { State.reset with config := { Config.launch with endPc := some 0x1000 } } = .refused .runEnded := rfl

/-! ## Witnesses: for every obligation with hypotheses, values that meet all of them together

Each is named after its obligation. Where clauses depend on a range, the values are at its ends. -/

/-- A word with predicate byte 01h, register and immediate fields all ones. -/
def onesRI (op : BitVec 7) : SlotWord := 0x3FFF#14 ++ 63#6 ++ 63#6 ++ op ++ 0x01#8

/-- The hypotheses of the decoding statements on predicate byte and opcode, for a word in slot 0. -/
def Reads (w : SlotWord) (p : Pred) (op : BitVec 7) : Prop :=
  p.wf = true ∧ (slotWord (slot0 w) 0).extractLsb' 0 8 = p.bits ∧ (slotWord (slot0 w) 0).extractLsb' 8 7 = op

theorem witness_DecodeEncodeRoundTrip :
    ((Instr.jml always 7 7 0).wf = true ∧ (Instr.jml always 7 7 0).placeable 0 = true ∧
      holdsWords (packBundle 0 0 0 0x000001FCF01) 0 (encode (.jml always 7 7 0))) ∧
    ((Instr.movi ⟨15, .pltu⟩ 63 1).wf = true ∧ (Instr.movi ⟨15, .pltu⟩ 63 1).placeable 1 = true ∧
      holdsWords (packBundle 0 0 0x000001FC1FB 0) 1 (encode (.movi ⟨15, .pltu⟩ 63 1))) ∧
    (Instr.nop.wf = true ∧ Instr.nop.placeable 2 = true ∧ holdsWords (packBundle 0 0x90 0 0) 2 (encode .nop)) := by
  simp only [holdsWords, encode]
  decide

/-- One instruction of each format, with register and immediate fields all ones; the NOP; a word with an unused field set. -/
theorem witness_DecodedFieldsAreTheFormats :
    decodeSlot (slot0 (onesRI 4)) 0 = .instr (.addi always 63 63 0x3FFF) ∧
    decodeSlot (slot0 0x1FFFFE78601) 0 = .instr (.cmpi always 15 63 0x3FFF) ∧
    decodeSlot (slot0 0x011FFFF8201) 0 = .instr (.add always 63 63 63) ∧
    decodeSlot (slot0 0x019FFE78201) 0 = .instr (.cmp always 15 63 63) ∧
    decodeSlot (packBundle 0 0x1FFFFFFFFFF 0x1FFFFFFC701 0) 1 = .instr (.movi always 63 0xFFFFFFFFFFFFFFFF) ∧
    decodeSlot (slot0 0x1FFFFFFD601) 0 = .instr (.ld64 always 63 63 0x3FFF) ∧
    decodeSlot (slot0 0x1FFFFFFE301) 0 = .instr (.st64 always 63 63 0x3FFF) ∧
    decodeSlot (slot0 0x1FFFFFFCE01) 0 = .instr (.jmp always 7 7 0xFFFFF) ∧
    decodeSlot (packBundle 0 0 0x0FFFFFFFFFF 0x1FFFFFFCF01) 0 = .instr (.jml always 7 7 0xFFFFFFFFFFFFFFF) ∧
    decodeSlot (slot0 0x00000000090) 0 = .instr .nop ∧
    decodeSlot (slot0 0x013FFFF8201) 0 = .spare (.add always 63 63 63) := by
  decide

theorem witness_ImmediateFormatDecodes :
    Reads (onesRI 4) always 4 ∧ Reads (onesRI 8) always 8 ∧ Reads (onesRI 9) always 9 ∧ Reads (onesRI 10) always 10 := by
  unfold Reads
  decide

/-- With bits 20:19 not zero and zero, under condition 1 and under condition 0. -/
theorem witness_CompareImmediateFormatDecodes :
    (Reads (onesRI 6) always 6 ∧ Reads (onesRI 7) always 7) ∧
    (Reads 0x00000200601 always 6 ∧ (slotWord (slot0 0x00000200601) 0).extractLsb' 19 2 = 0) ∧
    (Reads 0x00400210701 always 7 ∧ (slotWord (slot0 0x00400210701) 0).extractLsb' 19 2 = 0) ∧
    (Reads 0x00000180690 never 6 ∧ Reads 0x00000180790 never 7) := by
  unfold Reads
  decide

/-- Each function of the map, with bit 33 clear and set, and CMP with bits 20:19 set, under condition 1 and under condition 0; then
the ends of the reserved ranges: 0, 3, 7, 15, 127. -/
theorem witness_RegisterFormatsDecode :
    (∀ f ∈ [4, 5, 6, 8, 9, 10, 11, 12, 13, 14], ∃ w, Reads w always 2 ∧ (slotWord (slot0 w) 0).extractLsb' 33 1 = 0 ∧
      ((slotWord (slot0 w) 0).extractLsb' 34 7).toNat = f ∧ (slotWord (slot0 w) 0).extractLsb' 19 2 = 0) ∧
    (∀ f ∈ [4, 5, 6, 8, 9, 10, 11, 12, 13, 14], ∃ w, Reads w always 2 ∧ (slotWord (slot0 w) 0).extractLsb' 33 1 ≠ 0 ∧
      ((slotWord (slot0 w) 0).extractLsb' 34 7).toNat = f) ∧
    (Reads 0x01810388201 always 2 ∧ (slotWord (slot0 0x01810388201) 0).extractLsb' 19 2 ≠ 0 ∧
      ((slotWord (slot0 0x01810388201) 0).extractLsb' 34 7).toNat = 6) ∧
    (Reads 0x01210218290 never 2 ∧ ((slotWord (slot0 0x01210218290) 0).extractLsb' 34 7).toNat = 4) ∧
    (∀ f ∈ [0, 3, 7, 15, 127], ∃ w, Reads w always 2 ∧ ((slotWord (slot0 w) 0).extractLsb' 34 7).toNat = f) := by
  refine ⟨?_, ?_, by unfold Reads; decide, by unfold Reads; decide, ?_⟩
  · intro f hf
    refine ⟨BitVec.ofNat 7 f ++ 0#19 ++ 2#7 ++ 1#8, ?_⟩
    revert f
    unfold Reads
    decide
  · intro f hf
    refine ⟨BitVec.ofNat 7 f ++ 1#1 ++ 0#18 ++ 2#7 ++ 1#8, ?_⟩
    revert f
    unfold Reads
    decide
  · intro f hf
    refine ⟨BitVec.ofNat 7 f ++ 0#19 ++ 2#7 ++ 1#8, ?_⟩
    revert f
    unfold Reads
    decide

/-- Slots 0 and 1, with `imm[2:0]` 7 and 0. -/
theorem witness_MoviFormatDecodes :
    (always.wf = true ∧ (slotWord (slot0 0x1FFFFE2C701) 0).extractLsb' 0 8 = always.bits ∧ (0 : Slot) ≠ 2 ∧
      (slotWord (slot0 0x1FFFFE2C701) 0).extractLsb' 11 4 = 8#4) ∧
    ((slotWord (packBundle 0 0 0x0008000C001 0) 1).extractLsb' 0 8 = always.bits ∧ (1 : Slot) ≠ 2 ∧
      (slotWord (packBundle 0 0 0x0008000C001 0) 1).extractLsb' 11 4 = 8#4) := by
  decide

/-- Offsets 0 and 0xFFFFF0. -/
theorem witness_JmpFormatDecodes : Reads 0x00000044E01 always 78 ∧ Reads 0x1FFFFE44E01 always 78 ∧
    (slotWord (slot0 0x1FFFFE44E01) 0).extractLsb' 21 20 = 0xFFFFF#20 := by
  unfold Reads
  decide

/-- Bit 40 of the second word clear, with every bit below it set; and set. -/
theorem witness_JmlFormatDecodes : Reads 0x0004000CF01 always 79 ∧
    (slotWord (packBundle 0 0 0x0FFFFFFFFFF 0x0004000CF01) 1).extractLsb' 40 1 = 0 ∧
    (slotWord (packBundle 0 0 0x10000000000 0x0004000CF01) 1).extractLsb' 40 1 ≠ 0 ∧
    (slotWord (packBundle 0 0 0x10000000000 0x0004000CF01) 0).extractLsb' 8 7 = 79#7 ∧
    (slotWord (packBundle 0 0 0x10000000000 0x0004000CF01) 0).extractLsb' 0 8 = always.bits := by
  unfold Reads
  decide

/-- Every `Func4`: loads 0 to 6 and the ends 7 and 15 of the rest; stores 0 to 3 and the ends 4 and 15. -/
theorem witness_LoadStoreFormatsDecode :
    (∀ f ∈ [0, 1, 2, 3, 4, 5, 6, 7, 15], ∃ w, Reads w always (5#3 ++ BitVec.ofNat 4 f)) ∧
    (∀ f ∈ [0, 1, 2, 3, 4, 15], ∃ w, Reads w always (6#3 ++ BitVec.ofNat 4 f)) ∧
    Reads 0x00000005790 never 87 := by
  refine ⟨fun f hf => ⟨0#26 ++ 5#3 ++ BitVec.ofNat 4 f ++ 1#8, ?_⟩, fun f hf => ⟨0#26 ++ 6#3 ++ BitVec.ofNat 4 f ++ 1#8, ?_⟩, ?_⟩
  · revert f
    unfold Reads
    decide
  · revert f
    unfold Reads
    decide
  · unfold Reads
    decide

/-- The ends of the reserved ranges, under condition 1 and under condition 0. -/
theorem witness_ReservedOpcodesAreNoInstruction :
    ∀ op ∈ [0, 1, 3, 5, 11, 63, 72, 77, 112, 127], (∃ w, Reads w always (BitVec.ofNat 7 op)) ∧
      ∃ w, Reads w never (BitVec.ofNat 7 op) := by
  intro op hop
  refine ⟨⟨0#26 ++ BitVec.ofNat 7 op ++ 0x01#8, ?_⟩, ⟨0#26 ++ BitVec.ofNat 7 op ++ 0x90#8, ?_⟩⟩ <;>
  · revert op
    unfold Reads
    decide

theorem witness_MisplacedTwoSlotWordsAreIllegal :
    (slotWord (packBundle 0 0x0008000C001 0 0) 2).extractLsb' 11 4 = 8#4 ∧
    (slotWord (packBundle 0 0 0x0004000CF01 0) 1).extractLsb' 8 7 = 79#7 ∧
    (slotWord (packBundle 0 0x0004000CF01 0 0) 2).extractLsb' 8 7 = 79#7 := by
  decide

/-- Conditions 12 and 15, and the bytes 11h and F1h. -/
theorem witness_ReservedPredicateBytesAreIllegal :
    12 ≤ ((slotWord (slot0 0x0C) 0).extractLsb' 0 4).toNat ∧ 12 ≤ ((slotWord (slot0 0xFF) 0).extractLsb' 0 4).toNat ∧
    (((slotWord (slot0 0x11) 0).extractLsb' 0 4).toNat = 1 ∧ ((slotWord (slot0 0x11) 0).extractLsb' 4 4).toNat ≠ 0) ∧
    (((slotWord (slot0 0xF1) 0).extractLsb' 0 4).toNat = 1 ∧ ((slotWord (slot0 0xF1) 0).extractLsb' 4 4).toNat ≠ 0) := by
  decide

/-- The first and the last bit of a bundle. -/
theorem witness_FetchedBundleBits : (0 < 128 ∧ (bundleAt [(0x1000, 1)] 0x1000).getLsbD 0 = true) ∧
    (127 < 128 ∧ (bundleAt [(0x100F, 0x80)] 0x1000).getLsbD 127 = true) := by
  decide

/-- The ends of both ranges. -/
theorem witness_PredicateConditions : 0 < 12 ∧ 11 < 12 ∧ (12 ≤ 12 ∧ 12 < 16) ∧ (12 ≤ 15 ∧ 15 < 16) := by decide

theorem witness_FailedPredicateOnlyAdvances : ¬ Passes (Instr.nop).pred State.reset ∧
    ¬ Passes (Instr.movi ⟨0, .peq⟩ 1 7).pred State.reset := by
  unfold Passes
  decide

/-- One for each clause; the first, for two values of the predicate registers. -/
theorem witness_PredicateRegisterTraffic :
    (isCompare (.cmp ⟨2, .pne⟩ 1 1 2) = true ∧ Passes ⟨2, .pne⟩ { State.reset with preds := Vector.replicate 16 ⟨false, true, true⟩ } ∧
      Passes ⟨2, .pne⟩ { State.reset with preds := Vector.replicate 16 ⟨false, false, false⟩ }) ∧
    (after (exec (.movi always 1 7) State.reset) ≠ none ∧ isCompare (.movi always 1 7) = false) ∧
    (after (exec (.add ⟨0, .pne⟩ 1 1 2) State.reset) ≠ none ∧
      faultOf (exec (.ld16s ⟨0, .pne⟩ 1 0 1) State.reset) ≠ none ∧
      predTest .pne (readP { State.reset with preds := Vector.replicate 16 ⟨false, true, true⟩ } 0) =
        predTest .pne (readP State.reset 0)) := by
  unfold Passes
  decide

theorem witness_ImmediateFormResults : Passes always lanes ∧ Passes ⟨15, .pgtu⟩ lanes := by unfold Passes; decide

theorem witness_AndOperation : Passes always lanes ∧ (63 : Gpr) ≠ 0 ∧
    (∃ w, Reads w always 2 ∧ (slotWord (slot0 w) 0).extractLsb' 33 1 = 0 ∧ (slotWord (slot0 w) 0).extractLsb' 34 7 = 8#7) := by
  refine ⟨rfl, by decide, 8#7 ++ 0#1 ++ 63#6 ++ 63#6 ++ 63#6 ++ 2#7 ++ 1#8, ?_⟩
  unfold Reads
  decide

theorem witness_AndResult : Passes always lanes ∧ Passes ⟨15, .pge⟩ lanes := by unfold Passes; decide

theorem witness_LogicalRegisterResults : Passes always lanes ∧ Passes ⟨15, .pgeu⟩ lanes := by unfold Passes; decide

theorem witness_MoviResult : Passes always lanes ∧ Passes ⟨1, .pgt⟩ lanes := by unfold Passes; decide

theorem witness_CompareResults : Passes always lanes ∧ Passes ⟨2, .pne⟩ lanes := by unfold Passes; decide

theorem witness_BitTestResult : Passes always lanes ∧ Passes ⟨3, .pne⟩ lanes := by unfold Passes; decide

/-- Both ways to the sum, at the largest sum without overflow, and the exception at the smallest one with it. -/
theorem witness_AddResult :
    (Passes always lanes ∧ lanes.config.ovfEnable = false) ∧
    (Passes always (trapping (withX 0x7FFFFFFFFFFFFFFF 0) none) ∧ addOverflow 0x7FFFFFFFFFFFFFFF 0 = false) ∧
    (Passes always (trapping (withX 0x7FFFFFFFFFFFFFFF 1) none) ∧
      (trapping (withX 0x7FFFFFFFFFFFFFFF 1) none).config.ovfEnable = true ∧ addOverflow 0x7FFFFFFFFFFFFFFF 1 = true) := by
  unfold Passes
  decide

/-- As for AddResult, at the least difference. -/
theorem witness_SubResult :
    (Passes always lanes ∧ lanes.config.ovfEnable = false) ∧
    (Passes always (trapping (withX 0x8000000000000000 0) none) ∧ subOverflow 0x8000000000000000 0 = false) ∧
    (Passes always (trapping (withX 0x8000000000000000 1) none) ∧
      (trapping (withX 0x8000000000000000 1) none).config.ovfEnable = true ∧ subOverflow 0x8000000000000000 1 = true) := by
  unfold Passes
  decide

theorem witness_CompareFlagsExclude : (cmpFlags 0x8000000000000000 0x8000000000000000).eq = true := by decide

/-- The smallest and the largest offset, the second past the top of the address space. -/
theorem witness_JmpResult : (Passes always State.reset ∧ (readC State.reset 7 + BitVec.ofNat 64 (16 * 0)).toNat % 16 = 0) ∧
    (Passes always (writeC State.reset 1 0xFFFFFFFFFFFFFFF0) ∧
      (readC (writeC State.reset 1 0xFFFFFFFFFFFFFFF0) 1 + BitVec.ofNat 64 (16 * 0xFFFFF)).toNat % 16 = 0) := by
  unfold Passes
  decide

theorem witness_JmlResult : (Passes always State.reset ∧ (readC State.reset 7 + BitVec.ofNat 64 (16 * 0)).toNat % 16 = 0) ∧
    (Passes always (writeC State.reset 1 0xFFFFFFFFFFFFFFF0) ∧
      (readC (writeC State.reset 1 0xFFFFFFFFFFFFFFF0) 1 + BitVec.ofNat 64 (16 * 0xFFFFFFFFFFFFFFF)).toNat % 16 = 0) := by
  unfold Passes
  decide

theorem witness_MisalignedJumpFaults : Passes always (writeC State.reset 1 0x5001) ∧
    (readC (writeC State.reset 1 0x5001) 1).toNat % 16 ≠ 0 ∧ (readC (writeC State.reset 1 0x500F) 1).toNat % 16 ≠ 0 := by
  unfold Passes
  decide

/-- A state at an overflowing addition. -/
def overflowing : State := trapping (withX 0x7FFFFFFFFFFFFFFF 1) (some 0x4000)

/-- A state at an overflowing subtraction. -/
def underflowing : State := trapping (withX 0x8000000000000000 1) (some 0x4000)

/-- Both instructions, and the states after their exceptions. -/
theorem witness_ReturnFromOverflowTrap :
    (overflowing.pc.toNat % 16 = 0 ∧ Passes always overflowing ∧ overflowing.config.ovfEnable = true ∧
    overflowing.config.trapVector = some 0x4000 ∧ addOverflow (readX overflowing 1) (readX overflowing 2) = true ∧
    after (exec (.add always 3 1 2) overflowing) = some (goTo (writeC overflowing 6 overflowing.pc) 0x4000) ∧
    Passes always (goTo (writeC overflowing 6 overflowing.pc) 0x4000)) ∧
    (underflowing.pc.toNat % 16 = 0 ∧ Passes always underflowing ∧ underflowing.config.ovfEnable = true ∧
    underflowing.config.trapVector = some 0x4000 ∧ subOverflow (readX underflowing 1) (readX underflowing 2) = true ∧
    after (exec (.sub always 3 1 2) underflowing) = some (goTo (writeC underflowing 6 underflowing.pc) 0x4000) ∧
    Passes always (goTo (writeC underflowing 6 underflowing.pc) 0x4000)) := by
  unfold Passes
  decide

/-- A completing instruction that is no jump, with and without the exception. -/
theorem witness_CodeRegisterWriters :
    (after (exec (.add always 3 1 2) overflowing) ≠ none ∧ isJump (.add always 3 1 2) = false) ∧
    (after (exec (.cmp always 3 1 2) lanes) ≠ none ∧ isJump (.cmp always 3 1 2) = false) := by
  decide

theorem witness_NoGeneralRegisterWritten :
    (after (exec (.jmp always 1 0 0x200) lanes) ≠ none ∧ isJump (.jmp always 1 0 0x200) = true) ∧
    (after (exec (.cmp always 1 1 2) lanes) ≠ none ∧ isCompare (.cmp always 1 1 2) = true) ∧
    (after (exec (.st8 always 1 1 2) lanes) ≠ none ∧ isStore (.st8 always 1 1 2) = true) := by
  decide

/-! ### Loads and stores -/

/-- The same state under `MISALIGN_POLICY` split. -/
def splitting (s : State) : State := { s with config := { s.config with misalignPolicy := .split } }

/-- Effective addresses 0 and 2^64 - 1. -/
theorem witness_LoadByteResults : Passes always (withX 0 0) ∧
    InMapFor (withX 0 0) (readX (withX 0 0) 1 + (0 : BitVec 14).signExtend 64) 1 ∧
    InMapFor (withX 0 0) (readX (withX 0 0) 1 + (0x3FFF : BitVec 14).signExtend 64) 1 :=
  ⟨rfl, (inMapFor_iff _ _ _).2 (by decide), (inMapFor_iff _ _ _).2 (by decide)⟩

/-- The last aligned address; and under split, the access whose second byte is at address 0. -/
theorem witness_LoadHalfResults :
    (AlignedFor (withX 0 0) (readX (withX 0 0) 1 + (0x3FFE : BitVec 14).signExtend 64) 2 ∧
      InMapFor (withX 0 0) (readX (withX 0 0) 1 + (0x3FFE : BitVec 14).signExtend 64) 2) ∧
    (Passes always (splitting (withX 0 0)) ∧
      AlignedFor (splitting (withX 0 0)) (readX (splitting (withX 0 0)) 1 + (0x3FFF : BitVec 14).signExtend 64) 2 ∧
      InMapFor (splitting (withX 0 0)) (readX (splitting (withX 0 0)) 1 + (0x3FFF : BitVec 14).signExtend 64) 2) :=
  ⟨⟨.inr (by decide), (inMapFor_iff _ _ _).2 (by decide)⟩, rfl, .inl rfl, (inMapFor_iff _ _ _).2 (by decide)⟩

theorem witness_LoadWordResults :
    (AlignedFor (withX 0 0) (readX (withX 0 0) 1 + (0x3FFC : BitVec 14).signExtend 64) 4 ∧
      InMapFor (withX 0 0) (readX (withX 0 0) 1 + (0x3FFC : BitVec 14).signExtend 64) 4) ∧
    (Passes always (splitting (withX 0 0)) ∧
      AlignedFor (splitting (withX 0 0)) (readX (splitting (withX 0 0)) 1 + (0x3FFF : BitVec 14).signExtend 64) 4 ∧
      InMapFor (splitting (withX 0 0)) (readX (splitting (withX 0 0)) 1 + (0x3FFF : BitVec 14).signExtend 64) 4) :=
  ⟨⟨.inr (by decide), (inMapFor_iff _ _ _).2 (by decide)⟩, rfl, .inl rfl, (inMapFor_iff _ _ _).2 (by decide)⟩

theorem witness_LoadDoubleResult :
    (AlignedFor (withX 0 0) (readX (withX 0 0) 1 + (0x3FF8 : BitVec 14).signExtend 64) 8 ∧
      InMapFor (withX 0 0) (readX (withX 0 0) 1 + (0x3FF8 : BitVec 14).signExtend 64) 8) ∧
    (Passes always (splitting (withX 0 0)) ∧
      AlignedFor (splitting (withX 0 0)) (readX (splitting (withX 0 0)) 1 + (0x3FFF : BitVec 14).signExtend 64) 8 ∧
      InMapFor (splitting (withX 0 0)) (readX (splitting (withX 0 0)) 1 + (0x3FFF : BitVec 14).signExtend 64) 8) :=
  ⟨⟨.inr (by decide), (inMapFor_iff _ _ _).2 (by decide)⟩, rfl, .inl rfl, (inMapFor_iff _ _ _).2 (by decide)⟩

/-- Every width at the address 0x2000, and 8 bytes at an address that is no multiple of 8 under split. -/
theorem witness_StoreResults : Passes always stores ∧
    (∀ n ∈ [1, 2, 4, 8], AlignedFor stores (effAddr stores 1 0) n ∧ InMapFor stores (effAddr stores 1 0) n ∧
      NotCode stores (effAddr stores 1 0) n) ∧
    (AlignedFor (splitting stores) (effAddr (splitting stores) 1 9) 8 ∧
      InMapFor (splitting stores) (effAddr (splitting stores) 1 9) 8 ∧
      NotCode (splitting stores) (effAddr (splitting stores) 1 9) 8) := by
  refine ⟨rfl, ?_, .inl rfl, (inMapFor_iff _ _ _).2 (by decide), (notCode_iff _ _ _ (by decide) (by decide)).2 (by decide)⟩
  simp only [List.forall_mem_cons, alignedFor_iff, inMapFor_iff]
  exact ⟨⟨by decide, by decide, (notCode_iff _ _ _ (by decide) (by decide)).2 (by decide)⟩,
    ⟨by decide, by decide, (notCode_iff _ _ _ (by decide) (by decide)).2 (by decide)⟩,
    ⟨by decide, by decide, (notCode_iff _ _ _ (by decide) (by decide)).2 (by decide)⟩,
    ⟨by decide, by decide, (notCode_iff _ _ _ (by decide) (by decide)).2 (by decide)⟩, fun _ h => absurd h List.not_mem_nil⟩

/-- Widths 2, 4 and 8, a load and a store. -/
theorem witness_MisalignedDataAccessFaults :
    stores.config.misalignPolicy = .fault ∧ Passes always stores ∧
    (dataAccess (.ld16s always 3 1 1) = some (1, 1, 2) ∧ (effAddr stores 1 1).toNat % 2 ≠ 0) ∧
    (dataAccess (.ld32u always 3 1 2) = some (1, 2, 4) ∧ (effAddr stores 1 2).toNat % 4 ≠ 0) ∧
    (dataAccess (.st64 always 3 1 4) = some (1, 4, 8) ∧ (effAddr stores 1 4).toNat % 8 ≠ 0) := by
  unfold Passes
  decide

/-- The state with eight mapped bytes, and `MISALIGN_POLICY` split. -/
def eightBytes : State :=
  { withX 0x2000 0 with config := { Config.launch with memMap := [⟨0x2000, 8⟩], misalignPolicy := .split } }

/-- The byte after the last mapped one, and an access of which only the last byte is outside. -/
theorem witness_UnmappedDataAccessFaults :
    (dataAccess (.ld8s always 3 1 8) = some (1, 8, 1) ∧ Passes always eightBytes ∧
      AlignedFor eightBytes (effAddr eightBytes 1 8) 1 ∧ ¬ InMapFor eightBytes (effAddr eightBytes 1 8) 1) ∧
    (dataAccess (.st64 always 3 1 1) = some (1, 1, 8) ∧ AlignedFor eightBytes (effAddr eightBytes 1 1) 8 ∧
      ¬ InMapFor eightBytes (effAddr eightBytes 1 1) 8) := by
  refine ⟨⟨rfl, rfl, .inl rfl, ?_⟩, rfl, .inl rfl, ?_⟩ <;>
  · rw [inMapFor_iff]
    decide

/-- The last byte of a fetched bundle; under split an access of which only the last byte lies in it; the last byte of declared text. -/
theorem witness_StoreToCodeFaults :
    (dataAccess (.st8 always 3 1 15) = some (1, 15, 1) ∧ isStore (.st8 always 3 1 15) = true ∧
      AlignedFor { stores with fetchedBundles := [0x2000] } (effAddr stores 1 15) 1 ∧
      InMapFor { stores with fetchedBundles := [0x2000] } (effAddr stores 1 15) 1 ∧
      ¬ NotCode { stores with fetchedBundles := [0x2000] } (effAddr stores 1 15) 1) ∧
    (dataAccess (.st16 always 3 1 15) = some (1, 15, 2) ∧
      AlignedFor { splitting stores with fetchedBundles := [0x2010] } (effAddr stores 1 15) 2 ∧
      InMapFor { splitting stores with fetchedBundles := [0x2010] } (effAddr stores 1 15) 2 ∧
      ¬ NotCode { splitting stores with fetchedBundles := [0x2010] } (effAddr stores 1 15) 2) ∧
    (AlignedFor (withText stores) (effAddr stores 1 15) 1 ∧ InMapFor (withText stores) (effAddr stores 1 15) 1 ∧
      ¬ NotCode (withText stores) (effAddr stores 1 15) 1) := by
  refine ⟨⟨rfl, rfl, .inr (by decide), (inMapFor_iff _ _ _).2 (by decide), ?_⟩, ⟨rfl, .inl rfl,
    (inMapFor_iff _ _ _).2 (by decide), ?_⟩, .inr (by decide), (inMapFor_iff _ _ _).2 (by decide), ?_⟩ <;>
  · rw [notCode_iff _ _ _ (by decide) (by decide)]
    decide

/-- A store of each width and each load of it. -/
theorem witness_StoreThenLoad :
    Passes always stores ∧ (3 : Gpr) ≠ 0 ∧
    ∀ i ∈ [(Instr.st8 always 2 1 8, Instr.ld8u always 3 1 8), (.st8 always 2 1 8, .ld8s always 3 1 8),
        (.st16 always 2 1 8, .ld16u always 3 1 8), (.st16 always 2 1 8, .ld16s always 3 1 8),
        (.st32 always 2 1 8, .ld32u always 3 1 8), (.st32 always 2 1 8, .ld32s always 3 1 8),
        (.st64 always 2 1 8, .ld64 always 3 1 8)],
      ∃ t u, exec i.1 stores = .next t ∧ Passes always t ∧ effAddr t 1 8 = effAddr stores 1 8 ∧ exec i.2 t = .next u := by
  refine ⟨rfl, by decide, ?_⟩
  simp only [List.forall_mem_cons]
  exact ⟨⟨_, _, rfl, rfl, rfl, rfl⟩, ⟨_, _, rfl, rfl, rfl, rfl⟩, ⟨_, _, rfl, rfl, rfl, rfl⟩, ⟨_, _, rfl, rfl, rfl, rfl⟩,
    ⟨_, _, rfl, rfl, rfl, rfl⟩, ⟨_, _, rfl, rfl, rfl, rfl⟩, ⟨_, _, rfl, rfl, rfl, rfl⟩,
    fun _ h => absurd h List.not_mem_nil⟩

/-- One for each clause: other memory with the same bytes, an instruction that accesses no data, a load, a store. -/
theorem witness_OnlyFetchLoadStoreTouchMemory :
    (∀ k < 16, readCell [(0x2000, 1)] ((0x1000 : Word) + BitVec.ofNat 64 k).toNat =
      readCell [] ((0x1000 : Word) + BitVec.ofNat 64 k).toNat) ∧
    (dataAccess (.add always 3 1 2) = none ∧ after (exec (.add always 3 1 2) stores) ≠ none) ∧
    (dataAccess (.ld64 always 3 1 8) = some (1, 8, 8) ∧ isLoad (.ld64 always 3 1 8) = true ∧
      (∀ k < 8, readCell ((0x2007, 9) :: loads.mem) (effAddr loads 1 8 + BitVec.ofNat 64 k).toNat =
        readCell loads.mem (effAddr loads 1 8 + BitVec.ofNat 64 k).toNat) ∧
      after (exec (.ld64 always 3 1 8) loads) ≠ none) ∧
    (dataAccess (.st64 always 2 1 8) = some (1, 8, 8) ∧ isStore (.st64 always 2 1 8) = true ∧
      after (exec (.st64 always 2 1 8) stores) ≠ none ∧ ∀ k < 8, 0x2007 ≠ (effAddr stores 1 8 + BitVec.ofNat 64 k).toNat) := by
  decide

/-! ### The step -/

/-- `ADD r1, r0, #1 ; ADD r2, r1, #1 ; NOP` at the reset address, with its stop bits clear, and slot 1 next. -/
def inSlot1 (g : List Resource) : State :=
  { holding State.reset (packBundle 0 0x90 0x00008210401 0x00008008401) with slot := 1, group := g }

/-- The bundle at the reset address is program text. -/
theorem fetchesText_reset {s : State} (hp : s.pc = 0x1000) (hc : s.config = Config.launch) (hs : s.storedBundles = []) :
    FetchesText s := by
  refine ⟨(textAdmits_iff s).1 ?_, fun b _ ⟨e, he, _⟩ => ?_⟩
  · rw [hp, hc]
    decide
  · rw [hs] at he
    cases he

/-- A state whose next step can fetch. -/
theorem inSlot1_fetches (g : List Resource) :
    ¬ ((inSlot1 g).config.endPc = some (inSlot1 g).pc ∧ (inSlot1 g).slot = 0) ∧ InMapFor (inSlot1 g) (inSlot1 g).pc 16 ∧
    FetchesText (inSlot1 g) ∧
    (bundleAt (inSlot1 g).mem (inSlot1 g).pc).extractLsb' 126 2 = 0 ∧
    decodeSlot (bundleAt (inSlot1 g).mem (inSlot1 g).pc) (inSlot1 g).slot = .instr (.addi always 2 1 1) :=
  ⟨fun h => (nomatch h.1), (inMapFor_iff _ _ _).2 (by change allMapped (inSlot1 []).config 0x1000 16 = true; decide),
    fetchesText_reset rfl rfl rfl, by change (bundleAt (inSlot1 []).mem 0x1000).extractLsb' 126 2 = 0; decide,
    by change decodeSlot (bundleAt (inSlot1 []).mem 0x1000) 1 = _; decide⟩

/-- In a group that names another register. The other hypotheses: `inSlot1_fetches`. -/
theorem witness_StepRunsDecodedInstruction : ¬ Depends (inSlot1 [.gpr 5]) (.addi always 2 1 1) := by
  rintro ⟨r, hr, h⟩
  obtain rfl : r = .gpr 5 := List.mem_singleton.1 hr
  simp [NamesSource, NamesDest, NamesP, NamesX] at h

/-- In a group that names its source. The other hypotheses: `inSlot1_fetches`. -/
theorem witness_GroupHazardFaults : (inSlot1 [.gpr 1]).config.stopPolicy = .require ∧
    Depends (inSlot1 [.gpr 1]) (.addi always 2 1 1) :=
  ⟨rfl, .gpr 1, List.mem_singleton.2 rfl, .inl ⟨by decide, .inr ⟨by decide, rfl⟩⟩⟩

/-- The end; no map; no text; a bundle that was stored to; a reserved control bit; an illegal word. -/
theorem witness_StepFrontStops :
    (({ State.reset with config := { Config.launch with endPc := some 0x1000 } } : State).config.endPc = some State.reset.pc ∧
      State.reset.slot = 0) ∧
    (¬ (State.reset.config.endPc = some State.reset.pc ∧ State.reset.slot = 0)) ∧
    (¬ InMapFor { State.reset with config := { Config.launch with memMap := [⟨0x1000, 15⟩] } } 0x1000 16) ∧
    (InMapFor { State.reset with pc := 0x2000 } 0x2000 16 ∧ ¬ TextAdmits { State.reset with pc := 0x2000 }) ∧
    (InMapFor State.reset State.reset.pc 16 ∧ FetchesText State.reset) ∧
    (([⟨0x2000, 0x2008⟩, ⟨0x1000, 0x100F⟩] : List Stored) = [⟨0x2000, 0x2008⟩] ++ ⟨0x1000, 0x100F⟩ :: [] ∧
      Fetches State.reset 0x1000 ∧ ¬ Fetches State.reset 0x2000) ∧
    ((bundleAt (holding State.reset (packBundle 0b10000 0 0 0)).mem 0x1000).extractLsb' 126 2 ≠ 0) ∧
    ((bundleAt (holding State.reset (slot0 0x0C)).mem 0x1000).extractLsb' 126 2 = 0 ∧
      decodeSlot (bundleAt (holding State.reset (slot0 0x0C)).mem 0x1000) 0 = .illegal .reservedCondition) := by
  refine ⟨⟨rfl, rfl⟩, fun h => (nomatch h.1), ?_,
    ⟨(inMapFor_iff _ _ _).2 (by decide), fun h => absurd ((textAdmits_iff _).2 h) (by decide)⟩,
    ⟨(inMapFor_iff _ _ _).2 (by decide), fetchesText_reset rfl rfl rfl⟩,
    ⟨rfl, ⟨0, by decide, by decide⟩, by unfold Fetches; decide⟩, by decide, by decide, by decide⟩
  rw [inMapFor_iff]
  decide

/-- The reserved opcode 5, and ADD with bit 33 set, under P0.EQ, with P0.eq set and clear, in a group that names nothing and in one
that names P0 or `r1`. -/
theorem witness_UnlistedWordStep :
    (decodeSlot (bundleAt (holding State.reset (slot0 0x00000000502)).mem 0x1000) 0 = .unlisted ⟨0, .peq⟩ .opcode ∧
      (bundleAt (holding State.reset (slot0 0x00000000502)).mem 0x1000).extractLsb' 126 2 = 0 ∧
      InMapFor State.reset State.reset.pc 16 ∧ ¬ State.reset.config.endPc = some State.reset.pc ∧
      FetchesText State.reset ∧
      ¬ (∃ x ∈ State.reset.group, ReservedSource ⟨0, .peq⟩ .opcode x ∨ ReservedDest .opcode x)) ∧
    (State.reset.config.stopPolicy = .require ∧
      ∃ x ∈ (inGroup 0 [.pred 0]).group, ReservedSource ⟨0, .peq⟩ .opcode x ∨ ReservedDest .opcode x) ∧
    (decodeSlot (bundleAt (holding State.reset (slot0 0x00010246402)).mem 0x1000) 0 = .unlisted ⟨0, .peq⟩ (.store 2 1) ∧
      ∃ x ∈ (inGroup 0 [.gpr 2]).group, ReservedSource ⟨0, .peq⟩ (.store 2 1) x ∨ ReservedDest (.store 2 1) x) ∧
    (decodeSlot (bundleAt (holding State.reset (slot0 0x01210218202)).mem 0x1000) 0 = .spare (.add ⟨0, .peq⟩ 3 1 2) ∧
      (bundleAt (holding State.reset (slot0 0x01210218202)).mem 0x1000).extractLsb' 126 2 = 0 ∧
      ¬ Depends State.reset (.add ⟨0, .peq⟩ 3 1 2) ∧ Depends (inGroup 0 [.gpr 1]) (.add ⟨0, .peq⟩ 3 1 2)) ∧
    Passes ⟨0, .peq⟩ (writeP State.reset 0 ⟨true, false, false⟩) ∧ ¬ Passes ⟨0, .peq⟩ State.reset := by
  unfold Passes
  exact ⟨⟨by decide, by decide, (inMapFor_iff _ _ _).2 (by decide), (nomatch ·), fetchesText_reset rfl rfl rfl,
      fun ⟨_, h, _⟩ => List.not_mem_nil h⟩,
    ⟨rfl, .pred 0, List.mem_singleton.2 rfl, .inl (.inl ⟨by decide, rfl⟩)⟩,
    ⟨by decide, .gpr 2, List.mem_singleton.2 rfl, .inl (.inr (.inr (.inl ⟨by decide, rfl⟩)))⟩,
    ⟨by decide, by decide, fun ⟨_, h, _⟩ => List.not_mem_nil h,
      .gpr 1, List.mem_singleton.2 rfl, .inl ⟨by decide, .inr (.inl ⟨by decide, rfl⟩)⟩⟩, by decide, by decide⟩

/-- The state of X8's hazard under `STOP_POLICY` ignore. -/
theorem witness_IgnoredStopBitsNeverFault :
    ({ inSlot1 [.gpr 1] with config := { Config.launch with stopPolicy := .ignore } } : State).config.stopPolicy = .ignore := rfl

theorem witness_AllStopsAreSafe :
    (holding State.reset (packBundle 7 0x90 0x90 0x00008008401)).group = [] ∧
    (bundleAt (holding State.reset (packBundle 7 0x90 0x90 0x00008008401)).mem 0x1000).extractLsb' 123 3 = 7#3 ∧
    after (step (holding State.reset (packBundle 7 0x90 0x90 0x00008008401))) ≠ none := by
  decide

/-! ### Invariants -/

/-- `JMP C1, C2, 16` at the reset address, with a bundle address in C2. -/
def jumping : State := writeC (holding State.reset (slot0 0x0000028CE01)) 2 0x5000

theorem jumping_inv : Inv jumping :=
  ⟨by decide, by decide, fun _ h => (nomatch h), fun _ h => (nomatch h)⟩

theorem jumping_steps : cAfter (step jumping) 1 = some (0x1010, 0x5010, 0) := by decide

/-- The premise and a step that completes: `jumping_steps`. -/
theorem witness_StepKeepsBundleAddresses : Inv jumping ∧ posAfter (step jumping) = some (0x5010, 0) := ⟨jumping_inv, by decide⟩

theorem witness_JumpTargetsStayAligned : Inv jumping ∧ cAfter (step jumping) 1 = some (0x1010, 0x5010, 0) :=
  ⟨jumping_inv, jumping_steps⟩

/-- A store into its own bundle, which is program text. -/
def selfStoring : State := holding (withX 0x1008 0) (slot0 0x00000206001)

/-- A state in which one bundle was fetched and another stored to, whose step completes; and a fixed text, with a step that completes and
one that is a store to it; and an open text, with all that is fetched known. -/
theorem witness_TextStaysUntouched :
    TextUntouched { jumping with fetchedBundles := [0x1000], storedBundles := [⟨0x2000, 0x2008⟩] } ∧
    posAfter (step { jumping with fetchedBundles := [0x1000], storedBundles := [⟨0x2000, 0x2008⟩] }) = some (0x5010, 0) ∧
    (jumping.config.programText ≠ none ∧ posAfter (step jumping) = some (0x5010, 0) ∧ Fetches jumping 0x1000) ∧
    (TextUntouched selfStoring ∧ selfStoring.config.programText ≠ none ∧
      faultOf (step selfStoring) = some (.accessFault 0x1008 .storeToCode)) ∧
    ((∀ b, Fetches (withOpenText selfStoring) b →
        b ∈ ({ withOpenText selfStoring with fetchedBundles := [0x1000] } : State).fetchedBundles) ∧
      faultOf (step { withOpenText selfStoring with fetchedBundles := [0x1000] }) = some (.accessFault 0x1008 .storeToCode)) :=
  ⟨fun b ⟨e, he, hb⟩ => by
      rw [← hb, List.mem_singleton.1 (show e ∈ [(⟨0x2000, 0x2008⟩ : Stored)] from he)]
      exact ⟨by decide, fun h => absurd ((inText_iff _ _).2 h) (by decide)⟩, by decide,
    ⟨by decide, by decide, 0, by decide, by decide⟩,
    ⟨fun _ ⟨_, h, _⟩ => absurd h List.not_mem_nil, by decide, by decide⟩,
    fun b ⟨k, hk, hb⟩ => List.mem_singleton.2 (hb.trans
      ((by decide : ∀ k < 16, bundleOf ((0x1000 : Word) + BitVec.ofNat 64 k) = 0x1000) k hk)), by decide⟩

/-- A run and a byte that its next step fetches; the last byte of a fetched bundle, and the last one of declared text. -/
theorem witness_FetchedBytesNeverChange :
    (∃ t, Reaches jumping t ∧ posAfter (step t) ≠ none ∧ Fetches t (bundleOf 0x100F)) ∧
    (posAfter (step { jumping with fetchedBundles := [0x1000] }) = some (0x5010, 0) ∧
      bundleOf 0x100F ∈ ({ jumping with fetchedBundles := [0x1000] } : State).fetchedBundles) ∧
    (posAfter (step (withText jumping)) = some (0x5010, 0) ∧ InText (withText jumping) (bundleOf 0x200F)) :=
  ⟨⟨jumping, .refl, by decide, 0, by decide, by decide⟩, by decide, by decide, (inText_iff _ _).1 (by decide)⟩

theorem witness_LaunchParametersConstant : posAfter (step jumping) = some (0x5010, 0) := by decide

end Sys2Proof.Tests
end

