-- ==== Sys2Proof/Proofs/PredicateRegisters.lean ====
section
/-! The predicate registers: the predicate test and its codes (spec/10_state.md R38), what writes them, and that the flags reach
the rest of the machine through that test alone (R37). -/

namespace Sys2Proof.Machine

/-! ## The predicate test and its codes -/

/-- The flags are bits 0, 1 and 2 of the predicate register (R36). -/
theorem Flags.getLsbD_bits (f : Flags) :
    f.bits.getLsbD 0 = f.eq ∧ f.bits.getLsbD 1 = f.lt ∧ f.bits.getLsbD 2 = f.ltu := by
  obtain ⟨eq, lt, ltu⟩ := f
  cases eq <;> cases lt <;> cases ltu <;> decide

/-- The reserved condition codes (R117 a). -/
theorem cond_ofBits_eq_none_iff (c : BitVec 4) : Cond.ofBits c = none ↔ 12 ≤ c.toNat := by
  simp [Cond.ofBits]

/-- Settles O15: the table of R38, and the position of each condition in the list of codes. -/
theorem predicateConditions : Obligations.PredicateConditions := by
  unfold Obligations.PredicateConditions
  refine ⟨fun f => ⟨rfl, rfl, rfl, rfl, rfl, rfl, rfl, rfl, rfl, rfl, rfl, rfl, f.getLsbD_bits⟩, cond_ofBits_bits,
    by decide, fun n hn h16 => ?_⟩
  rw [cond_ofBits_eq_none_iff, BitVec.toNat_ofNat, Nat.mod_eq_of_lt h16]
  exact hn

/-! ## What writes a predicate register -/

/-- An instruction under condition PF does nothing. -/
theorem Passes.cond_ne_pf {p : Pred} {s : State} (h : Passes p s) : p.cond ≠ .pf := by
  intro hc
  rw [Passes, hc] at h
  cases h

/-- A compare is the compare form under its own predicate, with flags that do not depend on the predicate registers, and it names
the register it writes unless it is a NOP. -/
theorem exec_of_isCompare {i : Instr} (hi : isCompare i = true) : ∃ (pt : PredReg) (flags : State → Flags),
    (∀ s, exec i s = setP i.pred pt s flags) ∧ (∀ (s : State) ps, flags { s with preds := ps } = flags s) ∧
    (i.pred.cond ≠ .pf → NamesDest i (.pred pt)) := by
  cases i with
  | cmpi p pt _ _ | biti p pt _ _ | cmp p pt _ _ =>
    exact ⟨pt, _, fun _ => rfl, fun _ _ => rfl, fun hc => ⟨fun h => hc h.1, rfl⟩⟩
  | _ => cases hi

/-- Of the effects an instruction can have, only a compare's write changes a predicate register. -/
theorem Effect.sameP {i : Instr} {s t : State} (h : Effect i s t) (hi : isCompare i = false) : SameP s t := by
  intro q
  cases h with
  | moved => simp
  | wroteX => simp
  | wroteP _ _ hc => simp [hc] at hi
  | jumped => simp
  | trapped => simp
  | stored _ _ _ s' _ _ _ hw =>
    obtain ⟨_, _, _, rfl⟩ := memWrite_ok hw
    exact readP_congr (by simp) q

/-! ## The state with other predicate registers -/

/-- The state with the given predicate registers in place of its own. -/
def withPreds (s : State) (ps : Vector Flags 16) : State := { s with preds := ps }

@[simp] theorem withPreds_slot (s : State) (ps : Vector Flags 16) : (withPreds s ps).slot = s.slot := rfl
@[simp] theorem withPreds_pc (s : State) (ps : Vector Flags 16) : (withPreds s ps).pc = s.pc := rfl
@[simp] theorem withPreds_config (s : State) (ps : Vector Flags 16) : (withPreds s ps).config = s.config := rfl

@[simp] theorem readX_withPreds (s : State) (ps : Vector Flags 16) (r : Gpr) : readX (withPreds s ps) r = readX s r := rfl
@[simp] theorem readC_withPreds (s : State) (ps : Vector Flags 16) (c : CodeReg) : readC (withPreds s ps) c = readC s c := rfl
@[simp] theorem effAddr_withPreds (s : State) (ps : Vector Flags 16) (ra : Gpr) (d : BitVec 14) :
    effAddr (withPreds s ps) ra d = effAddr s ra d := rfl
@[simp] theorem memRead_withPreds (s : State) (ps : Vector Flags 16) (a : Word) (n : Nat) :
    memRead (withPreds s ps) a n = memRead s a n := rfl

@[simp] theorem writeX_withPreds (s : State) (ps : Vector Flags 16) (r : Gpr) (v : Word) :
    writeX (withPreds s ps) r v = withPreds (writeX s r v) ps := by
  unfold writeX
  split <;> rfl

@[simp] theorem writeC_withPreds (s : State) (ps : Vector Flags 16) (c : CodeReg) (v : Word) :
    writeC (withPreds s ps) c v = withPreds (writeC s c v) ps := by
  unfold writeC
  split <;> rfl

@[simp] theorem advance_withPreds (s : State) (ps : Vector Flags 16) (len : Nat) :
    advance (withPreds s ps) len = withPreds (advance s len) ps := by
  simp only [advance, withPreds_slot, apply_dite (withPreds · ps)]
  rfl

@[simp] theorem memWrite_withPreds (s : State) (ps : Vector Flags 16) (a : Word) (n : Nat) (v : Word) :
    memWrite (withPreds s ps) a n v = (memWrite s a n v).map (withPreds · ps) := by
  simp only [memWrite, apply_ite (Except.map (withPreds · ps))]
  rfl

/-! ## Outcomes that agree but for the predicate registers -/

/-- The same outcome, but for the predicate registers of the next state. -/
inductive AgreesButP : Result → Result → Prop where
  | next (t : State) (ps : Vector Flags 16) : AgreesButP (.next t) (.next (withPreds t ps))
  | fault (f : Fault) : AgreesButP (.fault f) (.fault f)

theorem AgreesButP.of_next {t : State} {o : Result} (h : AgreesButP (.next t) o) :
    ∃ t', o = .next t' ∧ SameX t t' ∧ SameC t t' ∧ SameMem t t' ∧ t'.pc = t.pc ∧ t'.slot = t.slot := by
  cases h with
  | next _ ps => exact ⟨_, rfl, fun _ => rfl, fun _ _ => rfl, fun _ => rfl, rfl, rfl⟩

theorem AgreesButP.of_fault {f : Fault} {o : Result} (h : AgreesButP (.fault f) o) : o = .fault f := by
  cases h with
  | fault => rfl

theorem takeException_agreesButP (e : Exception) (s : State) (ps : Vector Flags 16) :
    AgreesButP (takeException e s) (takeException e (withPreds s ps)) := by
  cases h : s.config.trapVector with
  | some v => simpa [takeException, h] using .next (goTo (writeC s 6 s.pc) v) ps
  | none => simpa [takeException, h] using .fault _

theorem jumpAndLink_agreesButP (ct ca : CodeReg) (off : Word) (s : State) (ps : Vector Flags 16) :
    AgreesButP (jumpAndLink ct ca off s) (jumpAndLink ct ca off (withPreds s ps)) := by
  simp only [jumpAndLink, readC_withPreds, withPreds_pc, writeC_withPreds]
  by_cases h : (readC s ca + off).toNat % 16 = 0
  · rw [if_pos h, if_pos h]
    exact .next _ ps
  · rw [if_neg h, if_neg h]
    exact .fault _

/-! ## The forms, under a predicate test with the same answer -/

section
variable {p : Pred} {s : State} {ps : Vector Flags 16}

theorem guarded_agreesButP (hp : Passes p (withPreds s ps) ↔ Passes p s) {len : Nat} {op : State → Result}
    (hop : AgreesButP (op s) (op (withPreds s ps))) :
    AgreesButP (guarded p len s op) (guarded p len (withPreds s ps) op) := by
  by_cases h : Passes p s
  · rw [guarded_of_passes h, guarded_of_passes (hp.2 h)]
    exact hop
  · rw [guarded_of_fails h, guarded_of_fails (mt hp.1 h), advance_withPreds]
    exact .next _ ps

/-- A write of one general register, of a value that does not depend on the predicate registers. -/
theorem guarded_writeX_agreesButP (hp : Passes p (withPreds s ps) ↔ Passes p s) {rt : Gpr} {len : Nat} {value : State → Word}
    (hv : value (withPreds s ps) = value s) :
    AgreesButP (guarded p len s fun t => .next (advance (writeX t rt (value t)) len))
      (guarded p len (withPreds s ps) fun t => .next (advance (writeX t rt (value t)) len)) := by
  refine guarded_agreesButP hp ?_
  simpa [hv] using .next (advance (writeX s rt (value s)) len) ps

theorem setP_agreesButP (hp : Passes p (withPreds s ps) ↔ Passes p s) (pt : PredReg) (flags : State → Flags) :
    AgreesButP (setP p pt s flags) (setP p pt (withPreds s ps) flags) := by
  refine guarded_agreesButP hp ?_
  have h : writeP (withPreds s ps) pt (flags (withPreds s ps)) =
      withPreds (writeP s pt (flags s)) (ps.set pt (flags (withPreds s ps))) := rfl
  rw [h, advance_withPreds]
  exact .next _ _

theorem overflowForm_agreesButP (hp : Passes p (withPreds s ps) ↔ Passes p s) (o : Word → Word → Bool)
    (op : Word → Word → Word) (rt ra rb : Gpr) :
    AgreesButP (overflowForm o op p rt ra rb s) (overflowForm o op p rt ra rb (withPreds s ps)) := by
  refine guarded_agreesButP hp ?_
  simp only [readX_withPreds, withPreds_config, writeX_withPreds, advance_withPreds]
  by_cases h : (o (readX s ra) (readX s rb) && s.config.ovfEnable) = true
  · rw [if_pos h, if_pos h]
    exact takeException_agreesButP _ s ps
  · rw [if_neg h, if_neg h]
    exact .next _ ps

theorem loadForm_agreesButP (hp : Passes p (withPreds s ps) ↔ Passes p s) (e : Extension) (n : Nat) (rt ra : Gpr)
    (d : BitVec 14) : AgreesButP (loadForm e n p rt ra d s) (loadForm e n p rt ra d (withPreds s ps)) := by
  refine guarded_agreesButP hp ?_
  simp only [effAddr_withPreds, memRead_withPreds, writeX_withPreds, advance_withPreds]
  cases memRead s (effAddr s ra d) n with
  | ok v => exact .next _ ps
  | error f => exact .fault f

theorem storeForm_agreesButP (hp : Passes p (withPreds s ps) ↔ Passes p s) (n : Nat) (rb ra : Gpr) (d : BitVec 14) :
    AgreesButP (storeForm n p rb ra d s) (storeForm n p rb ra d (withPreds s ps)) := by
  refine guarded_agreesButP hp ?_
  simp only [effAddr_withPreds, readX_withPreds, memWrite_withPreds]
  cases memWrite s (effAddr s ra d) n (readX s rb) with
  | ok t => simpa [Except.map] using .next (advance t 1) ps
  | error f => exact .fault f

end

/-- An instruction whose predicate test gives the same answer ends alike, but for the predicate registers. -/
theorem exec_agreesButP {i : Instr} {s : State} {ps : Vector Flags 16}
    (hp : Passes i.pred (withPreds s ps) ↔ Passes i.pred s) : AgreesButP (exec i s) (exec i (withPreds s ps)) := by
  cases i with
  | addi | andi | ori | eori | and | or | eor | andcm | nand | nor | enor | movi =>
    simp only [exec_addi, exec_andi, exec_ori, exec_eori, exec_and, exec_or, exec_eor, exec_andcm, exec_nand, exec_nor,
      exec_enor, exec_movi]
    exact guarded_writeX_agreesButP hp rfl
  | cmpi | biti | cmp =>
    simp only [exec_cmpi, exec_biti, exec_cmp]
    exact setP_agreesButP hp _ _
  | add | sub => exact overflowForm_agreesButP hp _ _ _ _ _
  | jmp | jml => exact guarded_agreesButP hp (jumpAndLink_agreesButP _ _ _ s ps)
  | ld8s | ld8u | ld16s | ld16u | ld32s | ld32u | ld64 => exact loadForm_agreesButP hp _ _ _ _ _
  | st8 | st16 | st32 | st64 => exact storeForm_agreesButP hp _ _ _ _
  | nop =>
    rw [exec_nop, exec_nop, advance_withPreds]
    exact .next _ ps

/-- Settles O17, clause by clause: the compare form, the effects of the other instructions, and the agreement of every
instruction's outcomes. -/
theorem predicateRegisterTraffic : Obligations.PredicateRegisterTraffic := by
  unfold Obligations.PredicateRegisterTraffic
  refine ⟨fun i s hi => ?_, fun i s t ht hi => (exec_next ht).sameP hi, fun i s ps htest => ?_⟩
  · obtain ⟨pt, flags, hexec, hflags, hdest⟩ := exec_of_isCompare hi
    refine ⟨pt, flags s, fun ps hpass => ⟨hdest hpass.cond_ne_pf, ?_⟩⟩
    obtain ⟨t, ht, hwrote, _⟩ := setP_gives hpass pt flags
    rw [hflags] at hwrote
    exact ⟨t, (hexec _).trans ht, hwrote⟩
  · have hagree : AgreesButP (exec i s) (exec i (withPreds s ps)) := exec_agreesButP (iff_of_eq (congrArg (· = true) htest))
    exact ⟨fun t ht => (ht ▸ hagree).of_next, fun f hf => (hf ▸ hagree).of_fault⟩

end Sys2Proof.Machine
end

