-- ==== Sys2Proof/Proofs/MoveImmediateDecoding.lean ====
section
/-! What the decoder reads from a word with MOVI's major opcode (spec/30_encoding.md R103, R109, R121). -/

namespace Sys2Proof

/-! ## The major opcode -/

/-- A word whose bits 14:11 are MOVI's has none of the opcodes with other bits there (R103). -/
theorem opcodeField_ne_of_major {w : SlotWord} (hm : major4Field w = movMajor) {op : BitVec 7}
    (ho : op.extractLsb' 3 4 ≠ movMajor) : opcodeField w ≠ op := by
  rintro rfl
  exact ho ((major4Field_eq w).symm.trans hm)

/-- MOVI may start in slots 0 and 1 (R121). -/
theorem slotLegal_of_movMajor {w : SlotWord} (hm : major4Field w = movMajor) {k : Slot} (hk : k ≠ 2) : slotLegal w k = true := by
  rw [slotLegal, if_pos hm]
  exact bne_iff_ne.2 hk

/-- The major opcode alone selects MOVI: bits 10:8 belong to the immediate (R103). -/
theorem select_of_movMajor {w : SlotWord} (hm : major4Field w = movMajor) (w2 : SlotWord) (p : Pred) :
    select w w2 p = .ok (.movi p (rtField w) (movImmField w w2)) := by
  rw [select]
  iterate 7 rw [if_neg (opcodeField_ne_of_major hm (by decide))]
  rw [if_pos hm]

/-! ## The three slices of the immediate (R109) -/

theorem extractLsb'_high_movImmField (w w2 : SlotWord) : (movImmField w w2).extractLsb' 23 41 = w2 := by
  rw [movImmField, slice_high _ (w.extractLsb' 8 3) _ _ 20 (by decide), slice_high _ (w.extractLsb' 21 20) _ _ 0 (by decide),
    BitVec.extractLsb'_eq_self]

theorem extractLsb'_mid_movImmField (w w2 : SlotWord) : (movImmField w w2).extractLsb' 3 20 = w.extractLsb' 21 20 := by
  rw [movImmField, slice_high _ (w.extractLsb' 8 3) _ _ 0 (by decide), slice_low _ (w.extractLsb' 21 20) _ _ (by decide),
    BitVec.extractLsb'_eq_self]

theorem extractLsb'_low_movImmField (w w2 : SlotWord) : (movImmField w w2).extractLsb' 0 3 = w.extractLsb' 8 3 := by
  rw [movImmField, slice_low _ (w.extractLsb' 8 3) _ _ (by decide), BitVec.extractLsb'_eq_self]

/-- Settles O7: the major opcode selects MOVI, and the immediate's slices are read back from its concatenation. -/
theorem moviFormatDecodes : Obligations.MoviFormatDecodes := by
  unfold Obligations.MoviFormatDecodes
  intro b k p hp hb hk w w2 hm
  exact ⟨movImmField w w2, decodeSlot_of_select hp hb (slotLegal_of_movMajor hm hk) (select_of_movMajor hm w2 p) rfl,
    extractLsb'_high_movImmField w w2, extractLsb'_mid_movImmField w w2, extractLsb'_low_movImmField w w2⟩

end Sys2Proof
end

section
/-! AND: what the decoder reads from a word with its opcode and function, and its operation (spec/42_arithmetic_logical.md R195). -/

namespace Sys2Proof

/-- Opcode 2 with function 8 selects AND, with the three register fields of format R2 (R98, R113). -/
theorem select_of_and {w : SlotWord} (ho : opcodeField w = number7 0 2) (hf : func7Field w = number7 0 8) (w2 : SlotWord)
    (p : Pred) : select w w2 p = .ok (.and p (rtField w) (raField w) (rbField w)) := by
  rw [select, if_pos ho, selectR2]
  iterate 3 rw [if_neg (hf.trans_ne (by decide))]
  rw [if_pos hf]

/-- In every slot such a word with bit 33 zero is AND (R98, R115). -/
theorem decodeSlot_of_and {b : Bundle} {k : Slot} {p : Pred} (hp : p.wf = true) (hb : (slotWord b k).extractLsb' 0 8 = p.bits)
    (ho : opcodeField (slotWord b k) = number7 0 2) (hu : unused33 (slotWord b k) = 0)
    (hf : func7Field (slotWord b k) = number7 0 8) :
    decodeSlot b k = .instr (.and p (rtField (slotWord b k)) (raField (slotWord b k)) (rbField (slotWord b k))) :=
  decodeSlot_of_select hp hb (slotLegal_of_opcode ho (by decide) (by decide) k) (select_of_and ho hf _ p) (beq_iff_eq.2 hu)

namespace Machine

/-- The written target, unless it is `x[0]` (spec/10_state.md R21). -/
theorem WroteX.readX_target {s t : State} {rt : Gpr} {v : Word} (h : WroteX s t rt v) (hr : rt ≠ 0) : readX t rt = v :=
  (h rt).trans (if_pos ⟨rfl, hr⟩)

/-- AND writes the bitwise and of its sources where its predicate test passes (R195). -/
theorem exec_and_gives {p : Pred} {s : State} (h : Passes p s) (rt ra rb : Gpr) :
    GivesX (exec (.and p rt ra rb) s) s 1 rt (readX s ra &&& readX s rb) :=
  setX_gives h rt fun t => readX t ra &&& readX t rb

/-- Settles O19: the operation from the register form's result, the function code from the selection, and the example word and
value by evaluation. -/
theorem andOperation : Obligations.AndOperation := by
  unfold Obligations.AndOperation
  refine ⟨fun p rt ra rb s hpass => ?_, ?_, by decide, by decide⟩
  · obtain ⟨t, ht, hwrote, _⟩ := exec_and_gives hpass rt ra rb
    exact ⟨t, ht, hwrote.readX_target⟩
  · intro b k p hp hb w ho hu hf
    exact decodeSlot_of_and hp hb ho hu hf

end Machine
end Sys2Proof
end

section
/-! The opcode map, by its rows (spec/30_encoding.md R112, R113; spec/45_load_store.md R262, R272): the decoder's selection answers
an instruction exactly as a row says, and the encoder's words select their own instruction's row. -/

namespace Sys2Proof

/-! ## The rows -/

/-- The opcodes of format RI. -/
inductive ImmRow : BitVec 7 → (Pred → Gpr → Gpr → BitVec 14 → Instr) → Prop where
  | addi : ImmRow (number7 0 4) .addi
  | andi : ImmRow (number7 0 8) .andi
  | ori : ImmRow (number7 0 9) .ori
  | eori : ImmRow (number7 1 0) .eori

/-- The opcodes of format CI. -/
inductive CmpImmRow : BitVec 7 → (Pred → PredReg → Gpr → BitVec 14 → Instr) → Prop where
  | cmpi : CmpImmRow (number7 0 6) .cmpi
  | biti : CmpImmRow (number7 0 7) .biti

/-- The functions of format R2. -/
inductive R2Row : BitVec 7 → (Pred → Gpr → Gpr → Gpr → Instr) → Prop where
  | add : R2Row (number7 0 4) .add
  | sub : R2Row (number7 0 5) .sub
  | and : R2Row (number7 0 8) .and
  | or : R2Row (number7 0 9) .or
  | eor : R2Row (number7 1 0) .eor
  | andcm : R2Row (number7 1 1) .andcm
  | nand : R2Row (number7 1 2) .nand
  | nor : R2Row (number7 1 3) .nor
  | enor : R2Row (number7 1 4) .enor

/-- The `Func4` values of format LD. -/
inductive LoadRow : BitVec 4 → (Pred → Gpr → Gpr → BitVec 14 → Instr) → Prop where
  | ld8s : LoadRow (Config.ldFunc .ld8s) .ld8s
  | ld8u : LoadRow (Config.ldFunc .ld8u) .ld8u
  | ld16s : LoadRow (Config.ldFunc .ld16s) .ld16s
  | ld16u : LoadRow (Config.ldFunc .ld16u) .ld16u
  | ld32s : LoadRow (Config.ldFunc .ld32s) .ld32s
  | ld32u : LoadRow (Config.ldFunc .ld32u) .ld32u
  | ld64 : LoadRow (Config.ldFunc .ld64) .ld64

/-- The `Func4` values of format ST. -/
inductive StoreRow : BitVec 4 → (Pred → Gpr → Gpr → BitVec 14 → Instr) → Prop where
  | st8 : StoreRow (Config.stFunc .st8) .st8
  | st16 : StoreRow (Config.stFunc .st16) .st16
  | st32 : StoreRow (Config.stFunc .st32) .st32
  | st64 : StoreRow (Config.stFunc .st64) .st64

/-! ## The selection of a row -/

section
variable {w w2 : SlotWord} {p : Pred}

theorem select_of_immRow {op : BitVec 7} {f : Pred → Gpr → Gpr → BitVec 14 → Instr} (h : ImmRow op f) (ho : opcodeField w = op) :
    select w w2 p = .ok (f p (rtField w) (raField w) (imm14Field w)) := by
  cases h <;> (rw [select, ho]; rfl)

theorem select_of_cmpImmRow {op : BitVec 7} {f : Pred → PredReg → Gpr → BitVec 14 → Instr} (h : CmpImmRow op f)
    (ho : opcodeField w = op) : select w w2 p = .ok (f p (ptField w) (raField w) (imm14Field w)) := by
  cases h <;> (rw [select, ho]; rfl)

theorem select_of_opcode_two (ho : opcodeField w = number7 0 2) : select w w2 p = selectR2 w p := by
  rw [select, if_pos ho]

theorem select_of_r2Row {fn : BitVec 7} {f : Pred → Gpr → Gpr → Gpr → Instr} (h : R2Row fn f)
    (ho : opcodeField w = number7 0 2) (hf : func7Field w = fn) :
    select w w2 p = .ok (f p (rtField w) (raField w) (rbField w)) := by
  rw [select_of_opcode_two ho]
  cases h <;> (rw [selectR2, hf]; rfl)

theorem select_of_cmp (ho : opcodeField w = number7 0 2) (hf : func7Field w = number7 0 6) :
    select w w2 p = .ok (.cmp p (ptField w) (raField w) (rbField w)) := by
  rw [select_of_opcode_two ho, selectR2, hf]
  rfl

theorem select_of_jmp (ho : opcodeField w = number7 7 8) :
    select w w2 p = .ok (.jmp p (ctField w) (caField w) (addrField w)) := by
  rw [select, major4Field_eq, ho]
  rfl

theorem select_of_jml (ho : opcodeField w = opJml) :
    select w w2 p = .ok (.jml p (ctField w) (caField w) (addrHighField w2 ++ addrField w)) := by
  rw [select, major4Field_eq, ho]
  rfl

/-- An opcode with other bits 14:12. -/
theorem opcodeField_ne_of_major3 {m : BitVec 3} (hm : major3Field w = m) {op : BitVec 7} (ho : op.extractLsb' 4 3 ≠ m) :
    opcodeField w ≠ op := by
  rintro rfl
  exact ho ((major3Field_eq w).symm.trans hm)

/-- Bits 14:11 hold bits 14:12. -/
theorem major4Field_ne_of_major3 {m : BitVec 3} (hm : major3Field w = m) (ho : movMajor.extractLsb' 1 3 ≠ m) :
    major4Field w ≠ movMajor := by
  intro h
  rw [← h, major4Field, slice_slice _ _ _ _ _ (by omega)] at ho
  exact ho hm

theorem select_of_loadMajor (hm : major3Field w = loadMajor) : select w w2 p = selectLoad w p := by
  rw [select]
  iterate 7 rw [if_neg (opcodeField_ne_of_major3 hm (by decide))]
  rw [if_neg (major4Field_ne_of_major3 hm (by decide))]
  iterate 2 rw [if_neg (opcodeField_ne_of_major3 hm (by decide))]
  rw [if_pos hm]

theorem select_of_storeMajor (hm : major3Field w = storeMajor) : select w w2 p = selectStore w p := by
  rw [select]
  iterate 7 rw [if_neg (opcodeField_ne_of_major3 hm (by decide))]
  rw [if_neg (major4Field_ne_of_major3 hm (by decide))]
  iterate 2 rw [if_neg (opcodeField_ne_of_major3 hm (by decide))]
  rw [if_neg (hm.trans_ne (by decide)), if_pos hm]

theorem select_of_loadRow {fn : BitVec 4} {f : Pred → Gpr → Gpr → BitVec 14 → Instr} (h : LoadRow fn f)
    (hm : major3Field w = loadMajor) (hf : func4Field w = fn) :
    select w w2 p = .ok (f p (rtField w) (raField w) (imm14Field w)) := by
  rw [select_of_loadMajor hm]
  cases h <;> (rw [selectLoad, hf]; rfl)

theorem select_of_storeRow {fn : BitVec 4} {f : Pred → Gpr → Gpr → BitVec 14 → Instr} (h : StoreRow fn f)
    (hm : major3Field w = storeMajor) (hf : func4Field w = fn) :
    select w w2 p = .ok (f p (rbField w) (raField w) (storeDispField w)) := by
  rw [select_of_storeMajor hm]
  cases h <;> (rw [selectStore, hf]; rfl)

end

/-! ## What the selection answers -/

/-- The instructions that the selection answers for a word `w` with the next slot's word `w2`. -/
inductive Selected (w w2 : SlotWord) (p : Pred) : Instr → Prop where
  | imm {op : BitVec 7} {f : Pred → Gpr → Gpr → BitVec 14 → Instr} (ho : opcodeField w = op) (h : ImmRow op f) :
      Selected w w2 p (f p (rtField w) (raField w) (imm14Field w))
  | cmpImm {op : BitVec 7} {f : Pred → PredReg → Gpr → BitVec 14 → Instr} (ho : opcodeField w = op) (h : CmpImmRow op f) :
      Selected w w2 p (f p (ptField w) (raField w) (imm14Field w))
  | r2 {fn : BitVec 7} {f : Pred → Gpr → Gpr → Gpr → Instr} (ho : opcodeField w = number7 0 2) (hf : func7Field w = fn)
      (h : R2Row fn f) :
      Selected w w2 p (f p (rtField w) (raField w) (rbField w))
  | cmp (ho : opcodeField w = number7 0 2) (hf : func7Field w = number7 0 6) :
      Selected w w2 p (.cmp p (ptField w) (raField w) (rbField w))
  | movi (hm : major4Field w = movMajor) : Selected w w2 p (.movi p (rtField w) (movImmField w w2))
  | jmp (ho : opcodeField w = number7 7 8) : Selected w w2 p (.jmp p (ctField w) (caField w) (addrField w))
  | jml (ho : opcodeField w = opJml) : Selected w w2 p (.jml p (ctField w) (caField w) (addrHighField w2 ++ addrField w))
  | load {fn : BitVec 4} {f : Pred → Gpr → Gpr → BitVec 14 → Instr} (hm : major3Field w = loadMajor) (hf : func4Field w = fn)
      (h : LoadRow fn f) :
      Selected w w2 p (f p (rtField w) (raField w) (imm14Field w))
  | store {fn : BitVec 4} {f : Pred → Gpr → Gpr → BitVec 14 → Instr} (hm : major3Field w = storeMajor) (hf : func4Field w = fn)
      (h : StoreRow fn f) :
      Selected w w2 p (f p (rbField w) (raField w) (storeDispField w))

theorem selectR2_ok {w w2 : SlotWord} {p : Pred} {i : Instr} (ho : opcodeField w = number7 0 2) (h : selectR2 w p = .ok i) :
    Selected w w2 p i := by
  unfold selectR2 at h
  rcases ite_ok h with ⟨hf, ⟨⟩⟩ | h; · exact .r2 ho hf .add
  rcases ite_ok h with ⟨hf, ⟨⟩⟩ | h; · exact .r2 ho hf .sub
  rcases ite_ok h with ⟨hf, ⟨⟩⟩ | h; · exact .cmp ho hf
  rcases ite_ok h with ⟨hf, ⟨⟩⟩ | h; · exact .r2 ho hf .and
  rcases ite_ok h with ⟨hf, ⟨⟩⟩ | h; · exact .r2 ho hf .or
  rcases ite_ok h with ⟨hf, ⟨⟩⟩ | h; · exact .r2 ho hf .eor
  rcases ite_ok h with ⟨hf, ⟨⟩⟩ | h; · exact .r2 ho hf .andcm
  rcases ite_ok h with ⟨hf, ⟨⟩⟩ | h; · exact .r2 ho hf .nand
  rcases ite_ok h with ⟨hf, ⟨⟩⟩ | h; · exact .r2 ho hf .nor
  rcases ite_ok h with ⟨hf, ⟨⟩⟩ | h; · exact .r2 ho hf .enor
  cases h

theorem selectLoad_ok {w w2 : SlotWord} {p : Pred} {i : Instr} (hm : major3Field w = loadMajor) (h : selectLoad w p = .ok i) :
    Selected w w2 p i := by
  unfold selectLoad at h
  rcases ite_ok h with ⟨hf, ⟨⟩⟩ | h; · exact .load hm hf .ld8s
  rcases ite_ok h with ⟨hf, ⟨⟩⟩ | h; · exact .load hm hf .ld8u
  rcases ite_ok h with ⟨hf, ⟨⟩⟩ | h; · exact .load hm hf .ld16s
  rcases ite_ok h with ⟨hf, ⟨⟩⟩ | h; · exact .load hm hf .ld16u
  rcases ite_ok h with ⟨hf, ⟨⟩⟩ | h; · exact .load hm hf .ld32s
  rcases ite_ok h with ⟨hf, ⟨⟩⟩ | h; · exact .load hm hf .ld32u
  rcases ite_ok h with ⟨hf, ⟨⟩⟩ | h; · exact .load hm hf .ld64
  cases h

theorem selectStore_ok {w w2 : SlotWord} {p : Pred} {i : Instr} (hm : major3Field w = storeMajor) (h : selectStore w p = .ok i) :
    Selected w w2 p i := by
  unfold selectStore at h
  rcases ite_ok h with ⟨hf, ⟨⟩⟩ | h; · exact .store hm hf .st8
  rcases ite_ok h with ⟨hf, ⟨⟩⟩ | h; · exact .store hm hf .st16
  rcases ite_ok h with ⟨hf, ⟨⟩⟩ | h; · exact .store hm hf .st32
  rcases ite_ok h with ⟨hf, ⟨⟩⟩ | h; · exact .store hm hf .st64
  cases h

/-- Every instruction that the selection answers is a row's. -/
theorem select_ok {w w2 : SlotWord} {p : Pred} {i : Instr} (h : select w w2 p = .ok i) : Selected w w2 p i := by
  unfold select at h
  rcases ite_ok h with ⟨ho, h⟩ | h; · exact selectR2_ok ho h
  rcases ite_ok h with ⟨ho, ⟨⟩⟩ | h; · exact .imm ho .addi
  rcases ite_ok h with ⟨ho, ⟨⟩⟩ | h; · exact .cmpImm ho .cmpi
  rcases ite_ok h with ⟨ho, ⟨⟩⟩ | h; · exact .cmpImm ho .biti
  rcases ite_ok h with ⟨ho, ⟨⟩⟩ | h; · exact .imm ho .andi
  rcases ite_ok h with ⟨ho, ⟨⟩⟩ | h; · exact .imm ho .ori
  rcases ite_ok h with ⟨ho, ⟨⟩⟩ | h; · exact .imm ho .eori
  rcases ite_ok h with ⟨hm, ⟨⟩⟩ | h; · exact .movi hm
  rcases ite_ok h with ⟨ho, ⟨⟩⟩ | h; · exact .jmp ho
  rcases ite_ok h with ⟨ho, ⟨⟩⟩ | h; · exact .jml ho
  rcases ite_ok h with ⟨hm, h⟩ | h; · exact selectLoad_ok hm h
  rcases ite_ok h with ⟨hm, h⟩ | h; · exact selectStore_ok hm h
  cases h

end Sys2Proof
end

section
/-! Decoding what the encoder wrote (spec/30_encoding.md R120): in every slot an instruction may start in, its own words decode to it. -/

namespace Sys2Proof

/-! ## Fields of the encoder's words that the selection looks at -/

theorem major3Field_formatLD (func4 : BitVec 4) (p : Pred) (rt ra : Gpr) (disp : BitVec 14) :
    major3Field (formatLD func4 p rt ra disp) = loadMajor := by
  rw [major3Field_eq, opcodeField_formatLD, slice_high _ func4 _ _ 0 (by decide), BitVec.extractLsb'_eq_self]

theorem func4Field_formatLD (func4 : BitVec 4) (p : Pred) (rt ra : Gpr) (disp : BitVec 14) :
    func4Field (formatLD func4 p rt ra disp) = func4 := by
  rw [func4Field_eq, opcodeField_formatLD, slice_low _ func4 _ _ (by decide), BitVec.extractLsb'_eq_self]

theorem major3Field_formatST (func4 : BitVec 4) (p : Pred) (rb ra : Gpr) (disp : BitVec 14) :
    major3Field (formatST func4 p rb ra disp) = storeMajor := by
  rw [major3Field_eq, opcodeField_formatST, slice_high _ func4 _ _ 0 (by decide), BitVec.extractLsb'_eq_self]

theorem func4Field_formatST (func4 : BitVec 4) (p : Pred) (rb ra : Gpr) (disp : BitVec 14) :
    func4Field (formatST func4 p rb ra disp) = func4 := by
  rw [func4Field_eq, opcodeField_formatST, slice_low _ func4 _ _ (by decide), BitVec.extractLsb'_eq_self]

theorem major4Field_formatMV (p : Pred) (rt : Gpr) (imm : Word) : major4Field (formatMV p rt imm) = movMajor := by
  rw [major4Field_eq, opcodeField_formatMV, slice_high _ (imm.extractLsb' 0 3) _ _ 0 (by decide), BitVec.extractLsb'_eq_self]

/-! ## Legal slots and unused fields -/

/-- Loads and stores may start in every slot. -/
theorem slotLegal_of_major3 {w : SlotWord} {m : BitVec 3} (hm : major3Field w = m) (h4 : movMajor.extractLsb' 1 3 ≠ m)
    (hj : opJml.extractLsb' 4 3 ≠ m) (k : Slot) : slotLegal w k = true := by
  rw [slotLegal, if_neg (major4Field_ne_of_major3 hm h4), if_neg (opcodeField_ne_of_major3 hm hj)]

/-- JML may start in slot 0 alone (R121). -/
theorem slotLegal_of_jml {w : SlotWord} (ho : opcodeField w = opJml) (k : Slot) : slotLegal w k = (k == 0) := by
  rw [slotLegal, major4Field_eq, ho]
  rfl

theorem unusedZero_of_immRow {op : BitVec 7} {f : Pred → Gpr → Gpr → BitVec 14 → Instr} (h : ImmRow op f) (w w2 : SlotWord)
    (p : Pred) (rt ra : Gpr) (imm : BitVec 14) : unusedZero w w2 (f p rt ra imm) = true := by
  cases h <;> rfl

theorem unusedZero_of_cmpImmRow {op : BitVec 7} {f : Pred → PredReg → Gpr → BitVec 14 → Instr} (h : CmpImmRow op f)
    (w w2 : SlotWord) (p : Pred) (pt : PredReg) (ra : Gpr) (imm : BitVec 14) :
    unusedZero w w2 (f p pt ra imm) = (unused20 w == 0) := by
  cases h <;> rfl

theorem unusedZero_of_r2Row {fn : BitVec 7} {f : Pred → Gpr → Gpr → Gpr → Instr} (h : R2Row fn f) (w w2 : SlotWord)
    (p : Pred) (rt ra rb : Gpr) : unusedZero w w2 (f p rt ra rb) = (unused33 w == 0) := by
  cases h <;> rfl

theorem unusedZero_of_loadRow {fn : BitVec 4} {f : Pred → Gpr → Gpr → BitVec 14 → Instr} (h : LoadRow fn f) (w w2 : SlotWord)
    (p : Pred) (rt ra : Gpr) (d : BitVec 14) : unusedZero w w2 (f p rt ra d) = true := by
  cases h <;> rfl

theorem unusedZero_of_storeRow {fn : BitVec 4} {f : Pred → Gpr → Gpr → BitVec 14 → Instr} (h : StoreRow fn f) (w w2 : SlotWord)
    (p : Pred) (rb ra : Gpr) (d : BitVec 14) : unusedZero w w2 (f p rb ra d) = true := by
  cases h <;> rfl

/-! ## The opcodes of the rows are those of one-slot words -/

theorem ImmRow.oneSlot {op : BitVec 7} {f : Pred → Gpr → Gpr → BitVec 14 → Instr} (h : ImmRow op f) :
    op.extractLsb' 3 4 ≠ movMajor ∧ op ≠ opJml := by
  cases h <;> decide

theorem CmpImmRow.oneSlot {op : BitVec 7} {f : Pred → PredReg → Gpr → BitVec 14 → Instr} (h : CmpImmRow op f) :
    op.extractLsb' 3 4 ≠ movMajor ∧ op ≠ opJml := by
  cases h <;> decide

/-! ## Each format, read back -/

section
variable {b : Bundle} {k : Slot} {p : Pred}

theorem decodeSlot_formatRI {op : BitVec 7} {f : Pred → Gpr → Gpr → BitVec 14 → Instr} (hr : ImmRow op f) (hp : p.wf = true)
    {rt ra : Gpr} {imm : BitVec 14} (hw : slotWord b k = formatRI op p rt ra imm) :
    decodeSlot b k = .instr (f p rt ra imm) := by
  have ho : opcodeField (slotWord b k) = op := by rw [hw, opcodeField_formatRI]
  refine decodeSlot_of_select hp (by rw [hw, predByte_formatRI]) (slotLegal_of_opcode ho hr.oneSlot.1 hr.oneSlot.2 k) ?_
    (unusedZero_of_immRow hr _ _ p rt ra imm)
  rw [select_of_immRow hr ho, hw, rtField_formatRI, raField_formatRI, imm14Field_formatRI]

theorem decodeSlot_formatCI {op : BitVec 7} {f : Pred → PredReg → Gpr → BitVec 14 → Instr} (hr : CmpImmRow op f)
    (hp : p.wf = true) {pt : PredReg} {ra : Gpr} {imm : BitVec 14} (hw : slotWord b k = formatCI op p pt ra imm) :
    decodeSlot b k = .instr (f p pt ra imm) := by
  have ho : opcodeField (slotWord b k) = op := by rw [hw, opcodeField_formatCI]
  refine decodeSlot_of_select hp (by rw [hw, predByte_formatCI]) (slotLegal_of_opcode ho hr.oneSlot.1 hr.oneSlot.2 k) ?_
    (by rw [unusedZero_of_cmpImmRow hr, hw, unused20_formatCI]; rfl)
  rw [select_of_cmpImmRow hr ho, hw, ptField_formatCI, raField_formatCI, imm14Field_formatCI]

theorem decodeSlot_formatR2 {fn : BitVec 7} {f : Pred → Gpr → Gpr → Gpr → Instr} (hr : R2Row fn f) (hp : p.wf = true)
    {rt ra rb : Gpr} (hw : slotWord b k = formatR2 fn p rt ra rb) : decodeSlot b k = .instr (f p rt ra rb) := by
  have ho : opcodeField (slotWord b k) = number7 0 2 := by rw [hw, opcodeField_formatR2]
  refine decodeSlot_of_select hp (by rw [hw, predByte_formatR2]) (slotLegal_of_opcode ho (by decide) (by decide) k) ?_
    (by rw [unusedZero_of_r2Row hr, hw, unused33_formatR2]; rfl)
  rw [select_of_r2Row hr ho (by rw [hw, func7Field_formatR2]), hw, rtField_formatR2, raField_formatR2, rbField_formatR2]

theorem decodeSlot_formatCR (hp : p.wf = true) {pt : PredReg} {ra rb : Gpr}
    (hw : slotWord b k = formatCR (number7 0 6) p pt ra rb) : decodeSlot b k = .instr (.cmp p pt ra rb) := by
  have ho : opcodeField (slotWord b k) = number7 0 2 := by rw [hw, opcodeField_formatCR]
  refine decodeSlot_of_select hp (by rw [hw, predByte_formatCR]) (slotLegal_of_opcode ho (by decide) (by decide) k) ?_
    (by rw [unusedZero, hw, unused33_formatCR, unused20_formatCR]; rfl)
  rw [select_of_cmp ho (by rw [hw, func7Field_formatCR]), hw, ptField_formatCR, raField_formatCR, rbField_formatCR]

theorem decodeSlot_formatLD {fn : BitVec 4} {f : Pred → Gpr → Gpr → BitVec 14 → Instr} (hr : LoadRow fn f) (hp : p.wf = true)
    {rt ra : Gpr} {d : BitVec 14} (hw : slotWord b k = formatLD fn p rt ra d) : decodeSlot b k = .instr (f p rt ra d) := by
  have hm : major3Field (slotWord b k) = loadMajor := by rw [hw, major3Field_formatLD]
  refine decodeSlot_of_select hp (by rw [hw, predByte_formatLD]) (slotLegal_of_major3 hm (by decide) (by decide) k) ?_
    (unusedZero_of_loadRow hr _ _ p rt ra d)
  rw [select_of_loadRow hr hm (by rw [hw, func4Field_formatLD]), hw, rtField_formatLD, raField_formatLD, imm14Field_formatLD]

theorem decodeSlot_formatST {fn : BitVec 4} {f : Pred → Gpr → Gpr → BitVec 14 → Instr} (hr : StoreRow fn f) (hp : p.wf = true)
    {rb ra : Gpr} {d : BitVec 14} (hw : slotWord b k = formatST fn p rb ra d) : decodeSlot b k = .instr (f p rb ra d) := by
  have hm : major3Field (slotWord b k) = storeMajor := by rw [hw, major3Field_formatST]
  refine decodeSlot_of_select hp (by rw [hw, predByte_formatST]) (slotLegal_of_major3 hm (by decide) (by decide) k) ?_
    (unusedZero_of_storeRow hr _ _ p rb ra d)
  rw [select_of_storeRow hr hm (by rw [hw, func4Field_formatST]), hw, rbField_formatST, raField_formatST,
    storeDispField_formatST]

theorem decodeSlot_formatMV (hp : p.wf = true) (hk : k ≠ 2) {rt : Gpr} {imm : Word} (hw : slotWord b k = formatMV p rt imm)
    (hw2 : slotWord b (k + 1 : Nat) = imm.extractLsb' 23 41) : decodeSlot b k = .instr (.movi p rt imm) := by
  have hm : major4Field (slotWord b k) = movMajor := by rw [hw, major4Field_formatMV]
  refine decodeSlot_of_select hp (by rw [hw, predByte_formatMV]) (slotLegal_of_movMajor hm hk) ?_ rfl
  rw [select_of_movMajor hm, hw, hw2, rtField_formatMV, movImmField_formatMV]

theorem decodeSlot_formatJM (hp : p.wf = true) {ct ca : CodeReg} {addr : BitVec 20}
    (hw : slotWord b k = formatJM (number7 7 8) p ct ca addr) : decodeSlot b k = .instr (.jmp p ct ca addr) := by
  have ho : opcodeField (slotWord b k) = number7 7 8 := by rw [hw, opcodeField_formatJM]
  refine decodeSlot_of_select hp (by rw [hw, predByte_formatJM]) (slotLegal_of_opcode ho (by decide) (by decide) k) ?_ rfl
  rw [select_of_jmp ho, hw, ctField_formatJM, caField_formatJM, addrField_formatJM]

theorem decodeSlot_formatJL (hp : p.wf = true) (hk : k = 0) {ct ca : CodeReg} {addr : BitVec 60}
    (hw : slotWord b k = formatJM opJml p ct ca (addr.extractLsb' 0 20))
    (hw2 : slotWord b (k + 1 : Nat) = addrHighWord (addr.extractLsb' 20 40)) :
    decodeSlot b k = .instr (.jml p ct ca addr) := by
  have ho : opcodeField (slotWord b k) = opJml := by rw [hw, opcodeField_formatJM]
  refine decodeSlot_of_select hp (by rw [hw, predByte_formatJM]) (by rw [slotLegal_of_jml ho, hk]; rfl) ?_
    (by rw [unusedZero, hw2, addrHighField_addrHighWord, beq_self_eq_true])
  rw [select_of_jml ho, hw, hw2, ctField_formatJM, caField_formatJM, addrField_formatJM, addrHighField_addrHighWord, addr_split]

/-- The canonical NOP is the reserved opcode 0 under condition 0 (R118). -/
theorem decodeSlot_canonicalNop (hw : slotWord b k = 0x00000000090#41) : decodeSlot b k = .instr .nop := by
  rw [decodeSlot, decodeWords, hw]
  rfl

end

/-- Settles O1, format by format: the decoder's fields of the words of a format are the encoder's operands. -/
theorem decodeEncodeRoundTrip : Obligations.DecodeEncodeRoundTrip := by
  unfold Obligations.DecodeEncodeRoundTrip
  intro i k b hp hk hw
  cases i with
  | addi | andi | ori | eori => exact decodeSlot_formatRI (by constructor) hp hw
  | cmpi | biti => exact decodeSlot_formatCI (by constructor) hp hw
  | add | sub | and | or | eor | andcm | nand | nor | enor => exact decodeSlot_formatR2 (by constructor) hp hw
  | cmp => exact decodeSlot_formatCR hp hw
  | movi => exact decodeSlot_formatMV hp (bne_iff_ne.1 hk) hw.1 hw.2
  | jmp => exact decodeSlot_formatJM hp hw
  | jml => exact decodeSlot_formatJL hp (beq_iff_eq.1 hk) hw.1 hw.2
  | ld8s | ld8u | ld16s | ld16u | ld32s | ld32u | ld64 => exact decodeSlot_formatLD (by constructor) hp hw
  | st8 | st16 | st32 | st64 => exact decodeSlot_formatST (by constructor) hp hw
  | nop => exact decodeSlot_canonicalNop hw

end Sys2Proof
end

section
/-! What the decoder reads from a word of each opcode (spec/30_encoding.md R97 to R121): the fields, the spare words, the reserved
numbers, the illegal words, and the canonical NOP. -/

namespace Sys2Proof

/-! ## A one-slot word of the table, or with a reserved number -/

/-- A word of a one-slot opcode decodes as the selection says: its unused fields, then condition 0, decide the rest. -/
theorem decodeSlot_of_listed {b : Bundle} {k : Slot} {p : Pred} {i : Instr} {op : BitVec 7} (hp : p.wf = true)
    (hb : (slotWord b k).extractLsb' 0 8 = p.bits) (ho : opcodeField (slotWord b k) = op)
    (hone : op.extractLsb' 3 4 ≠ movMajor ∧ op ≠ opJml)
    (hs : select (slotWord b k) (slotWord b (k + 1 : Nat)) p = .ok i) :
    decodeSlot b k = if unusedZero (slotWord b k) (slotWord b (k + 1 : Nat)) i = true then .instr i
      else if p.cond = .pf then .instr .nop else .spare i := by
  have h1 : slotsOf (slotWord b k) = 1 := Laws.EncodedLength.slotsOf_eq_one ho hone.1 hone.2
  rw [decodeSlot_of_pred hp hb (slotLegal_of_opcode ho hone.1 hone.2 k), hs]
  simp only [nopOr_of_one h1]

/-- A word of a reserved number with a one-slot opcode. -/
theorem decodeSlot_of_reserved {b : Bundle} {k : Slot} {p : Pred} {u : Reserved} (hp : p.wf = true)
    (hb : (slotWord b k).extractLsb' 0 8 = p.bits) (hm : major4Field (slotWord b k) ≠ movMajor)
    (hj : opcodeField (slotWord b k) ≠ opJml)
    (hs : select (slotWord b k) (slotWord b (k + 1 : Nat)) p = .error u) :
    decodeSlot b k = if p.cond = .pf then .instr .nop else .unlisted p u :=
  decodeSlot_of_unlisted hp hb (by rw [slotLegal, if_neg hm, if_neg hj]) (by rw [slotsOf, if_neg (by tauto)]) hs

theorem major4Field_ne_of_opcode {w : SlotWord} {op : BitVec 7} (ho : opcodeField w = op) (hm : op.extractLsb' 3 4 ≠ movMajor) :
    major4Field w ≠ movMajor := by
  rwa [major4Field_eq, ho]

/-- Two values that a property tells apart. -/
theorem ne_of_prop {α : Type} {x y : α} (P : α → Prop) (hx : P x) (hy : ¬ P y) : x ≠ y := by
  rintro rfl
  exact hy hx

/-! ## The formats -/

/-- Settles O4: each opcode of format RI selects its row, which leaves no field unused. -/
theorem immediateFormatDecodes : Obligations.ImmediateFormatDecodes := by
  unfold Obligations.ImmediateFormatDecodes
  intro b k p hp hb
  have key {op f} (h : ImmRow op f) (ho : opcodeField (slotWord b k) = op) :=
    decodeSlot_of_select hp hb (slotLegal_of_opcode ho h.oneSlot.1 h.oneSlot.2 k) (select_of_immRow h ho)
      (unusedZero_of_immRow h _ _ _ _ _ _)
  exact ⟨key .addi, key .andi, key .ori, key .eori⟩

/-- Settles O5: both opcodes of format CI select their row, whose unused field is bits 20:19. -/
theorem compareImmediateFormatDecodes : Obligations.CompareImmediateFormatDecodes := by
  unfold Obligations.CompareImmediateFormatDecodes
  intro b k p hp hb w pt ra imm reads
  have key {op f} (h : CmpImmRow op f) (ho : opcodeField w = op) : decodeSlot b k = reads (f p pt ra imm) := by
    rw [decodeSlot_of_listed hp hb ho h.oneSlot (select_of_cmpImmRow h ho)]
    simp only [unusedZero_of_cmpImmRow h, beq_iff_eq]
    rfl
  exact ⟨key .cmpi, key .biti⟩

/-- The functions outside the table of R113. -/
def ReservedFunction (f : BitVec 7) : Prop := f.toNat ≤ 3 ∨ f.toNat = 7 ∨ 15 ≤ f.toNat

theorem selectR2_of_reserved {w : SlotWord} (h : ReservedFunction (func7Field w)) (p : Pred) :
    selectR2 w p = .error (.function (rtField w) (raField w) (rbField w)) := by
  rw [selectR2]
  iterate 10 rw [if_neg (ne_of_prop ReservedFunction h (by unfold ReservedFunction; decide))]

/-- Settles O6: opcode 2 selects by the function; bit 33, and CMP's bits 20:19, are the unused fields. -/
theorem registerFormatsDecode : Obligations.RegisterFormatsDecode := by
  unfold Obligations.RegisterFormatsDecode
  intro b k p hp hb ho w rt ra rb pt f orNop reads
  have hf {n : BitVec 7} (h : f = n.toNat) : func7Field w = n := BitVec.eq_of_toNat_eq h
  have key {fn g} (h : R2Row fn g) (hfn : func7Field w = fn) : decodeSlot b k = reads (g p rt ra rb) := by
    rw [decodeSlot_of_listed hp hb ho (by decide) (select_of_r2Row h ho hfn)]
    simp only [unusedZero_of_r2Row h, beq_iff_eq]
    rfl
  refine ⟨fun h => key .add (hf h), fun h => key .sub (hf h), fun h => ?_, fun h => key .and (hf h), fun h => key .or (hf h),
    fun h => key .eor (hf h), fun h => key .andcm (hf h), fun h => key .nand (hf h), fun h => key .nor (hf h),
    fun h => key .enor (hf h), fun h => ?_⟩
  · rw [decodeSlot_of_listed hp hb ho (by decide) (select_of_cmp ho (hf h))]
    simp only [unusedZero, Bool.and_eq_true, beq_iff_eq]
    rfl
  · exact decodeSlot_of_reserved hp hb (major4Field_ne_of_opcode ho (by decide)) (by rw [opcodeField, ho]; decide)
      ((select_of_opcode_two ho).trans (selectR2_of_reserved h p))

/-- Settles O8: opcode 78 selects JMP, and the field has four zero bits below it. -/
theorem jmpFormatDecodes : Obligations.JmpFormatDecodes := by
  unfold Obligations.JmpFormatDecodes
  intro b k p hp hb w ho
  have hoff := Machine.toNat_jmpOffset (w.extractLsb' 21 20)
  refine ⟨decodeSlot_of_select hp hb (slotLegal_of_opcode ho (by decide) (by decide) k) (select_of_jmp ho) rfl, hoff, ?_⟩
  have := (w.extractLsb' 21 20).isLt
  omega

/-- JML's spare bit is bit 40 of the second word (R105, R115). -/
theorem eq_addrHighWord_iff (w2 : SlotWord) : w2 = addrHighWord (addrHighField w2) ↔ w2.extractLsb' 40 1 = 0 := by
  have hlt := w2.isLt
  rw [← BitVec.toNat_inj, ← BitVec.toNat_inj]
  simp only [addrHighWord, addrHighField, Config.jmlHiShift, BitVec.shiftLeft_zero, BitVec.toNat_setWidth,
    BitVec.extractLsb'_toNat, Nat.shiftRight_eq_div_pow]
  simp
  omega

theorem toNat_addrHighField {w2 : SlotWord} (h : w2.extractLsb' 40 1 = 0) : (addrHighField w2).toNat = w2.toNat := by
  have hw := congrArg BitVec.toNat ((eq_addrHighWord_iff w2).2 h)
  have hlt := (addrHighField w2).isLt
  simp only [addrHighWord, Config.jmlHiShift, BitVec.shiftLeft_zero, BitVec.toNat_setWidth] at hw
  omega

/-- Settles O9: the opcode selects JML, whose unused field is bit 40 of the second word. -/
theorem jmlFormatDecodes : Obligations.JmlFormatDecodes := by
  unfold Obligations.JmlFormatDecodes
  intro b p hp hb w w2 ho
  have hl : slotLegal w 0 = true := slotLegal_of_jml ho 0
  have hu : unusedZero w w2 (.jml p (ctField w) (caField w) (addrHighField w2 ++ addrField w)) = true ↔
      w2.extractLsb' 40 1 = 0 := beq_iff_eq.trans (eq_addrHighWord_iff w2)
  refine ⟨fun h => ⟨addrHighField w2 ++ addrField w, decodeSlot_of_select hp hb hl (select_of_jml ho) (hu.2 h), ?_⟩,
    fun h => ?_⟩
  · rw [Machine.toNat_jmlOffset, Machine.toNat_append_add, toNat_addrHighField h, Nat.mul_comm]
    rfl
  · have hu' := Bool.eq_false_iff.2 (mt hu.1 h)
    exact (decodeSlot_of_spare (k := 0) hp hb hl (select_of_jml ho) hu').trans (nopOr_of_two (if_pos (.inr ho)) _ _)

/-- The `Func4` values outside `LD_FUNC`. -/
def ReservedLoad (f : BitVec 4) : Prop := 7 ≤ f.toNat

/-- The `Func4` values outside `ST_FUNC`. -/
def ReservedStore (f : BitVec 4) : Prop := 4 ≤ f.toNat

theorem selectLoad_of_reserved {w : SlotWord} (h : ReservedLoad (func4Field w)) (p : Pred) :
    selectLoad w p = .error (.load (rtField w) (raField w)) := by
  rw [selectLoad]
  iterate 7 rw [if_neg (ne_of_prop ReservedLoad h (by unfold ReservedLoad; decide))]

theorem selectStore_of_reserved {w : SlotWord} (h : ReservedStore (func4Field w)) (p : Pred) :
    selectStore w p = .error (.store (rbField w) (raField w)) := by
  rw [selectStore]
  iterate 4 rw [if_neg (ne_of_prop ReservedStore h (by unfold ReservedStore; decide))]

/-- Settles O10: the two major opcodes select by `Func4`. -/
theorem loadStoreFormatsDecode : Obligations.LoadStoreFormatsDecode := by
  unfold Obligations.LoadStoreFormatsDecode
  intro b k p hp hb w rt ra rb ld st f orNop
  have hf {n : BitVec 4} (h : f = n.toNat) : func4Field w = n := BitVec.eq_of_toNat_eq h
  refine ⟨fun hm => ?_, fun hm => ?_⟩
  · have key {fn g} (h : LoadRow fn g) (hfn : func4Field w = fn) : decodeSlot b k = .instr (g p rt ra ld) :=
      decodeSlot_of_select hp hb (slotLegal_of_major3 hm (by decide) (by decide) k) (select_of_loadRow h hm hfn)
        (unusedZero_of_loadRow h _ _ _ _ _ _)
    exact ⟨fun h => key .ld8s (hf h), fun h => key .ld8u (hf h), fun h => key .ld16s (hf h), fun h => key .ld16u (hf h),
      fun h => key .ld32s (hf h), fun h => key .ld32u (hf h), fun h => key .ld64 (hf h), fun h =>
        decodeSlot_of_reserved hp hb (major4Field_ne_of_major3 hm (by decide)) (opcodeField_ne_of_major3 hm (by decide))
          ((select_of_loadMajor hm).trans (selectLoad_of_reserved h p))⟩
  · have key {fn g} (h : StoreRow fn g) (hfn : func4Field w = fn) : decodeSlot b k = .instr (g p rb ra st) :=
      decodeSlot_of_select hp hb (slotLegal_of_major3 hm (by decide) (by decide) k) (select_of_storeRow h hm hfn)
        (unusedZero_of_storeRow h _ _ _ _ _ _)
    exact ⟨fun h => key .st8 (hf h), fun h => key .st16 (hf h), fun h => key .st32 (hf h), fun h => key .st64 (hf h), fun h =>
        decodeSlot_of_reserved hp hb (major4Field_ne_of_major3 hm (by decide)) (opcodeField_ne_of_major3 hm (by decide))
          ((select_of_storeMajor hm).trans (selectStore_of_reserved h p))⟩

/-! ## Reserved opcodes -/

/-- The opcodes outside the table of R112. -/
def ReservedOpcode (op : BitVec 7) : Prop :=
  op.toNat ≤ 1 ∨ op.toNat = 3 ∨ op.toNat = 5 ∨ (11 ≤ op.toNat ∧ op.toNat ≤ 63) ∨ (72 ≤ op.toNat ∧ op.toNat ≤ 77) ∨
    112 ≤ op.toNat

theorem ReservedOpcode.majors {op : BitVec 7} (h : ReservedOpcode op) :
    op.extractLsb' 3 4 ≠ movMajor ∧ op.extractLsb' 4 3 ≠ loadMajor ∧ op.extractLsb' 4 3 ≠ storeMajor := by
  revert h
  unfold ReservedOpcode
  revert op
  decide

theorem select_of_reservedOpcode {w : SlotWord} (h : ReservedOpcode (opcodeField w)) (w2 : SlotWord) (p : Pred) :
    select w w2 p = .error .opcode := by
  have hne {op : BitVec 7} (ho : ¬ ReservedOpcode op) : opcodeField w ≠ op := ne_of_prop ReservedOpcode h ho
  obtain ⟨hmov, hload, hstore⟩ := h.majors
  rw [← major4Field_eq] at hmov
  rw [← major3Field_eq] at hload hstore
  rw [select]
  iterate 7 rw [if_neg (hne (by unfold ReservedOpcode; decide))]
  rw [if_neg hmov]
  iterate 2 rw [if_neg (hne (by unfold ReservedOpcode; decide))]
  rw [if_neg hload, if_neg hstore]

/-- Settles O11: a reserved opcode selects no row. -/
theorem reservedOpcodesAreNoInstruction : Obligations.ReservedOpcodesAreNoInstruction := by
  unfold Obligations.ReservedOpcodesAreNoInstruction
  intro b k p hp hb op h
  refine decodeSlot_of_reserved hp hb ?_ (ne_of_prop ReservedOpcode h (by unfold ReservedOpcode; decide))
    (select_of_reservedOpcode h _ p)
  rw [major4Field_eq]
  exact (ReservedOpcode.majors h).1

/-! ## Illegal words -/

/-- Settles O12: placement is looked at before the predicate byte. -/
theorem misplacedTwoSlotWordsAreIllegal : Obligations.MisplacedTwoSlotWordsAreIllegal := by
  unfold Obligations.MisplacedTwoSlotWordsAreIllegal
  intro b k h
  have hl : slotLegal (slotWord b k) k = false := by
    rcases h with ⟨hm, rfl⟩ | ⟨ho, hk⟩
    · exact if_pos hm
    · rw [slotLegal_of_jml ho]
      exact beq_false_of_ne hk
  rw [decodeSlot, decodeWords, hl]
  rfl

/-- A word whose predicate byte is reserved is illegal in every slot. -/
theorem decodeSlot_of_decodePred_error {b : Bundle} {k : Slot} {r : Illegal} (h : decodePred (slotWord b k) = .error r) :
    ∃ r, decodeSlot b k = .illegal r := by
  rw [decodeSlot, decodeWords, h]
  by_cases hl : slotLegal (slotWord b k) k = true
  · exact ⟨r, if_pos hl⟩
  · exact ⟨.placement, if_neg hl⟩

/-- Settles O13: both classes of reserved predicate byte are errors of the predicate decoder. -/
theorem reservedPredicateBytesAreIllegal : Obligations.ReservedPredicateBytesAreIllegal := by
  unfold Obligations.ReservedPredicateBytesAreIllegal
  rintro b k cond reg (hc | ⟨hc, hr⟩)
  · have hnone : Cond.ofBits (condField (slotWord b k)) = none := (Machine.cond_ofBits_eq_none_iff _).2 hc
    refine decodeSlot_of_decodePred_error (r := .reservedCondition) ?_
    rw [decodePred, hnone]
  · have hcode : condField (slotWord b k) = 1#4 := BitVec.eq_of_toNat_eq hc
    have hpt : Cond.ofBits (condField (slotWord b k)) = some .pt := by
      rw [hcode]
      rfl
    refine decodeSlot_of_decodePred_error (r := .shortForm) ?_
    rw [decodePred, hpt]
    exact if_pos ⟨rfl, fun h => hr (congrArg Fin.val h)⟩

/-! ## Whatever is read, its operands are the fields -/

/-- The two answers of `nopOr`. -/
theorem nopOr_cases (w : SlotWord) (p : Pred) (d : Decoded) :
    (p.cond = .pf ∧ slotsOf w = 1 ∧ nopOr w p d = .instr .nop) ∨ nopOr w p d = d := by
  unfold nopOr
  by_cases h : p.cond = .pf ∧ slotsOf w = 1
  · exact .inl ⟨h.1, h.2, if_pos h⟩
  · exact .inr (if_neg h)

/-- What the decoder reads as an instruction, or as one with an unused field set: a row's instruction in a legal slot, or a NOP. -/
theorem decodeSlot_fields {b : Bundle} {k : Slot} {i : Instr} (h : decodeSlot b k = .instr i ∨ decodeSlot b k = .spare i) :
    ∃ p, p.reg = prField (slotWord b k) ∧ p.cond.bits = condField (slotWord b k) ∧
      (slotLegal (slotWord b k) k = true ∧ Selected (slotWord b k) (slotWord b (k + 1 : Nat)) p i ∨
        i = .nop ∧ p.cond = .pf ∧ slotsOf (slotWord b k) = 1) := by
  cases hl : slotLegal (slotWord b k) k with
  | false => simp [decodeSlot, decodeWords, hl] at h
  | true =>
    cases hd : decodePred (slotWord b k) with
    | error r => simp [decodeSlot, decodeWords, hl, hd] at h
    | ok p =>
      obtain ⟨hreg, hcond⟩ := decodePred_ok hd
      refine ⟨p, hreg, hcond, ?_⟩
      cases hs : select (slotWord b k) (slotWord b (k + 1 : Nat)) p with
      | error u =>
        simp only [decodeSlot, decodeWords, hl, hd, hs, if_true] at h
        rcases nopOr_cases (slotWord b k) p (.unlisted p u) with ⟨hc, h1, e⟩ | e
        · exact .inr ⟨by simpa [e, eq_comm] using h, hc, h1⟩
        · simp [e] at h
      | ok j =>
        have hsel := select_ok hs
        simp only [decodeSlot, decodeWords, hl, hd, hs, if_true] at h
        split at h
        · obtain rfl : j = i := by simpa using h
          exact .inl ⟨rfl, hsel⟩
        · rcases nopOr_cases (slotWord b k) p (.spare j) with ⟨hc, h1, e⟩ | e
          · exact .inr ⟨by simpa [e, eq_comm] using h, hc, h1⟩
          · obtain rfl : j = i := by simpa [e] using h
            exact .inl ⟨rfl, hsel⟩

/-- Settles O3, row by row: the operands of a row are the fields of its format. -/
theorem decodedFieldsAreTheFormats : Obligations.DecodedFieldsAreTheFormats := by
  unfold Obligations.DecodedFieldsAreTheFormats
  intro b k i h
  obtain ⟨p, hreg, hcond, ⟨hl, hs⟩ | ⟨rfl, hpf, h1⟩⟩ := decodeSlot_fields h
  · have hp : p.reg = prField (slotWord b k) ∧ p.cond.bits = condField (slotWord b k) := ⟨hreg, hcond⟩
    cases hs with
    | imm ho hr => cases hr <;> exact ⟨hp, rfl, rfl, rfl⟩
    | cmpImm ho hr => cases hr <;> exact ⟨hp, rfl, rfl, rfl⟩
    | r2 ho hf hr => cases hr <;> exact ⟨hp, ho, rfl, rfl, rfl⟩
    | cmp ho hf => exact ⟨hp, ho, hf, rfl, rfl, rfl⟩
    | movi hm => exact ⟨hp, hm, rfl, rfl⟩
    | jmp ho => exact ⟨hp, ho, rfl, rfl, rfl⟩
    | jml ho =>
      rw [slotLegal_of_jml ho] at hl
      exact ⟨hp, ho, beq_iff_eq.1 hl, rfl, rfl, rfl⟩
    | load hm hf hr => cases hr <;> exact ⟨hp, hm, rfl, rfl, rfl⟩
    | store hm hf hr => cases hr <;> exact ⟨hp, hm, rfl, rfl, rfl⟩
  · have hone : ¬ (major4Field (slotWord b k) = movMajor ∨ opcodeField (slotWord b k) = opJml) := by
      intro h
      rw [slotsOf, if_pos h] at h1
      cases h1
    rw [hpf] at hcond
    exact ⟨hcond.symm, fun h => hone (.inl h), fun h => hone (.inr h)⟩

/-! ## Fetched bundles and the spec's words -/

/-- A bit of a value is the bit of its byte. -/
theorem testBit_leValue (bs : List Byte) (j : Nat) (hj : j / 8 < bs.length) :
    (leValue bs).testBit j = bs[j / 8].getLsbD (j % 8) := by
  induction bs generalizing j with
  | nil => simp at hj
  | cons b bs ih =>
    have hsum : leValue (b :: bs) = 2 ^ 8 * leValue bs + b.toNat := by rw [leValue]; omega
    rw [hsum, Nat.testBit_two_pow_mul_add _ b.isLt]
    by_cases h8 : j < 8
    · simp [h8, Nat.div_eq_of_lt h8, Nat.mod_eq_of_lt h8, BitVec.getLsbD]
    · obtain ⟨i, rfl⟩ := Nat.exists_eq_add_of_le' (Nat.le_of_not_lt h8)
      have hdiv : (i + 8) / 8 = i / 8 + 1 := by omega
      simp only [hdiv, List.length_cons] at hj
      simp [h8, hdiv, ih i (by omega)]

/-- Settles O14: the bundle's value is its bytes', least significant first. -/
theorem fetchedBundleBits : Obligations.FetchedBundleBits := by
  unfold Obligations.FetchedBundleBits
  intro m a j hj
  have hlen : j / 8 < (Machine.readCells m a 16).length := by
    rw [Machine.length_readCells]
    omega
  rw [Machine.bundleAt, bundleOfBytes, BitVec.getLsbD_ofNat, decide_eq_true hj, Bool.true_and, Machine.bytesValue_eq,
    testBit_leValue _ _ hlen, Machine.getElem_readCells]

/-- Settles O2, word by word, by running the decoder. -/
theorem specWordsDecode : Obligations.SpecWordsDecode := by
  unfold Obligations.SpecWordsDecode
  refine ⟨?_, ?_, ?_, ?_, ?_, ?_, ?_, ?_, ?_, ?_, ?_⟩ <;> decide

end Sys2Proof
end

section
/-! Every step that completes is an effect of one instruction on the issued state; what each effect does to the parameters, the records,
the group and the memory; and the invariants of runs that follow (spec/10_state.md R34, R40, R44; spec/20_memory.md R77). -/

namespace Sys2Proof.Machine

/-! ## A step as one effect -/

/-- A decoded instruction's words, an unused field set or not, end with the bundle (spec/30_encoding.md R121). -/
theorem slots_le_of_decodeSlot {b : Bundle} {k : Slot} {i : Instr} (h : decodeSlot b k = .instr i ∨ decodeSlot b k = .spare i) :
    k.val + i.slots ≤ 3 := by
  have hone : k.val + 1 ≤ 3 := k.isLt
  obtain ⟨p, _, _, ⟨hl, hs⟩ | ⟨rfl, _⟩⟩ := decodeSlot_fields h
  · cases hs with
    | imm _ hr => cases hr <;> exact hone
    | cmpImm _ hr => cases hr <;> exact hone
    | r2 _ _ hr => cases hr <;> exact hone
    | cmp | jmp => exact hone
    | movi hm =>
      rw [slotLegal, if_pos hm] at hl
      have hk : k.val ≠ 2 := fun e => bne_iff_ne.1 hl (Fin.ext e)
      simp only [Instr.slots]
      omega
    | jml ho =>
      rw [slotLegal_of_jml ho] at hl
      simp [beq_iff_eq.1 hl, Instr.slots]
    | load _ _ hr => cases hr <;> exact hone
    | store _ _ hr => cases hr <;> exact hone
  · exact hone

/-- A step that completes has fetched text that was not stored to, and done to the issued state what one instruction does; a skipped
word does what a NOP, or its instruction under a failed test, does. -/
theorem step_effect {s t : State} (h : step s = .next t) :
    FetchesText s ∧ ∃ i ds, s.slot.val + i.slots ≤ 3 ∧ Effect i (issued s (bundleAt s.mem s.pc) i.slots ds) t := by
  obtain ⟨b, _, _, htext, hfirst, rfl, _, hrun⟩ := step_next h
  have hstored : ∀ b, Fetches s b → ¬ StoredTo s b := by
    rintro b hb ⟨e, he, rfl⟩
    exact (firstStore_eq_none_iff _ _).1 hfirst e he ((mem_bundlesOf s.pc _ 16 (by omega) (by omega)).2 hb)
  refine ⟨⟨(textAdmits_iff s).1 htext, hstored⟩, ?_⟩
  rcases hrun with ⟨i, hd, _, hexec⟩ | ⟨p, len, srcs, ds, r, hw, _, _, rfl⟩
  · exact ⟨i, dests i, slots_le_of_decodeSlot (.inl hd), exec_next hexec⟩
  · cases hw with
    | spare i hd => exact ⟨i, dests i, slots_le_of_decodeSlot (.inr hd), .moved⟩
    | unlisted p u hd => exact ⟨.nop, reservedDests u, s.slot.isLt, .moved⟩

/-! ## What an effect leaves alone -/

section
variable {i : Instr} {s t : State}

theorem Effect.config_eq (h : Effect i s t) : t.config = s.config := by
  cases h with
  | stored _ _ _ _ _ _ _ hw => obtain ⟨_, _, _, rfl⟩ := memWrite_ok hw; simp
  | _ => simp

theorem Effect.fetchedBundles_eq (h : Effect i s t) : t.fetchedBundles = s.fetchedBundles := by
  cases h with
  | stored _ _ _ _ _ _ _ hw => obtain ⟨_, _, _, rfl⟩ := memWrite_ok hw; simp
  | _ => simp

theorem Effect.group_eq (h : Effect i s t) : t.group = s.group ∨ t.group = [] := by
  cases h with
  | jumped => exact .inr rfl
  | stored _ _ _ _ _ _ _ hw => obtain ⟨_, _, _, rfl⟩ := memWrite_ok hw; simp
  | _ => simp

/-- Memory and the records of stores change by one store outside the code, or not at all. -/
theorem Effect.memory (h : Effect i s t) :
    (t.mem = s.mem ∧ t.storedBundles = s.storedBundles) ∨
    ∃ a n v, 0 < n ∧ n ≤ 8 ∧ NotCode s a n ∧ t.mem = writeCells s.mem a (valueBytes n v) ∧
      t.storedBundles = recordStore s.storedBundles a (bundlesOf a n) := by
  cases h with
  | stored a n v s' _ hn h8 hw =>
    obtain ⟨_, _, hcode, rfl⟩ := memWrite_ok hw
    exact .inr ⟨a, n, v.toNat, hn, h8, (notCode_iff s a n hn (by omega)).2 hcode, by simp, by simp⟩
  | _ => exact .inl (by simp)

theorem Effect.storedBundles_mono (h : Effect i s t) {e : Stored} (he : e ∈ s.storedBundles) : e ∈ t.storedBundles := by
  obtain ⟨_, hs⟩ | ⟨a, n, v, _, _, _, _, hs⟩ := h.memory
  · rwa [hs]
  · rw [hs, mem_recordStore]
    exact .inl he

/-- A bundle recorded as stored to was so before, or is no code. -/
theorem Effect.storedTo_cases (h : Effect i s t) {b : Word} (hb : StoredTo t b) :
    StoredTo s b ∨ ¬ (b ∈ s.fetchedBundles ∨ InText s b) := by
  obtain ⟨e, he, rfl⟩ := hb
  obtain ⟨_, hs⟩ | ⟨a, n, v, hn, h8, hcode, _, hs⟩ := h.memory
  · exact .inl ⟨e, hs ▸ he, rfl⟩
  · rw [hs, mem_recordStore, mem_bundlesOf a _ n hn (by omega)] at he
    rcases he with he | ⟨_, _, k, hk, hb⟩
    · exact .inl ⟨e, he, rfl⟩
    · rw [hb]
      exact .inr (hcode k hk)

theorem storedTo_recordStore {known : List Stored} {bs : List Word} {b : Word} (a : Word) (hb : b ∈ bs) :
    ∃ e ∈ recordStore known a bs, e.bundle = b := by
  by_cases hs : isStored known b = true
  · obtain ⟨e, he, rfl⟩ := (isStored_iff known b).1 hs
    exact ⟨e, (mem_recordStore ..).2 (.inl he), rfl⟩
  · exact ⟨⟨b, a⟩, (mem_recordStore ..).2 (.inr ⟨rfl, Bool.eq_false_iff.2 hs, hb⟩), rfl⟩

/-- A byte that changes lies in a bundle that is no code and is recorded as stored to after. -/
theorem Effect.byteAt_cases (h : Effect i s t) (x : Word) :
    byteAt t x = byteAt s x ∨ (StoredTo t (bundleOf x) ∧ ¬ (bundleOf x ∈ s.fetchedBundles ∨ InText s (bundleOf x))) := by
  unfold byteAt
  obtain ⟨hm, _⟩ | ⟨a, n, v, hn, h8, hcode, hm, hs⟩ := h.memory
  · exact .inl (by rw [hm])
  · by_cases hx : ∃ k < n, x = a + BitVec.ofNat 64 k
    · obtain ⟨k, hk, rfl⟩ := hx
      refine .inr ⟨?_, hcode k hk⟩
      rw [StoredTo, hs]
      exact storedTo_recordStore a ((mem_bundlesOf a _ n hn (by omega)).2 ⟨k, hk, rfl⟩)
    · refine .inl ?_
      rw [hm]
      refine readCell_writeCells_outside _ _ _ _ fun k hk e => hx ⟨k, ?_, BitVec.eq_of_toNat_eq e⟩
      simpa using hk

end

/-! ## The launch parameters -/

/-- Settles O59: no effect changes the parameters. -/
theorem launchParametersConstant : Obligations.LaunchParametersConstant := by
  unfold Obligations.LaunchParametersConstant
  intro s t h
  obtain ⟨_, i, ds, _, he⟩ := step_effect h
  exact he.config_eq

/-! ## Bundle addresses -/

theorem toNat_add_mod16 {x y : Word} (hx : x.toNat % 16 = 0) (hy : y.toNat % 16 = 0) : (x + y).toNat % 16 = 0 := by
  rw [BitVec.toNat_add]
  omega

/-- The invariant speaks of memory, the program counter, the code address registers and the parameters. -/
theorem Inv.of_fields {s t u : State} (h : Inv s) (hm : Memory.wf t.mem) (hpc : t.pc.toNat % 16 = 0) (hcars : t.cars = u.cars)
    (hc : ∀ c, (readC u c).toNat % 16 = 0) (hconf : t.config = s.config) : Inv t := by
  refine ⟨hm, fun c => ?_, hconf ▸ h.2.2⟩
  by_cases h7 : c = 7
  · rwa [h7, readC_seven]
  · rw [readC_congr hcars h7]
    exact hc c

theorem Inv.readC_writeC_mod16 {s : State} (h : Inv s) (ct c : CodeReg) {v : Word} (hv : v.toNat % 16 = 0) :
    (readC (writeC s ct v) c).toNat % 16 = 0 := by
  rw [readC_writeC]
  split
  · exact hv
  · exact h.2.1 c

theorem Inv.pc_mod16 {s : State} (h : Inv s) : s.pc.toNat % 16 = 0 := h.2.1 7

theorem Inv.advance {s : State} (h : Inv s) (len : Nat) : Inv (advance s len) := by
  refine h.of_fields (by simpa using h.1) ?_ (by simp) h.2.1 (by simp)
  rcases advance_position s len with ⟨_, hpc, _⟩ | ⟨_, hpc, _⟩ <;> rw [hpc]
  exacts [h.pc_mod16, toNat_add_mod16 h.pc_mod16 rfl]

theorem Inv.writeX {s : State} (h : Inv s) (rt : Gpr) (v : Word) : Inv (writeX s rt v) :=
  h.of_fields (by simpa using h.1) (by simpa using h.pc_mod16) (by simp) h.2.1 (by simp)

/-- Every effect keeps the invariant. -/
theorem Effect.inv {i : Instr} {s t : State} (he : Effect i s t) (h : Inv s) : Inv t := by
  cases he with
  | moved => exact h.advance _
  | wroteX rt v => exact (h.writeX rt v).advance _
  | wroteP pt f =>
    refine Inv.advance ?_ _
    exact h.of_fields h.1 h.pc_mod16 rfl h.2.1 rfl
  | jumped ct ca off _ _ ha =>
    exact h.of_fields (by simpa using h.1) ha (jumpTo_cars _ _)
      (fun c => h.readC_writeC_mod16 ct c (toNat_add_mod16 h.pc_mod16 rfl)) (by simp)
  | trapped v _ hv =>
    exact h.of_fields (by simpa using h.1) (h.2.2.1 v hv) (goTo_cars _ _) (fun c => h.readC_writeC_mod16 6 c h.pc_mod16) (by simp)
  | stored a n v s' _ _ _ hw =>
    obtain ⟨_, _, _, rfl⟩ := memWrite_ok hw
    refine Inv.advance ?_ _
    exact h.of_fields (writeCells_wf h.1 _ _) h.pc_mod16 rfl h.2.1 rfl

theorem Inv.issued {s : State} (h : Inv s) (b : Bundle) (len : Nat) (ds : List Resource) : Inv (issued s b len ds) :=
  h.of_fields h.1 h.pc_mod16 rfl h.2.1 rfl

/-- Settles O54: the issued state meets the invariant, and every effect keeps it. -/
theorem stepKeepsBundleAddresses : Obligations.StepKeepsBundleAddresses := by
  unfold Obligations.StepKeepsBundleAddresses
  intro s t h hstep
  obtain ⟨_, i, ds, _, he⟩ := step_effect hstep
  exact he.inv (h.issued _ _ _)

theorem readX_reset (r : Gpr) : readX State.reset r = 0 := by
  simp [readX, State.reset]

theorem readC_reset {c : CodeReg} (hc : c ≠ 7) : readC State.reset c = 0 := by
  simp [readC, State.reset, hc]

/-- Settles O55: the program counter is 0x1000, and every other code address register 0. -/
theorem resetMeetsBundleAddresses : Obligations.ResetMeetsBundleAddresses := by
  unfold Obligations.ResetMeetsBundleAddresses
  refine ⟨reset_mem_wf, fun c => ?_, nofun, nofun⟩
  by_cases hc : c = 7
  · rw [hc, readC_seven]
    decide
  · rw [readC_reset hc]
    rfl

/-- Settles O60, register file by register file. -/
theorem resetState : Obligations.ResetState := by
  unfold Obligations.ResetState
  refine ⟨rfl, rfl, rfl, by decide, rfl, readX_reset, fun _ hc => readC_reset hc, fun q => ?_, fun _ => rfl, reset_mem_wf, rfl, rfl,
    rfl⟩
  have hq : readP State.reset q = ⟨false, false, false⟩ := by simp [readP, State.reset]
  rw [hq]
  rfl

/-! ## The bytes of the program -/

/-- Settles O58: a byte that changes lies in a bundle that is stored to from then on, and no later step fetches such a bundle. -/
theorem fetchedBytesNeverChange : Obligations.FetchedBytesNeverChange := by
  unfold Obligations.FetchedBytesNeverChange
  have mono {s t : State} (h : step s = .next t) {b : Word} : StoredTo s b → StoredTo t b := by
    rintro ⟨e, he, rfl⟩
    obtain ⟨_, i, ds, _, heff⟩ := step_effect h
    exact ⟨e, heff.storedBundles_mono he, rfl⟩
  have unstored {s t : State} (h : Reaches s t) (a : Word) (hb : ¬ StoredTo t (bundleOf a)) : byteAt t a = byteAt s a := by
    induction h with
    | refl => rfl
    | next _ ht ih =>
      obtain ⟨_, i, ds, _, heff⟩ := step_effect ht
      rcases heff.byteAt_cases a with e | ⟨hs, _⟩
      · exact e.trans (ih (mt (mono ht) hb))
      · exact absurd hs hb
  refine ⟨fun s t u hr ht a ha => unstored hr a ((step_effect ht).1.2 _ ha), fun s t a h => ?_⟩
  obtain ⟨_, i, ds, _, heff⟩ := step_effect h
  have hissued {b : Word} (hb : b ∈ s.fetchedBundles) : b ∈ (issued s (bundleAt s.mem s.pc) i.slots ds).fetchedBundles :=
    (mem_addBundles ..).2 (.inl hb)
  refine ⟨fun hb => heff.fetchedBundles_eq ▸ hissued hb, fun hb => ?_⟩
  exact (heff.byteAt_cases a).resolve_right fun hn => hn.2 (hb.imp_left hissued)

/-- A completed step keeps what was stored to apart from the code. -/
theorem TextUntouched.step {s t : State} (hu : TextUntouched s) (h : step s = .next t) : TextUntouched t := by
  intro b hb
  obtain ⟨hf, i, ds, _, heff⟩ := step_effect h
  have hmem : b ∈ t.fetchedBundles ↔ b ∈ s.fetchedBundles ∨ Fetches s b := by
    rw [heff.fetchedBundles_eq, issued_fetchedBundles, mem_addBundles, mem_bundlesOf _ _ 16 (by omega) (by omega)]
    rfl
  have htext : InText t b ↔ InText s b := by rw [InText, heff.config_eq]; rfl
  rw [hmem, htext, ← not_or]
  rcases heff.storedTo_cases hb with hs | hs
  · have := hu b hs
    have := hf.2 b
    tauto
  · rwa [← heff.fetchedBundles_eq, hmem] at hs

/-- A fetch that stops as a store to code shows a record of a store into the fetched text. -/
theorem fetchBundle_storeToCode {s : State} {a : Word} (h : fetchBundle s = .error (.fault (.accessFault a .storeToCode))) :
    TextAdmits s ∧ ∃ b, Fetches s b ∧ StoredTo s b := by
  rcases fetchBundle_cases s with ⟨_, e⟩ | ⟨_, _, e⟩ | ⟨x, _, htext, hx, _⟩ | ⟨_, _, _, e⟩
  · rw [e] at h; cases h
  · rw [e] at h; cases h
  · have hb : x.bundle ∈ bundlesOf s.pc 16 := by simpa using List.find?_some hx
    have hf : Fetches s x.bundle := (mem_bundlesOf s.pc _ 16 (by omega) (by omega)).1 hb
    exact ⟨(textAdmits_iff s).1 htext, x.bundle, hf, x, List.mem_of_find?_eq_some hx, rfl⟩
  · rw [e] at h; cases h

/-! ## What an access stops with -/

theorem memRead_error {s : State} {a : Word} {n : Nat} {f : Fault} (h : memRead s a n = .error f) :
    f = .misalignedAccess a ∨ f = .accessFault a .loadOutsideMap := by
  rcases memRead_cases s a n with ⟨_, e⟩ | ⟨_, _, e⟩ | ⟨_, _, e⟩ <;> rw [e] at h <;> cases h
  exacts [.inl rfl, .inr rfl]

theorem memWrite_error {s : State} {a : Word} {n : Nat} {v : Word} {f : Fault} (h : memWrite s a n v = .error f) :
    f = .misalignedAccess a ∨ f = .accessFault a .storeOutsideMap ∨ f = .accessFault a .storeToCode := by
  rcases memWrite_cases s a n v with ⟨_, e⟩ | ⟨_, _, e⟩ | ⟨_, _, _, e⟩ | ⟨_, _, _, e⟩ <;> rw [e] at h <;> cases h
  exacts [.inl rfl, .inr (.inl rfl), .inr (.inr rfl)]

/-- An instruction that stops as a store to code is a store, and the fault names its effective address. -/
theorem exec_storeToCode {i : Instr} {s : State} {a : Word} (h : exec i s = .fault (.accessFault a .storeToCode)) :
    ∃ ra d n, isStore i = true ∧ dataAccess i = some (ra, d, n) ∧ a = effAddr s ra d := by
  cases exec_fault h with
  | load _ _ _ _ _ _ hf => rcases memRead_error hf with e | e <;> cases e
  | store _ ra d n _ hi hs hf =>
    refine ⟨ra, d, n, hs, hi, ?_⟩
    rcases memWrite_error hf with e | e | e <;> cases e
    rfl

/-- Settles O57, clause by clause: the fetch of every completed step, the invariant, and the two sources of a store to code. -/
theorem textStaysUntouched : Obligations.TextStaysUntouched := by
  unfold Obligations.TextStaysUntouched
  refine ⟨?_, fun s t hu h => hu.step h, fun s t h => ?_, fun s t hp h b hb => ?_, fun s a hu hp h => ?_⟩
  · rintro b ⟨e, he, _⟩
    cases he
  · obtain ⟨hf, i, ds, _, heff⟩ := step_effect h
    exact ⟨fun e he => heff.storedBundles_mono he, hf.2⟩
  · exact (step_effect h).1.1.resolve_left hp b hb
  · rcases step_fault h with hf | ⟨r, e⟩ | ⟨e, _⟩ | ⟨i, hd, hexec⟩
    · obtain ⟨hadm, b, hb, hs⟩ := fetchBundle_storeToCode hf
      have hcode : b ∈ s.fetchedBundles ∨ InText s b := hp.elim (fun hn => .inr (hadm.resolve_left hn b hb)) fun hc => hc b hb
      have := hu b hs
      tauto
    · cases e
    · cases e
    · obtain ⟨ra, d, n, hs, hi, rfl⟩ := exec_storeToCode hexec
      exact ⟨i, ra, d, n, hd, hs, hi, rfl⟩

/-! ## What no step stops with -/

/-- No instruction stops with a group hazard: the step raises it. -/
theorem exec_ne_groupHazard (i : Instr) (s : State) : exec i s ≠ .fault .groupHazard := by
  intro h
  cases exec_fault h with
  | load _ _ _ _ _ _ hf => rcases memRead_error hf with e | e <;> cases e
  | store _ _ _ _ _ _ _ hf => rcases memWrite_error hf with e | e | e <;> cases e

/-- A misaligned target is that of a jump by a multiple of 16. -/
theorem exec_misalignedTarget {i : Instr} {s : State} {a : Word} (h : exec i s = .fault (.misalignedTarget a)) :
    ∃ ca off, off.toNat % 16 = 0 ∧ (readC s ca + off).toNat % 16 ≠ 0 := by
  cases exec_fault h with
  | jump ca off _ ho ht => exact ⟨ca, off, ho, ht⟩
  | load _ _ _ _ _ _ hf => rcases memRead_error hf with e | e <;> cases e
  | store _ _ _ _ _ _ _ hf => rcases memWrite_error hf with e | e | e <;> cases e

/-- The fetch stops with an access fault only. -/
theorem fetchBundle_fault {s : State} {f : Fault} (h : fetchBundle s = .error (.fault f)) : ∃ a r, f = .accessFault a r := by
  rcases fetchBundle_cases s with ⟨_, e⟩ | ⟨_, _, e⟩ | ⟨_, _, _, _, e⟩ | ⟨_, _, _, e⟩ <;> rw [e] at h <;> cases h
  · exact ⟨_, _, rfl⟩
  · exact ⟨_, _, rfl⟩

/-- A group hazard needs `STOP_POLICY` require and a running group. -/
theorem step_groupHazard {s : State} (h : step s = .fault .groupHazard) : s.config.stopPolicy = .require ∧ s.group ≠ [] := by
  rcases step_fault h with hf | ⟨_, e⟩ | ⟨_, hz⟩ | ⟨i, _, he⟩
  · obtain ⟨_, _, e⟩ := fetchBundle_fault hf
    cases e
  · cases e
  · exact hz
  · exact absurd he (exec_ne_groupHazard _ _)

/-- Settles O56: a jump from a bundle address by a multiple of 16 goes to a bundle address. -/
theorem jumpTargetsStayAligned : Obligations.JumpTargetsStayAligned := by
  unfold Obligations.JumpTargetsStayAligned
  intro s target h hstep
  rcases step_fault hstep with hf | ⟨_, e⟩ | ⟨e, _⟩ | ⟨i, _, he⟩
  · obtain ⟨_, _, e⟩ := fetchBundle_fault hf
    cases e
  · cases e
  · cases e
  · obtain ⟨ca, off, ho, ht⟩ := exec_misalignedTarget he
    exact ht (toNat_add_mod16 ((h.issued _ _ _).2.1 ca) ho)

/-- Settles O51: a hazard needs `STOP_POLICY` require. -/
theorem ignoredStopBitsNeverFault : Obligations.IgnoredStopBitsNeverFault := by
  unfold Obligations.IgnoredStopBitsNeverFault
  intro s hi h
  rw [(step_groupHazard h).1] at hi
  cases hi

/-- Bundle bits 125:123, one by one. -/
theorem stopAfter_of_allStops {b : Bundle} (h : b.extractLsb' 123 3 = 7#3) {k : Nat} (hk : k < 3) : stopAfter b k = true := by
  have hbit := congrArg (·.getLsbD k) h
  simp only [BitVec.getLsbD_extractLsb', hk, decide_true, Bool.true_and] at hbit
  rw [stopAfter, hbit]
  interval_cases k <;> rfl

/-- Settles O52: an empty group has no hazard, and the stop bit of the last slot ends the group. -/
theorem allStopsAreSafe : Obligations.AllStopsAreSafe := by
  unfold Obligations.AllStopsAreSafe
  intro s hg hb
  refine ⟨fun h => (step_groupHazard h).2 hg, fun t h => ?_⟩
  obtain ⟨_, i, ds, hlen, heff⟩ := step_effect h
  have hstop : stopAfter (bundleAt s.mem s.pc) (s.slot.val + i.slots - 1) = true :=
    stopAfter_of_allStops hb (by omega)
  rcases heff.group_eq with e | e
  · rw [e, issued_group, groupAfter, if_pos hstop]
  · exact e

/-! ## The refusals -/

/-- Past a fetched bundle nothing is refused. -/
theorem issueFrom_ne_refuse (s : State) (b : Bundle) (r : Refusal) : issueFrom s b ≠ .refuse r := by
  have illegal (p len srcs dsts q) : issueIllegal s b p len srcs dsts q ≠ .refuse r := by
    rcases issueIllegal_cases s b p len srcs dsts q with ⟨_, e⟩ | ⟨_, _, e⟩ | ⟨_, _, e⟩ <;> simp [e]
  unfold issueFrom
  split
  · simp
  · split
    · simp
    · exact illegal _ _ _ _ _
    · exact illegal _ _ _ _ _
    · split <;> simp

theorem step_refused_iff (s : State) (r : Refusal) :
    step s = .refused r ↔ (atEnd s = true ∧ r = .runEnded) ∨ (atEnd s = false ∧ fetchBundle s = .error (.refuse r)) := by
  have hissue : step s = .refused r ↔ issue s = .refuse r := by
    unfold step
    cases issue s <;> simp [exec_not_refused]
  rw [hissue, issue]
  cases atEnd s with
  | true => simp [eq_comm]
  | false =>
    cases fetchBundle s with
    | error stop => simp
    | ok b => simp [issueFrom_ne_refuse]

theorem fetchBundle_refuse_iff (s : State) (r : Refusal) :
    fetchBundle s = .error (.refuse r) ↔ r = .fetchOutsideText ∧ InMapFor s s.pc 16 ∧ ¬ TextAdmits s := by
  rw [inMapFor_iff, ← textAdmits_iff]
  constructor
  · intro h
    rcases fetchBundle_cases s with ⟨_, e⟩ | ⟨hm, ht, e⟩ | ⟨_, _, _, _, e⟩ | ⟨_, _, _, e⟩ <;> rw [e] at h <;> cases h
    exact ⟨rfl, hm, Bool.eq_false_iff.1 ht⟩
  · rintro ⟨rfl, hm, ht⟩
    rw [fetchBundle, if_pos hm, if_neg ht]

/-- Settles O53: the two refusals are those of the front. -/
theorem refusedOnlyAtEndPcOrOutsideText : Obligations.RefusedOnlyAtEndPcOrOutsideText := by
  unfold Obligations.RefusedOnlyAtEndPcOrOutsideText
  intro s r
  rw [step_refused_iff, fetchBundle_refuse_iff, ← Bool.not_eq_true, atEnd_iff]
  tauto

end Sys2Proof.Machine
end

section
/-! What each instruction without a data access completes with, and what it leaves unchanged (spec/40_execution_model.md,
41_control_flow.md, 42_arithmetic_logical.md, 43_compare.md, 44_movi.md, 60_exceptions.md). -/

namespace Sys2Proof.Machine

/-! ## Only the advance -/

/-- Settles O16: every instruction is guarded by its own predicate and is as long as it says. -/
theorem failedPredicateOnlyAdvances : Obligations.FailedPredicateOnlyAdvances := by
  unfold Obligations.FailedPredicateOnlyAdvances
  intro i s h
  obtain ⟨op, hop⟩ := exec_guarded i
  rw [hop, guarded_of_fails h]
  exact advance_gives s _

/-- Settles O26: NOP is the advance alone. -/
theorem nopOnlyAdvances : Obligations.NopOnlyAdvances := by
  unfold Obligations.NopOnlyAdvances
  exact fun s => advance_gives s 1

/-- Settles O27: the accessors never look at cells 0 and 7. -/
theorem hardwiredRegisters : Obligations.HardwiredRegisters := by
  unfold Obligations.HardwiredRegisters
  exact fun s => ⟨readX_zero s, readC_zero s, readC_seven s⟩

/-! ## Arithmetic and logical -/

/-- An immediate form's result, with the immediate sign-extended (R106, R190). -/
theorem immForm_gives {p : Pred} {s : State} (h : Passes p s) (op : Word → Word → Word) (rt ra : Gpr) (imm : BitVec 14) :
    GivesX (immForm op p rt ra imm s) s 1 rt (op (readX s ra) (imm.signExtend 64)) :=
  setX_gives h rt fun t => op (readX t ra) (immValue imm)

/-- A register form's result (R191). -/
theorem regForm_gives {p : Pred} {s : State} (h : Passes p s) (op : Word → Word → Word) (rt ra rb : Gpr) :
    GivesX (regForm op p rt ra rb s) s 1 rt (op (readX s ra) (readX s rb)) :=
  setX_gives h rt fun t => op (readX t ra) (readX t rb)

/-- Settles O18: the four operations of the immediate form. -/
theorem immediateFormResults : Obligations.ImmediateFormResults := by
  unfold Obligations.ImmediateFormResults
  intro p rt ra imm s h
  have gives (op) := immForm_gives h op rt ra imm
  exact ⟨gives (· + ·), gives (· &&& ·), gives (· ||| ·), gives (· ^^^ ·)⟩

/-- Settles O20: AND is a register form, whatever its target. -/
theorem andResult : Obligations.AndResult := by
  unfold Obligations.AndResult
  exact fun p rt ra rb s h => exec_and_gives h rt ra rb

/-- Settles O21: six operations of the register form. -/
theorem logicalRegisterResults : Obligations.LogicalRegisterResults := by
  unfold Obligations.LogicalRegisterResults
  intro p rt ra rb s h
  have gives (op) := regForm_gives h op rt ra rb
  exact ⟨gives (· ||| ·), gives (· ^^^ ·), gives fun a b => a &&& ~~~b, gives fun a b => ~~~(a &&& b),
    gives fun a b => ~~~(a ||| b), gives fun a b => ~~~(a ^^^ b)⟩

/-- Settles O25: the write of one register, then the advance by two slots. -/
theorem moviResult : Obligations.MoviResult := by
  unfold Obligations.MoviResult
  intro p rt imm s h
  rw [exec_movi, guarded_of_passes h]
  exact writeX_gives s rt imm 2

section
variable {o : Word → Word → Bool} {op : Word → Word → Word} {p : Pred} {s : State}

/-- A form that can overflow, where no exception is due. -/
theorem overflowForm_gives (h : Passes p s) {ra rb : Gpr} (hn : s.config.ovfEnable = false ∨ o (readX s ra) (readX s rb) = false)
    (rt : Gpr) : GivesX (overflowForm o op p rt ra rb s) s 1 rt (op (readX s ra) (readX s rb)) := by
  have hno : ¬ (o (readX s ra) (readX s rb) && s.config.ovfEnable) = true := by
    rcases hn with e | e <;> simp [e]
  rw [overflowForm, guarded_of_passes h, if_neg hno]
  exact writeX_gives s rt _ 1

/-- A form that can overflow, where the exception is due. -/
theorem overflowForm_takes (h : Passes p s) {ra rb : Gpr} (he : s.config.ovfEnable = true)
    (ho : o (readX s ra) (readX s rb) = true) (rt : Gpr) :
    TakesException (overflowForm o op p rt ra rb s) s .integerOverflow := by
  have hyes : (o (readX s ra) (readX s rb) && s.config.ovfEnable) = true := by simp [he, ho]
  rw [overflowForm, guarded_of_passes h, if_pos hyes]
  exact takeException_takes _ s

end

/-- Settles O22: ADD is the form that can overflow, with the sum. -/
theorem addResult : Obligations.AddResult := by
  unfold Obligations.AddResult
  exact fun p rt ra rb s h => ⟨fun hn => overflowForm_gives h hn rt, fun he ho => overflowForm_takes h he ho rt⟩

/-- Settles O23: SUB is the form that can overflow, with the difference. -/
theorem subResult : Obligations.SubResult := by
  unfold Obligations.SubResult
  exact fun p rt ra rb s h => ⟨fun hn => overflowForm_gives h hn rt, fun he ho => overflowForm_takes h he ho rt⟩

theorem addOverflow_eq (a b : Word) : addOverflow a b = a.saddOverflow b := (BitVec.saddOverflow_eq a b).symm

theorem subOverflow_eq (a b : Word) : subOverflow a b = a.ssubOverflow b := by
  rw [BitVec.ssubOverflow_eq, subOverflow]
  cases a.msb <;> cases b.msb <;> cases (a - b).msb <;> rfl

/-- Settles O24: the sign-bit tests are the library's overflow predicates, which are stated by the exact integers. -/
theorem overflowIsOutOfRange : Obligations.OverflowIsOutOfRange := by
  unfold Obligations.OverflowIsOutOfRange
  intro a b
  rw [addOverflow_eq, subOverflow_eq, BitVec.saddOverflow, BitVec.ssubOverflow]
  simp only [Bool.or_eq_true, decide_eq_true_eq, ge_iff_le]
  exact ⟨or_comm, or_comm⟩

/-! ## Compares -/

/-- Settles O28: the compare flags are decisions about the integers. -/
theorem compareResults : Obligations.CompareResults := by
  unfold Obligations.CompareResults
  exact fun p pt ra rb imm s h => ⟨setP_gives h pt fun t => cmpFlags (readX t ra) (readX t rb),
    setP_gives h pt fun t => cmpFlags (readX t ra) (immValue imm)⟩

/-- The flags of a compare with zero. -/
theorem cmpFlags_zero (v : Word) : cmpFlags v 0 = ⟨decide (v = 0), v.msb, false⟩ := by
  have hlt : v.slt 0 = v.msb := BitVec.slt_zero_eq_msb
  have hltu : v.ult 0 = false := decide_eq_false (Nat.not_lt_zero _)
  rw [cmpFlags, hlt, hltu]
  rfl

/-- Settles O29: a bit test compares the masked value with zero. -/
theorem bitTestResult : Obligations.BitTestResult := by
  unfold Obligations.BitTestResult
  intro p pt ra imm s h v
  have := setP_gives h pt fun t => bitFlags (readX t ra) (immValue imm)
  rwa [bitFlags, cmpFlags_zero] at this

/-- Settles O30: no value is below itself. -/
theorem compareFlagsExclude : Obligations.CompareFlagsExclude := by
  unfold Obligations.CompareFlagsExclude
  intro a b h
  obtain rfl : a = b := beq_iff_eq.1 h
  simp [cmpFlags, BitVec.slt, BitVec.ult]

/-! ## Jumps -/

theorem jmpOffset_eq (addr : BitVec 20) : jmpOffset addr = BitVec.ofNat 64 (16 * addr.toNat) :=
  BitVec.eq_of_toNat_eq (by rw [toNat_jmpOffset, BitVec.toNat_ofNat]; omega)

theorem jmlOffset_eq (addr : BitVec 60) : jmlOffset addr = BitVec.ofNat 64 (16 * addr.toNat) :=
  BitVec.eq_of_toNat_eq (by rw [toNat_jmlOffset, BitVec.toNat_ofNat]; omega)

/-- Settles O31: the common jump, by JMP's offset. -/
theorem jmpResult : Obligations.JmpResult := by
  unfold Obligations.JmpResult
  intro p ct ca addr s h target ha
  rw [exec_jmp, guarded_of_passes h, jmpOffset_eq]
  exact jumpAndLink_gives ha

/-- Settles O32: the common jump, by JML's offset. -/
theorem jmlResult : Obligations.JmlResult := by
  unfold Obligations.JmlResult
  intro p ct ca addr s h target ha
  rw [exec_jml, guarded_of_passes h, jmlOffset_eq]
  exact jumpAndLink_gives ha

/-- An offset in steps of 16 keeps a misaligned base misaligned. -/
theorem jumpAndLink_of_misaligned {s : State} {ca : CodeReg} {off : Word} (hc : (readC s ca).toNat % 16 ≠ 0)
    (ho : off.toNat % 16 = 0) (ct : CodeReg) :
    jumpAndLink ct ca off s = .fault (.misalignedTarget (readC s ca + off)) := by
  refine if_neg ?_
  rw [BitVec.toNat_add]
  omega

/-- Settles O33: both offsets are in steps of 16. -/
theorem misalignedJumpFaults : Obligations.MisalignedJumpFaults := by
  unfold Obligations.MisalignedJumpFaults
  intro p ct ca s h hc
  refine ⟨fun addr => ?_, fun addr => ?_⟩
  · rw [exec_jmp, guarded_of_passes h, jumpAndLink_of_misaligned hc (by rw [toNat_jmpOffset]; omega)]
  · rw [exec_jml, guarded_of_passes h, jumpAndLink_of_misaligned hc (by rw [toNat_jmlOffset]; omega)]

/-! ## The exception and its return -/

/-- An exception taken to a vector, as a completed instruction. -/
theorem TakesException.of_next {o : Result} {s t : State} {e : Exception} {v : Word} (h : TakesException o s e)
    (hv : s.config.trapVector = some v) (ho : o = .next t) : t.pc = v ∧ t.slot.val = 0 ∧ WroteC s t 6 s.pc ∧ SameX s t := by
  rw [TakesException, hv] at h
  obtain ⟨u, hu, hpc, hslot, hc, hx, _⟩ := h
  cases hu.symm.trans ho
  exact ⟨hpc, hslot, hc, hx⟩

/-- Settles O34: C6 holds the program counter of the overflow, and the jump by 0 goes there. -/
theorem returnFromOverflowTrap : Obligations.ReturnFromOverflowTrap := by
  unfold Obligations.ReturnFromOverflowTrap
  intro p q rt ra rb s t v hs hp he hv hover hq
  obtain ⟨hpc, hslot, hc, hx⟩ : t.pc = v ∧ t.slot.val = 0 ∧ WroteC s t 6 s.pc ∧ SameX s t := by
    rcases hover with ⟨ho, ht⟩ | ⟨ho, ht⟩
    · exact (((addResult p rt ra rb s hp).2 he ho)).of_next hv ht
    · exact (((subResult p rt ra rb s hp).2 he ho)).of_next hv ht
  have h6 : readC t 6 + BitVec.ofNat 64 (16 * (0 : BitVec 20).toNat) = s.pc := by
    rw [hc 6 (by decide), if_pos (by decide)]
    exact BitVec.add_zero _
  have hjump := jmpResult q 0 6 0 t hq
  dsimp only at hjump
  rw [h6] at hjump
  exact ⟨hpc, hslot, hx, hjump hs⟩

/-! ## Who writes the registers -/

/-- A form that can overflow leaves the code address registers alone, or takes the exception. -/
theorem overflowForm_writesC {o : Word → Word → Bool} {op : Word → Word → Word} {p : Pred} {rt ra rb : Gpr} {s t : State}
    (h : overflowForm o op p rt ra rb s = .next t) : SameC s t ∨ (WroteC s t 6 s.pc ∧ s.config.ovfEnable = true) := by
  rcases guarded_next h with rfl | h
  · exact .inl fun c hc => readC_congr (by simp) hc
  · split at h
    · rename_i hover
      obtain ⟨v, _, rfl⟩ := takeException_next h
      refine .inr ⟨fun c hc => ?_, (Bool.and_eq_true_iff.1 hover).2⟩
      rw [readC_congr (s := writeC s 6 s.pc) (by simp) hc, readC_writeC]
      simp [hc]
    · cases h
      exact .inl fun c hc => readC_congr (by simp) hc

/-- No effect but a jump's and the exception's writes a code address register. -/
theorem Effect.sameC {i : Instr} {s t : State} (h : Effect i s t) (hj : isJump i = false)
    (ho : ¬ ((∃ p rt ra rb, i = .add p rt ra rb) ∨ ∃ p rt ra rb, i = .sub p rt ra rb)) : SameC s t := by
  intro c hc
  cases h with
  | jumped _ _ _ hi => simp [hi] at hj
  | trapped _ hi => exact absurd hi ho
  | stored _ _ _ _ _ _ _ hw =>
    obtain ⟨_, _, _, rfl⟩ := memWrite_ok hw
    exact readC_congr (by simp) hc
  | _ => exact readC_congr (by simp) hc

/-- Settles O35: ADD and SUB by their form, the others by their effects. -/
theorem codeRegisterWriters : Obligations.CodeRegisterWriters := by
  unfold Obligations.CodeRegisterWriters
  intro i s t h hj
  by_cases ho : (∃ p rt ra rb, i = .add p rt ra rb) ∨ ∃ p rt ra rb, i = .sub p rt ra rb
  · have hform : SameC s t ∨ (WroteC s t 6 s.pc ∧ s.config.ovfEnable = true) := by
      rcases ho with ⟨p, rt, ra, rb, rfl⟩ | ⟨p, rt, ra, rb, rfl⟩ <;> exact overflowForm_writesC h
    exact hform.imp_right fun ⟨hc, he⟩ => ⟨hc, he, ho⟩
  · exact .inl ((exec_next h).sameC hj ho)

/-- A jump, a compare or a store names no general register as a destination. -/
theorem rt_eq_zero_of_operandDests {i : Instr} (hi : isJump i = true ∨ isCompare i = true ∨ isStore i = true) {rt : Gpr}
    (hd : operandDests i = gprRes rt) : rt = 0 := by
  by_contra hrt
  have hmem : Resource.gpr rt ∈ operandDests i := by
    rw [hd, mem_gprRes]
    exact ⟨hrt, rfl⟩
  cases i with
  | jmp | jml => exact Resource.noConfusion ((mem_carRes _ _).1 hmem).2.2
  | cmpi | biti | cmp | st8 | st16 | st32 | st64 => simp [operandDests] at hmem
  | _ => simp [isJump, isCompare, isStore] at hi

/-- An effect of an instruction that names no general register as a destination writes none. -/
theorem Effect.sameX {i : Instr} {s t : State} (h : Effect i s t) (hd : ∀ rt, operandDests i = gprRes rt → rt = 0) :
    SameX s t := by
  intro r
  cases h with
  | wroteX rt v hi => rw [hd rt hi, readX_advance, readX_writeX, if_neg (by tauto)]
  | stored _ _ _ _ _ _ _ hw =>
    obtain ⟨_, _, _, rfl⟩ := memWrite_ok hw
    exact readX_congr (by simp) r
  | _ => simp

/-- Settles O36: an effect writes the general register that the instruction names as its destination, or none. -/
theorem noGeneralRegisterWritten : Obligations.NoGeneralRegisterWritten := by
  unfold Obligations.NoGeneralRegisterWritten
  exact fun i s t h hi => (exec_next h).sameX fun rt hd => rt_eq_zero_of_operandDests hi hd

end Sys2Proof.Machine
end

section
/-! The loads and the stores (spec/45_load_store.md): what they complete with, what stops them, that a load reads back what a store wrote,
and that nothing else reaches memory (spec/20_memory.md R61). -/

namespace Sys2Proof.Machine

/-! ## Wide reads as their bytes -/

/-- The `n + 1` bytes from `a` up, the first one lowest. -/
def bytesUp (m : List Host.Cell) : (n : Nat) → Word → BitVec (8 * (n + 1))
  | 0, a => readCell m a.toNat
  | n + 1, a => bytesUp m n (a + 1) ++ readCell m a.toNat

theorem ofNat_leValue_readCells (m : List Host.Cell) (n : Nat) (a : Word) :
    BitVec.ofNat (8 * (n + 1)) (leValue (readCells m a (n + 1))) = bytesUp m n a := by
  induction n generalizing a with
  | zero => exact value_one m a
  | succ n ih => exact (value_succ m a (n + 1)).trans (congrArg (· ++ readCell m a.toNat) (ih (a + 1)))

theorem bytesUp_one (s : State) (a : Word) : bytesUp s.mem 1 a = byteAt s (a + 1) ++ byteAt s a := rfl

theorem bytesUp_three (s : State) (a : Word) :
    bytesUp s.mem 3 a = byteAt s (a + 3) ++ byteAt s (a + 2) ++ byteAt s (a + 1) ++ byteAt s a := by
  simp [bytesUp, byteAt, BitVec.add_assoc]

theorem bytesUp_seven (s : State) (a : Word) :
    bytesUp s.mem 7 a = byteAt s (a + 7) ++ byteAt s (a + 6) ++ byteAt s (a + 5) ++ byteAt s (a + 4) ++ byteAt s (a + 3) ++
      byteAt s (a + 2) ++ byteAt s (a + 1) ++ byteAt s a := by
  simp [bytesUp, byteAt, BitVec.add_assoc]

/-! ## Loads -/

/-- A load that is not stopped, by the bytes it reads. -/
theorem loadForm_gives_bytes {p : Pred} {s : State} (h : Passes p s) (e : Extension) (n : Nat) (rt : Gpr) {ra : Gpr}
    {d : BitVec 14} (ha : AlignedFor s (effAddr s ra d) (n + 1)) (hm : InMapFor s (effAddr s ra d) (n + 1)) :
    GivesX (loadForm e (n + 1) p rt ra d s) s 1 rt (widen e (bytesUp s.mem n (effAddr s ra d))) := by
  rw [← ofNat_leValue_readCells]
  exact loadForm_gives h ha hm

/-- Every address is aligned to one byte. -/
theorem alignedFor_one (s : State) (a : Word) : AlignedFor s a 1 := .inr (Nat.mod_one _)

/-- Settles O37: one byte is always aligned. -/
theorem loadByteResults : Obligations.LoadByteResults := by
  unfold Obligations.LoadByteResults
  intro p rt ra d s h ea hm
  have gives (e) := loadForm_gives_bytes h e 0 rt (alignedFor_one s ea) hm
  exact ⟨gives .sign, gives .zero⟩

/-- Settles O38: the load form at two bytes, with both extensions. -/
theorem loadHalfResults : Obligations.LoadHalfResults := by
  unfold Obligations.LoadHalfResults
  intro p rt ra d s h ea v ha hm
  have gives (e) := loadForm_gives_bytes h e 1 rt ha hm
  exact ⟨gives .sign, gives .zero⟩

/-- Settles O39: the load form at four bytes, with both extensions. -/
theorem loadWordResults : Obligations.LoadWordResults := by
  unfold Obligations.LoadWordResults
  intro p rt ra d s h ea v ha hm
  have gives (e) := loadForm_gives_bytes h e 3 rt ha hm
  simp only [bytesUp_three] at gives
  exact ⟨gives .sign, gives .zero⟩

/-- Settles O40: eight bytes fill the register, so the extension does nothing. -/
theorem loadDoubleResult : Obligations.LoadDoubleResult := by
  unfold Obligations.LoadDoubleResult
  intro p rt ra d s h ea ha hm
  have gives := loadForm_gives_bytes h .zero 7 rt ha hm
  rw [bytesUp_seven, widen, BitVec.setWidth_eq] at gives
  exact gives

/-! ## Stores -/

/-- Settles O41, width by width. -/
theorem storeResults : Obligations.StoreResults := by
  unfold Obligations.StoreResults
  intro p rb ra d s h ea ready
  have gives {n : Nat} (hn : 0 < n) (h8 : n ≤ 8) : ready n → GivesMem (storeForm n p rb ra d s) s ea n (readX s rb) :=
    fun ⟨ha, hm, hc⟩ => storeForm_gives h hn h8 ha hm hc
  exact ⟨rfl, gives (by decide) (by decide), gives (by decide) (by decide), gives (by decide) (by decide),
    gives (by decide) (by decide)⟩

/-! ## What stops an access -/

/-- A load or a store stops with the fault of its access. -/
theorem exec_of_error {i : Instr} {s : State} {ra : Gpr} {d : BitVec 14} {n : Nat} {f : Fault}
    (hi : dataAccess i = some (ra, d, n)) (h : Passes i.pred s)
    (hr : isStore i = false → memRead s (effAddr s ra d) n = .error f)
    (hw : isStore i = true → ∀ v, memWrite s (effAddr s ra d) n v = .error f) : exec i s = .fault f := by
  rcases isLoad_or_isStore hi with ⟨hl, hs⟩ | ⟨_, hs⟩
  · obtain ⟨_, _, e, rt, hexec⟩ := exec_of_isLoad hi hl
    rw [hexec, loadForm, guarded_of_passes h, hr hs]
  · obtain ⟨_, _, rb, hexec⟩ := exec_of_isStore hi hs
    rw [hexec, storeForm, guarded_of_passes h, hw hs]

/-- Settles O42: alignment is looked at first. -/
theorem misalignedDataAccessFaults : Obligations.MisalignedDataAccessFaults := by
  unfold Obligations.MisalignedDataAccessFaults
  intro i s ra d n hi h hpol hmod
  have hmis : misaligned s.config (effAddr s ra d) n = true := by simp [misaligned, hpol, hmod]
  exact exec_of_error hi h (fun _ => if_pos hmis) fun _ v => if_pos hmis

/-- Settles O43: then the memory map. -/
theorem unmappedDataAccessFaults : Obligations.UnmappedDataAccessFaults := by
  unfold Obligations.UnmappedDataAccessFaults
  intro i s ra d n hi h ha hm
  rw [alignedFor_iff, ← Bool.not_eq_true] at ha
  rw [inMapFor_iff] at hm
  refine exec_of_error hi h (fun hs => ?_) fun hs v => ?_
  · rw [memRead, if_neg ha, if_neg hm, hs]
    rfl
  · rw [memWrite, if_neg ha, if_neg hm, hs]
    rfl

/-- Settles O44: then the ban on stores to code. -/
theorem storeToCodeFaults : Obligations.StoreToCodeFaults := by
  unfold Obligations.StoreToCodeFaults
  intro i s ra d n hi hs h ha hm hc
  obtain ⟨hn, h8, _⟩ := exec_of_isStore hi hs
  rw [alignedFor_iff, ← Bool.not_eq_true] at ha
  rw [inMapFor_iff] at hm
  rw [notCode_iff _ _ _ hn (by omega), Bool.not_eq_false] at hc
  refine exec_of_error hi h (fun hl => ?_) fun _ v => ?_
  · rw [hs] at hl
    cases hl
  · rw [memWrite, if_neg ha, if_pos hm, if_pos hc]

/-! ## A load reads back what a store wrote -/

/-- The memory after a store that executed and completed. -/
theorem storeForm_mem {n : Nat} {p : Pred} {rb ra : Gpr} {d : BitVec 14} {s t : State} (hp : Passes p s)
    (h : storeForm n p rb ra d s = .next t) :
    t.mem = writeCells s.mem (effAddr s ra d) (valueBytes n (readX s rb).toNat) := by
  rw [storeForm, guarded_of_passes hp] at h
  cases hw : memWrite s (effAddr s ra d) n (readX s rb) with
  | error f => simp [hw] at h
  | ok s' =>
    obtain ⟨_, _, _, rfl⟩ := memWrite_ok hw
    simp only [hw] at h
    cases h
    exact advance_mem _ _

/-- The target after a load that executed and completed. -/
theorem loadForm_target {e : Extension} {n : Nat} {q : Pred} {rt rc : Gpr} {d : BitVec 14} {t u : State} (hq : Passes q t)
    (hrt : rt ≠ 0) (h : loadForm e n q rt rc d t = .next u) :
    readX u rt = loadedValue e n (leValue (readCells t.mem (effAddr t rc d) n)) := by
  rw [loadForm, guarded_of_passes hq] at h
  rcases memRead_cases t (effAddr t rc d) n with ⟨_, e⟩ | ⟨_, _, e⟩ | ⟨_, _, e⟩ <;> simp only [e] at h <;> cases h
  rw [readX_advance, readX_writeX, if_pos ⟨rfl, hrt⟩, bytesValue_eq]

/-- The low bytes of a register, as a slice of it. -/
theorem ofNat_mod_eq_setWidth (n : Nat) (v : Word) : BitVec.ofNat (8 * n) (v.toNat % 256 ^ n) = v.setWidth (8 * n) := by
  apply BitVec.eq_of_toNat_eq
  have hpow : 256 ^ n = 2 ^ (8 * n) := by rw [pow_mul]; norm_num
  rw [BitVec.toNat_ofNat, BitVec.toNat_setWidth, hpow, Nat.mod_mod]

/-- A load of the width of a store at its address reads the low bytes of the stored register. -/
theorem storeForm_then_loadForm {e : Extension} {n : Nat} {p q : Pred} {rb ra rt rc : Gpr} {d c : BitVec 14} {s t u : State}
    (hn : n ≤ 8) (hp : Passes p s) (hq : Passes q t) (hrt : rt ≠ 0) (ha : effAddr t rc c = effAddr s ra d)
    (hs : storeForm n p rb ra d s = .next t) (hl : loadForm e n q rt rc c t = .next u) :
    readX u rt = widen e ((readX s rb).setWidth (8 * n)) := by
  have hread := readCells_writeCells s.mem (effAddr s ra d) (valueBytes n (readX s rb).toNat)
    (by rw [length_valueBytes]; omega)
  rw [length_valueBytes] at hread
  rw [loadForm_target hq hrt hl, ha, storeForm_mem hp hs, hread, valueBytes_eq, leValue_leBytes, loadedValue,
    ofNat_mod_eq_setWidth]

/-- Settles O45, pair by pair. -/
theorem storeThenLoad : Obligations.StoreThenLoad := by
  unfold Obligations.StoreThenLoad
  intro p q rb ra rt rc d e s t u hp hq hrt ha
  have back {x : Extension} {n : Nat} (hn : n ≤ 8) :=
    storeForm_then_loadForm (e := x) (rb := rb) (u := u) hn hp hq hrt ha
  refine ⟨fun hs => ⟨back (by decide) hs, back (by decide) hs⟩, fun hs => ⟨back (by decide) hs, back (by decide) hs⟩,
    fun hs => ⟨back (by decide) hs, back (by decide) hs⟩, fun hs hl => ?_⟩
  have := back (by decide) hs hl
  rwa [widen, BitVec.setWidth_eq, BitVec.setWidth_eq] at this

/-! ## What reaches memory -/

theorem readCells_congr {m m' : List Host.Cell} {a : Word} {n : Nat}
    (h : ∀ k < n, readCell m' (a + BitVec.ofNat 64 k).toNat = readCell m (a + BitVec.ofNat 64 k).toNat) :
    readCells m' a n = readCells m a n := by
  refine List.ext_getElem (by simp) fun k h1 h2 => ?_
  rw [getElem_readCells, getElem_readCells, h k (by simpa using h1)]

/-- Only a store's effect changes memory. -/
theorem Effect.mem_eq {i : Instr} {s t : State} (h : Effect i s t) (hi : isStore i = false) : t.mem = s.mem := by
  cases h with
  | stored _ _ _ _ hs => simp [hs] at hi
  | _ => simp

/-- The state with another memory in place of its own. -/
def putMem (s : State) (m : List Host.Cell) : State := { s with mem := m }

@[simp] theorem putMem_slot (s : State) (m : List Host.Cell) : (putMem s m).slot = s.slot := rfl
@[simp] theorem putMem_pc (s : State) (m : List Host.Cell) : (putMem s m).pc = s.pc := rfl
@[simp] theorem putMem_mem (s : State) (m : List Host.Cell) : (putMem s m).mem = m := rfl
@[simp] theorem putMem_config (s : State) (m : List Host.Cell) : (putMem s m).config = s.config := rfl
@[simp] theorem readX_putMem (s : State) (m : List Host.Cell) (r : Gpr) : readX (putMem s m) r = readX s r := rfl
@[simp] theorem readC_putMem (s : State) (m : List Host.Cell) (c : CodeReg) : readC (putMem s m) c = readC s c := rfl
@[simp] theorem effAddr_putMem (s : State) (m : List Host.Cell) (ra : Gpr) (d : BitVec 14) :
    effAddr (putMem s m) ra d = effAddr s ra d := rfl

@[simp] theorem writeX_putMem (s : State) (m : List Host.Cell) (r : Gpr) (v : Word) :
    writeX (putMem s m) r v = putMem (writeX s r v) m := by
  unfold writeX
  split <;> rfl

@[simp] theorem writeC_putMem (s : State) (m : List Host.Cell) (c : CodeReg) (v : Word) :
    writeC (putMem s m) c v = putMem (writeC s c v) m := by
  unfold writeC
  split <;> rfl

@[simp] theorem advance_putMem (s : State) (m : List Host.Cell) (len : Nat) :
    advance (putMem s m) len = putMem (advance s len) m := by
  simp only [advance, putMem_slot, apply_dite (putMem · m)]
  rfl

theorem withMem_next (m : List Host.Cell) (t : State) : withMem m (.next t) = .next (putMem t m) := rfl

section
variable {s : State} {m : List Host.Cell}

/-- A guarded operation whose outcome does not depend on memory. -/
theorem guarded_putMem {op : State → Result} (hop : op (putMem s m) = withMem m (op s)) (p : Pred) (len : Nat) :
    guarded p len (putMem s m) op = withMem m (guarded p len s op) := by
  by_cases h : Passes p s
  · have h' : Passes p (putMem s m) := h
    rw [guarded_of_passes h, guarded_of_passes h', hop]
  · have h' : ¬ Passes p (putMem s m) := h
    rw [guarded_of_fails h, guarded_of_fails h', advance_putMem, withMem_next]

/-- A write of one general register, of a value that does not depend on memory. -/
theorem guarded_writeX_putMem {value : State → Word} (hv : value (putMem s m) = value s) (p : Pred) (rt : Gpr) (len : Nat) :
    guarded p len (putMem s m) (fun t => .next (advance (writeX t rt (value t)) len)) =
      withMem m (guarded p len s fun t => .next (advance (writeX t rt (value t)) len)) :=
  guarded_putMem (by simp [hv, withMem_next]) p len

theorem setP_putMem {flags : State → Flags} (hf : flags (putMem s m) = flags s) (p : Pred) (pt : PredReg) :
    setP p pt (putMem s m) flags = withMem m (setP p pt s flags) := by
  refine guarded_putMem ?_ p 1
  have hw : writeP (putMem s m) pt (flags s) = putMem (writeP s pt (flags s)) m := rfl
  rw [hf, hw, advance_putMem, withMem_next]

theorem takeException_putMem (e : Exception) : takeException e (putMem s m) = withMem m (takeException e s) := by
  unfold takeException
  rw [putMem_config, putMem_pc, writeC_putMem]
  cases s.config.trapVector <;> rfl

theorem overflowForm_putMem (o : Word → Word → Bool) (op : Word → Word → Word) (p : Pred) (rt ra rb : Gpr) :
    overflowForm o op p rt ra rb (putMem s m) = withMem m (overflowForm o op p rt ra rb s) := by
  refine guarded_putMem ?_ p 1
  simp only [readX_putMem, putMem_config, takeException_putMem, writeX_putMem, advance_putMem, ← withMem_next]
  exact (apply_ite (withMem m) _ _ _).symm

theorem jumpAndLink_putMem (ct ca : CodeReg) (off : Word) :
    jumpAndLink ct ca off (putMem s m) = withMem m (jumpAndLink ct ca off s) := by
  simp only [jumpAndLink, apply_ite (withMem m), readC_putMem, putMem_pc, writeC_putMem]
  rfl

theorem loadForm_putMem {n : Nat} {ra : Gpr} {d : BitVec 14}
    (h : ∀ k < n, readCell m (effAddr s ra d + BitVec.ofNat 64 k).toNat = readCell s.mem (effAddr s ra d + BitVec.ofNat 64 k).toNat)
    (e : Extension) (p : Pred) (rt : Gpr) : loadForm e n p rt ra d (putMem s m) = withMem m (loadForm e n p rt ra d s) := by
  refine guarded_putMem ?_ p 1
  have hread : memRead (putMem s m) (effAddr s ra d) n = memRead s (effAddr s ra d) n := by
    rw [memRead, memRead, putMem_mem, readCells_congr h]
    rfl
  simp only [effAddr_putMem, hread]
  cases memRead s (effAddr s ra d) n with
  | error f => rfl
  | ok v => simp [withMem_next]

end

/-- The outcome of an instruction without a data access does not depend on memory. -/
theorem exec_putMem {i : Instr} (hi : dataAccess i = none) (s : State) (m : List Host.Cell) :
    exec i (putMem s m) = withMem m (exec i s) := by
  cases i with
  | addi | andi | ori | eori | and | or | eor | andcm | nand | nor | enor | movi =>
    simp only [exec_addi, exec_andi, exec_ori, exec_eori, exec_and, exec_or, exec_eor, exec_andcm, exec_nand, exec_nor,
      exec_enor, exec_movi]
    exact guarded_writeX_putMem rfl _ _ _
  | cmpi | biti | cmp =>
    simp only [exec_cmpi, exec_biti, exec_cmp]
    exact setP_putMem rfl _ _
  | add | sub => exact overflowForm_putMem _ _ _ _ _ _
  | jmp | jml => exact guarded_putMem (jumpAndLink_putMem _ _ _) _ _
  | nop => rw [exec_nop, exec_nop, advance_putMem, withMem_next]
  | _ => cases hi

theorem isStore_eq_false {i : Instr} (hi : dataAccess i = none) : isStore i = false := by
  cases i with
  | st8 | st16 | st32 | st64 => cases hi
  | _ => rfl

/-- Settles O46: the fetch by its bytes, the other instructions by their forms, memory by the effects. -/
theorem onlyFetchLoadStoreTouchMemory : Obligations.OnlyFetchLoadStoreTouchMemory := by
  unfold Obligations.OnlyFetchLoadStoreTouchMemory
  refine ⟨fun m m' a h => ?_, fun i s m hi => ?_, fun i s m ra d n hi hl => ?_, fun i s t ra d n hi hs h a ha => ?_⟩
  · rw [bundleAt, bundleAt, readCells_congr h]
  · exact ⟨exec_putMem hi s m, fun t h => (exec_next h).mem_eq (isStore_eq_false hi)⟩
  · obtain ⟨_, _, e, rt, hexec⟩ := exec_of_isLoad hi hl
    have hns : isStore i = false := by
      rcases isLoad_or_isStore hi with ⟨_, h⟩ | ⟨h, _⟩
      · exact h
      · rw [hl] at h
        cases h
    refine ⟨fun h => ?_, fun t h => (exec_next h).mem_eq hns⟩
    rw [hexec, hexec]
    exact loadForm_putMem h e _ rt
  · obtain ⟨_, _, rb, hexec⟩ := exec_of_isStore hi hs
    rw [hexec] at h
    rcases storeForm_next h with rfl | ⟨s', hw, rfl⟩
    · rw [advance_mem]
    · obtain ⟨_, _, _, rfl⟩ := memWrite_ok hw
      rw [advance_mem]
      exact readCell_writeCells_outside _ _ _ _ fun k hk => ha k (by simpa using hk)

end Sys2Proof.Machine
end

section
/-! The step by its front (spec/40_execution_model.md R142; spec/60_exceptions.md R315): what is looked at, in its order, the group hazard
rule in terms of what an instruction names (R157), the skipped words, and the instruction that runs. -/

namespace Sys2Proof.Machine

/-! ## What an instruction names -/

/-- The sources that the model keeps are those of R157. -/
theorem mem_sources (i : Instr) (r : Resource) : r ∈ sources i ↔ NamesSource i r := by
  by_cases hn : i.pred.cond = .pf ∧ i.slots = 1
  · rw [sources, if_pos ((isNop_iff i).2 hn)]
    exact iff_of_false List.not_mem_nil fun h => h.1 hn
  · rw [sources, if_neg (mt (isNop_iff i).1 hn), List.mem_append, mem_predRes]
    refine (or_congr_right ?_).trans (and_iff_right hn).symm
    cases i <;> simp [operandSources, mem_gprRes, mem_carRes]

/-- The destinations that the model keeps are those of R157. -/
theorem mem_dests (i : Instr) (r : Resource) : r ∈ dests i ↔ NamesDest i r := by
  by_cases hn : i.pred.cond = .pf ∧ i.slots = 1
  · rw [dests, if_pos ((isNop_iff i).2 hn)]
    exact iff_of_false List.not_mem_nil fun h => h.1 hn
  · rw [dests, if_neg (mt (isNop_iff i).1 hn)]
    refine Iff.trans ?_ (and_iff_right hn).symm
    cases i <;> simp [operandDests, mem_gprRes, mem_carRes]

/-- A hazard under require, by the names in the group. -/
theorem hazard_of_depends {s : State} {srcs dsts : List Resource} {source dest : Resource → Prop}
    (hsrc : ∀ r, r ∈ srcs ↔ source r) (hdst : ∀ r, r ∈ dsts ↔ dest r) (hreq : s.config.stopPolicy = .require)
    (hdep : ∃ r ∈ s.group, source r ∨ dest r) : hazard s srcs dsts = true := by
  obtain ⟨r, hg, hr⟩ := hdep
  rw [← hsrc, ← hdst, ← List.mem_append] at hr
  rw [← Bool.not_eq_false, hazard_eq_false_iff, hreq]
  rintro (h | h)
  · cases h
  · exact h r hr hg

/-- No hazard under ignore, or without a name in the group. -/
theorem hazard_eq_false_of_independent {s : State} {srcs dsts : List Resource} {source dest : Resource → Prop}
    (hsrc : ∀ r, r ∈ srcs ↔ source r) (hdst : ∀ r, r ∈ dsts ↔ dest r)
    (h : s.config.stopPolicy = .ignore ∨ ¬ ∃ r ∈ s.group, source r ∨ dest r) : hazard s srcs dsts = false := by
  refine (hazard_eq_false_iff s srcs dsts).2 (h.imp_right fun hn r hr hg => hn ⟨r, hg, ?_⟩)
  rwa [← hsrc, ← hdst, ← List.mem_append]

/-! ## The front of the step -/

theorem atEnd_eq_false {s : State} (h : ¬ (s.config.endPc = some s.pc ∧ s.slot = 0)) : atEnd s = false :=
  Bool.eq_false_iff.2 (mt (atEnd_iff s).1 h)

theorem step_of_fetch_fault {s : State} {f : Fault} (he : atEnd s = false) (hf : fetchBundle s = .error (.fault f)) :
    step s = .fault f := by
  simp [step, issue, he, hf]

theorem fetchBundle_of_unmapped {s : State} (hm : ¬ InMapFor s s.pc 16) :
    fetchBundle s = .error (.fault (.accessFault s.pc .fetchOutsideMap)) := by
  rw [inMapFor_iff] at hm
  rw [fetchBundle, if_neg hm]

/-- The oldest record of a store into the fetched bundle is the one reported. -/
theorem fetchBundle_of_stored {s : State} {before after : List Stored} {e : Stored} (hm : InMapFor s s.pc 16) (ht : TextAdmits s)
    (hs : s.storedBundles = before ++ e :: after) (he : Fetches s e.bundle) (hb : ∀ x ∈ before, ¬ Fetches s x.bundle) :
    fetchBundle s = .error (.fault (.accessFault e.addr .storeToCode)) := by
  have hmem (b : Word) : (bundlesOf s.pc 16).contains b = true ↔ Fetches s b :=
    List.contains_iff_mem.trans (mem_bundlesOf s.pc b 16 (by omega) (by omega))
  have hfirst : firstStore s.storedBundles (bundlesOf s.pc 16) = some e := by
    refine List.find?_eq_some_iff_append.2 ⟨(hmem _).2 he, before, after, hs, fun x hx => ?_⟩
    rw [Bool.not_eq_true', Bool.eq_false_iff]
    exact mt (hmem _).1 (hb x hx)
  rw [inMapFor_iff] at hm
  rw [← textAdmits_iff] at ht
  rw [fetchBundle, if_pos hm, if_pos ht, hfirst]

section
variable {s : State} (he : ¬ (s.config.endPc = some s.pc ∧ s.slot = 0)) (hm : InMapFor s s.pc 16) (ht : FetchesText s)
include he hm ht

/-- Past the fetch, the step is decided by the bundle at the program counter. -/
theorem issue_eq_issueFrom : issue s = issueFrom s (bundleAt s.mem s.pc) := by
  simp [issue, atEnd_eq_false he, fetchBundle_ok hm ht]

theorem step_of_reservedControl (hc : reservedControl (bundleAt s.mem s.pc) ≠ 0) :
    step s = .fault (.illegalInstruction .reservedControl) := by
  rw [step, issue_eq_issueFrom he hm ht, issueFrom, if_pos hc]

variable (hc : reservedControl (bundleAt s.mem s.pc) = 0)
include hc

theorem step_of_illegal {r : Illegal} (hd : decodeSlot (bundleAt s.mem s.pc) s.slot = .illegal r) :
    step s = .fault (.illegalInstruction r) := by
  rw [step, issue_eq_issueFrom he hm ht, issueFrom, if_neg (not_not.2 hc), hd]

theorem step_of_hazard {i : Instr} (hd : decodeSlot (bundleAt s.mem s.pc) s.slot = .instr i)
    (hh : hazard s (sources i) (dests i) = true) : step s = .fault .groupHazard := by
  rw [step, issue_eq_issueFrom he hm ht, issueFrom, if_neg (not_not.2 hc), hd]
  simp only [hh, if_true]

/-- A word that is illegal under a true predicate goes through `issueIllegal`. -/
theorem issue_of_illegalWord {p : Pred} {len : Nat} {srcs dsts : List Resource} {r : Illegal}
    (hw : IllegalWord (decodeSlot (bundleAt s.mem s.pc) s.slot) p len srcs dsts r) :
    issue s = issueIllegal s (bundleAt s.mem s.pc) p len srcs dsts r := by
  rw [issue_eq_issueFrom he hm ht, issueFrom, if_neg (not_not.2 hc)]
  cases hw with
  | spare i hd => rw [hd]
  | unlisted p u hd => rw [hd]

end

/-! ## The skipped words -/

/-- The advance of the issued state, in the terms of `OnlySkips`. -/
theorem onlySkips_advance_issued (s : State) (b : Bundle) (len : Nat) {ds : List Resource} {named : Resource → Prop}
    (hn : ∀ r, r ∈ ds ↔ named r) : OnlySkips (.next (advance (issued s b len ds) len)) s b len named := by
  refine ⟨_, rfl, fun _ => by simp, fun _ hc => readC_congr (by simp) hc, fun _ => by simp, by simp,
    movedOn_advance (issued_pc ..) (issued_slot ..) len, by simp, by simp, fun a => ?_, fun r => ?_⟩
  · rw [advance_fetchedBundles, issued_fetchedBundles, mem_addBundles, mem_bundlesOf _ _ 16 (by omega) (by omega)]
    rfl
  · rw [advance_group, issued_group, mem_groupAfter, hn]
    rfl

/-- What a step does with a word that is illegal under a true predicate: the hazard, the fault, or the skip. -/
theorem step_of_illegalWord {s : State} (he : ¬ (s.config.endPc = some s.pc ∧ s.slot = 0)) (hm : InMapFor s s.pc 16)
    (ht : FetchesText s) (hc : reservedControl (bundleAt s.mem s.pc) = 0) {p : Pred} {len : Nat} {srcs dsts : List Resource}
    {r : Illegal} (hw : IllegalWord (decodeSlot (bundleAt s.mem s.pc) s.slot) p len srcs dsts r)
    {source dest : Resource → Prop} (hsrc : ∀ r, r ∈ srcs ↔ source r) (hdst : ∀ r, r ∈ dsts ↔ dest r) :
    (s.config.stopPolicy = .require → (∃ x ∈ s.group, source x ∨ dest x) → step s = .fault .groupHazard) ∧
    (s.config.stopPolicy = .ignore ∨ ¬ (∃ x ∈ s.group, source x ∨ dest x) →
      (Passes p s → step s = .fault (.illegalInstruction r)) ∧
      (¬ Passes p s → OnlySkips (step s) s (bundleAt s.mem s.pc) len dest)) := by
  have hi := issue_of_illegalWord he hm ht hc hw
  refine ⟨fun hreq hdep => ?_, fun h => ?_⟩
  · have hh := hazard_of_depends hsrc hdst hreq hdep
    rw [step, hi, issueIllegal, if_pos hh]
  · have hh : ¬ hazard s srcs dsts = true := Bool.eq_false_iff.1 (hazard_eq_false_of_independent hsrc hdst h)
    refine ⟨fun hp => ?_, fun hp => ?_⟩
    · rw [step, hi, issueIllegal, if_neg hh, if_pos (show predTest p.cond (readP s p.reg) = true from hp)]
    · rw [step, hi, issueIllegal, if_neg hh, if_neg (show ¬ predTest p.cond (readP s p.reg) = true from hp)]
      exact onlySkips_advance_issued s _ len hdst

/-! ## The statements -/

/-- Settles O47: the issued state differs in its records alone. -/
theorem stepRunsDecodedInstruction : Obligations.StepRunsDecodedInstruction := by
  unfold Obligations.StepRunsDecodedInstruction
  intro s i b he hm ht hc hd hindep
  have hh := hazard_eq_false_of_independent (mem_sources i) (mem_dests i) hindep
  refine ⟨issued s b i.slots (dests i), step_of_instr (atEnd_eq_false he) (fetchBundle_ok hm ht) hc hd hh, rfl, rfl,
    fun _ => rfl, fun _ _ => rfl, fun _ => rfl, rfl, rfl, rfl, fun a => ?_, fun r => ?_⟩
  · rw [issued_fetchedBundles, mem_addBundles, mem_bundlesOf _ _ 16 (by omega) (by omega)]
    rfl
  · rw [issued_group, mem_groupAfter, mem_dests]
    rfl

/-- Settles O48, stop by stop. -/
theorem stepFrontStops : Obligations.StepFrontStops := by
  unfold Obligations.StepFrontStops
  intro s b
  refine ⟨fun he => (step_refused_iff s _).2 (.inl ⟨(atEnd_iff s).2 he, rfl⟩), fun he => ⟨fun hm => ?_, fun hm ht => ?_,
    fun hm ht before after e hs hf hb => ?_, fun hm ht => ⟨step_of_reservedControl he hm ht, fun hc r hd =>
      step_of_illegal he hm ht hc hd⟩⟩⟩
  · exact step_of_fetch_fault (atEnd_eq_false he) (fetchBundle_of_unmapped hm)
  · exact (step_refused_iff s _).2 (.inr ⟨atEnd_eq_false he, (fetchBundle_refuse_iff s _).2 ⟨rfl, hm, ht⟩⟩)
  · exact step_of_fetch_fault (atEnd_eq_false he) (fetchBundle_of_stored hm ht hs hf hb)

/-- Settles O49: a reserved word by its format's names, a spare word by its instruction's. -/
theorem unlistedWordStep : Obligations.UnlistedWordStep := by
  unfold Obligations.UnlistedWordStep
  intro s b he hm ht hc
  exact ⟨fun p u hd => step_of_illegalWord he hm ht hc (.unlisted p u hd) (mem_reservedSources p u) (mem_reservedDests u),
    fun i hd => step_of_illegalWord he hm ht hc (.spare i hd) (mem_sources i) (mem_dests i)⟩

/-- Settles O50: the lists are the names, and a name in the group is a hazard. -/
theorem groupHazardFaults : Obligations.GroupHazardFaults := by
  unfold Obligations.GroupHazardFaults
  refine ⟨fun i r => ⟨mem_sources i r, mem_dests i r⟩, ?_⟩
  intro s i b he hm ht hc hd hreq hdep
  exact step_of_hazard he hm ht hc hd (hazard_of_depends (mem_sources i) (mem_dests i) hreq hdep)

end Sys2Proof.Machine
end
